-- ==== Sys2Proof/Word.lean ====
section
/-!
DEFINITION. The bit-vector types of the machine (spec 00_scope.md R11 to R13): bytes, 32-bit words, 64-bit
lanes and 128-bit blocks. Views of a block and other helpers stand in Machine/Operands.lean.
-/

namespace Sys2Proof

/-- A byte, bit 0 least significant (R11). -/
abbrev Byte := BitVec 8

/-- A 32-bit value: a command word, a 32-bit lane `d[j]`, a dimension of a matrix (R13, R34, R90). -/
abbrev Word := BitVec 32

/-- A 64-bit value: a lane `q[k]`, an effective address, `FINFO` (R13, R60, R39). -/
abbrev DWord := BitVec 64

/-- A block: the 128-bit value of R12. -/
abbrev Block := BitVec 128

/-- The number of a block register, a 4-bit field of the command word (R21). -/
abbrev VReg := BitVec 4

/-- The number of a matrix register, 0 to 3: the low 2 bits of a field that must be at most 3 (R34, R93). -/
abbrev MReg := BitVec 2

end Sys2Proof
end

