-- ==== Sys2Proof/Syntax.lean ====
section
/-!
DEFINITION. The commands: one constructor per row of spec/opcode_table.json (30_encoding.md R97). The operands
stand in the order of the fields `rd`, `ra`, `rb`, immediate. The pseudo-commands of R106 are other names of
words of these and stand in Machine/Assembler.lean.
-/

namespace Sys2Proof

/-- The 32 commands of 30_encoding.md R97. -/
inductive Instr where
  /-- `NOP` (R240). -/
  | nop
  /-- `HALT` (R241). -/
  | halt
  /-- `SETHW vd, mode` (R243). -/
  | sethw (rd : VReg) (mode : Bool)
  /-- `GETST vd` (R244). -/
  | getst (rd : VReg)
  /-- `XOR vd, va, vb` (R130). -/
  | xor (rd ra rb : VReg)
  /-- `ADDQ vd, va, vb` (R131). -/
  | addq (rd ra rb : VReg)
  /-- `AESENC vd, va, vb` (R132). -/
  | aesenc (rd ra rb : VReg)
  /-- `AESENCLAST vd, va, vb` (R133). -/
  | aesenclast (rd ra rb : VReg)
  /-- `AESKGA vd, va, rcon` (R134). -/
  | aeskga (rd ra : VReg) (rcon : Byte)
  /-- `SLLDQ4 vd, va` (R135). -/
  | slldq4 (rd ra : VReg)
  /-- `BCAST3 vd, va` (R136). -/
  | bcast3 (rd ra : VReg)
  /-- `MOV vd, va` (R137). -/
  | mov (rd ra : VReg)
  /-- `SUBB vd, va` (R138). -/
  | subb (rd ra : VReg)
  /-- `SHROW vd, va` (R139). -/
  | shrow (rd ra : VReg)
  /-- `MIXC vd, va` (R140). -/
  | mixc (rd ra : VReg)
  /-- `SETKEY va` (R161). -/
  | setkey (ra : VReg)
  /-- `KEYEXP` (R163). -/
  | keyexp
  /-- `AESGEN vd, va` (R166). -/
  | aesgen (rd ra : VReg)
  /-- `GETRK vd, i` (R168): `i` is the field `imm12[3:0]`, legal from 0 to 10. -/
  | getrk (rd : VReg) (i : BitVec 4)
  /-- `ARSGEN vd, va, R` (R181): `R` is the field `imm12[7:0]`, legal from 1 to 255. -/
  | arsgen (rd ra : VReg) (r : Byte)
  /-- `GMUL md, ma, mb` (R196). -/
  | gmul (rd ra rb : MReg)
  /-- `GAPPLY md, ma, mb` (R197). -/
  | gapply (rd ra rb : MReg)
  /-- `GPOW md, ma, mb, vc` (R199). -/
  | gpow (rd ra rb : MReg) (rc : VReg)
  /-- `GDIM vd, ma` (R201). -/
  | gdim (rd : VReg) (ra : MReg)
  /-- `LDB vd, addr` (R232). -/
  | ldb (rd : VReg) (imm20 : BitVec 20)
  /-- `LDBX vd, disp(va)` (R233). -/
  | ldbx (rd ra : VReg) (imm12 : BitVec 12)
  /-- `STB vs, addr` (R234). -/
  | stb (rd : VReg) (imm20 : BitVec 20)
  /-- `STBX vs, disp(va)` (R235). -/
  | stbx (rd ra : VReg) (imm12 : BitVec 12)
  /-- `GLD md, addr` (R236). -/
  | gld (rd : MReg) (imm20 : BitVec 20)
  /-- `GLDX md, disp(va)` (R237). -/
  | gldx (rd : MReg) (ra : VReg) (imm12 : BitVec 12)
  /-- `GST ms, addr` (R238). -/
  | gst (rd : MReg) (imm20 : BitVec 20)
  /-- `GSTX ms, disp(va)` (R239). -/
  | gstx (rd : MReg) (ra : VReg) (imm12 : BitVec 12)
  deriving DecidableEq, Repr

end Sys2Proof
end

