-- ==== Sys2Proof/WellFormed.lean ====
section
/-!
DEFINITION. Which terms of `Instr` are commands. The types of the operands already hold every field to its width
(a matrix register is one of four, R104); the two value checks of 30_encoding.md R96 and R98 remain.
-/

namespace Sys2Proof

/-- The value checks of R96: the round count of `ARSGEN` is not 0, the index of `GETRK` is at most 10. -/
def Instr.wellFormed : Instr → Bool
  | .nop => true
  | .halt => true
  | .sethw _ _ => true
  | .getst _ => true
  | .xor _ _ _ => true
  | .addq _ _ _ => true
  | .aesenc _ _ _ => true
  | .aesenclast _ _ _ => true
  | .aeskga _ _ _ => true
  | .slldq4 _ _ => true
  | .bcast3 _ _ => true
  | .mov _ _ => true
  | .subb _ _ => true
  | .shrow _ _ => true
  | .mixc _ _ => true
  | .setkey _ => true
  | .keyexp => true
  | .aesgen _ _ => true
  | .getrk _ i => decide (i.toNat ≤ 10)
  | .arsgen _ _ r => decide (r ≠ 0)
  | .gmul _ _ _ => true
  | .gapply _ _ _ => true
  | .gpow _ _ _ _ => true
  | .gdim _ _ => true
  | .ldb _ _ => true
  | .ldbx _ _ _ => true
  | .stb _ _ => true
  | .stbx _ _ _ => true
  | .gld _ _ => true
  | .gldx _ _ _ => true
  | .gst _ _ => true
  | .gstx _ _ _ => true

end Sys2Proof
end

