-- ==== Sys2Proof/Decode.lean ====
section
/-!
DEFINITION. Command words: the fields of the two layouts (30_encoding.md R91, R92), the decoder in the order of
R99, the encoder, and the match and mask table of R98 (spec/opcode_table.json) as a second, independent reading
of the same encodings.
-/

namespace Sys2Proof

/-! ## Fields -/

/-- `op`, bits 31:24 of every command (R90). -/
def fieldOp (w : Word) : BitVec 8 := w.extractLsb' 24 8

/-- `rd`, bits 23:20 of both layouts (R91, R92). -/
def fieldRd (w : Word) : BitVec 4 := w.extractLsb' 20 4

/-- `ra`, bits 19:16 of layout F (R91). -/
def fieldRa (w : Word) : BitVec 4 := w.extractLsb' 16 4

/-- `rb`, bits 15:12 of layout F (R91). -/
def fieldRb (w : Word) : BitVec 4 := w.extractLsb' 12 4

/-- `imm12`, bits 11:0 of layout F (R91). -/
def fieldImm12 (w : Word) : BitVec 12 := w.extractLsb' 0 12

/-- `imm20`, bits 19:0 of layout A (R92). -/
def fieldImm20 (w : Word) : BitVec 20 := w.extractLsb' 0 20

/-- A matrix register field must be 0 to 3 (R93, R104). -/
def isMatrix (f : BitVec 4) : Bool := decide (f.toNat ≤ 3)

/-- The matrix register a legal field names: its low 2 bits (R34). -/
def mreg (f : BitVec 4) : MReg := f.extractLsb' 0 2

/-! ## The decoder -/

/-- Why a word (or a stream of bytes) is no command. The machine does not record which check failed (R99);
the names are the decoder's own (log 9). -/
inductive DecodeError where
  /-- `op` is not in the map of R97. -/
  | unassignedOpcode
  /-- A must-be-zero field of the command is not zero. -/
  | fieldNotZero
  /-- A matrix register field is above 3 (R104). -/
  | matrixField
  /-- `ARSGEN` with `R = 0` (R96). -/
  | roundCountZero
  /-- `GETRK` with an index above 10 (R96). -/
  | roundKeyIndex
  /-- Fewer than four bytes are left in a program stored as bytes (R63). -/
  | truncated
  deriving DecidableEq, Repr

/-- Checks (2), (3) and (4) of R99 in their order: the must-be-zero fields, the matrix register fields, the value
constraints. -/
def checked (zeros matrices : Bool) (value : Option DecodeError) (i : Instr) :
    Except DecodeError Instr :=
  if !zeros then .error .fieldNotZero
  else if !matrices then .error .matrixField
  else match value with
    | some e => .error e
    | none => .ok i

/-- The command of opcode `op` (R97, R99 check (1)) with the fields of layout F, or of layout A for `LDB`, `STB`,
`GLD` and `GST`. -/
def decodeOp (op : BitVec 8) (rd ra rb : BitVec 4) (imm : BitVec 12) (imm20 : BitVec 20) :
    Except DecodeError Instr :=
  match op with
  | 0x01#8 => checked (rd == 0 && ra == 0 && rb == 0 && imm == 0) true none .nop
  | 0x02#8 => checked (rd == 0 && ra == 0 && rb == 0 && imm == 0) true none .halt
  | 0x03#8 =>
      checked (ra == 0 && rb == 0 && imm.extractLsb' 1 11 == 0) true none (.sethw rd (imm.getLsbD 0))
  | 0x04#8 => checked (ra == 0 && rb == 0 && imm == 0) true none (.getst rd)
  | 0x10#8 => checked (imm == 0) true none (.xor rd ra rb)
  | 0x11#8 => checked (imm == 0) true none (.addq rd ra rb)
  | 0x12#8 => checked (imm == 0) true none (.aesenc rd ra rb)
  | 0x13#8 => checked (imm == 0) true none (.aesenclast rd ra rb)
  | 0x14#8 => checked (rb == 0 && imm.extractLsb' 8 4 == 0) true none (.aeskga rd ra (imm.extractLsb' 0 8))
  | 0x15#8 => checked (rb == 0 && imm == 0) true none (.slldq4 rd ra)
  | 0x16#8 => checked (rb == 0 && imm == 0) true none (.bcast3 rd ra)
  | 0x17#8 => checked (rb == 0 && imm == 0) true none (.mov rd ra)
  | 0x18#8 => checked (rb == 0 && imm == 0) true none (.subb rd ra)
  | 0x19#8 => checked (rb == 0 && imm == 0) true none (.shrow rd ra)
  | 0x1A#8 => checked (rb == 0 && imm == 0) true none (.mixc rd ra)
  | 0x20#8 => checked (rd == 0 && rb == 0 && imm == 0) true none (.setkey ra)
  | 0x21#8 => checked (rd == 0 && ra == 0 && rb == 0 && imm == 0) true none .keyexp
  | 0x22#8 => checked (rb == 0 && imm == 0) true none (.aesgen rd ra)
  | 0x23#8 =>
      checked (ra == 0 && rb == 0 && imm.extractLsb' 4 8 == 0) true
        (if 10 < (imm.extractLsb' 0 4).toNat then some .roundKeyIndex else none) (.getrk rd (imm.extractLsb' 0 4))
  | 0x30#8 =>
      checked (rb == 0 && imm.extractLsb' 8 4 == 0) true
        (if imm.extractLsb' 0 8 = 0 then some .roundCountZero else none) (.arsgen rd ra (imm.extractLsb' 0 8))
  | 0x40#8 =>
      checked (imm == 0) (isMatrix rd && isMatrix ra && isMatrix rb) none (.gmul (mreg rd) (mreg ra) (mreg rb))
  | 0x41#8 =>
      checked (imm == 0) (isMatrix rd && isMatrix ra && isMatrix rb) none
        (.gapply (mreg rd) (mreg ra) (mreg rb))
  | 0x42#8 =>
      checked (imm.extractLsb' 4 8 == 0) (isMatrix rd && isMatrix ra && isMatrix rb) none
        (.gpow (mreg rd) (mreg ra) (mreg rb) (imm.extractLsb' 0 4))
  | 0x43#8 => checked (rb == 0 && imm == 0) (isMatrix ra) none (.gdim rd (mreg ra))
  | 0x50#8 => checked true true none (.ldb rd imm20)
  | 0x51#8 => checked (rb == 0) true none (.ldbx rd ra imm)
  | 0x52#8 => checked true true none (.stb rd imm20)
  | 0x53#8 => checked (rb == 0) true none (.stbx rd ra imm)
  | 0x54#8 => checked true (isMatrix rd) none (.gld (mreg rd) imm20)
  | 0x55#8 => checked (rb == 0) (isMatrix rd) none (.gldx (mreg rd) ra imm)
  | 0x56#8 => checked true (isMatrix rd) none (.gst (mreg rd) imm20)
  | 0x57#8 => checked (rb == 0) (isMatrix rd) none (.gstx (mreg rd) ra imm)
  | _ => .error .unassignedOpcode

/-- The command a word stands for, or why it is illegal: total on the 2^32 words (R99, R100). -/
def decode (w : Word) : Except DecodeError Instr :=
  decodeOp (fieldOp w) (fieldRd w) (fieldRa w) (fieldRb w) (fieldImm12 w) (fieldImm20 w)

/-- The command word of four bytes of a program stored as bytes, bits 7:0 first (R63). -/
def wordOfBytes (b0 b1 b2 b3 : Byte) : Word :=
  b3.setWidth 32 <<< 24 ||| b2.setWidth 32 <<< 16 ||| b1.setWidth 32 <<< 8 ||| b0.setWidth 32

/-- One command from a program stored as bytes, and the bytes after it: the convention of R63, which binds
listings and nothing in the core. -/
def decodeBytes : List Byte → Except DecodeError (Instr × List Byte)
  | b0 :: b1 :: b2 :: b3 :: rest => (decode (wordOfBytes b0 b1 b2 b3)).map fun i => (i, rest)
  | _ => .error .truncated

/-- The instruction the decoder reads from a word numbered as spec/opcode_table.json numbers its bits: every
command is one 32-bit word (R90), whose bits at and above `nbits` are 0. -/
def decodeTableWord (nbits w : Nat) : Option Instr :=
  if nbits ≤ 32 then
    match decode (BitVec.ofNat 32 (w % 2 ^ nbits)) with
    | .ok i => some i
    | .error _ => none
  else none

/-! ## The encoder -/

/-- A word of layout F (R91): `op << 24 | rd << 20 | ra << 16 | rb << 12 | imm12`. -/
def wordF (op : BitVec 8) (rd ra rb : BitVec 4) (imm : BitVec 12) : Word :=
  op.setWidth 32 <<< 24 ||| rd.setWidth 32 <<< 20 ||| ra.setWidth 32 <<< 16 |||
    rb.setWidth 32 <<< 12 ||| imm.setWidth 32

/-- A word of layout A (R92): `op << 24 | rd << 20 | imm20`. -/
def wordA (op : BitVec 8) (rd : BitVec 4) (imm : BitVec 20) : Word :=
  op.setWidth 32 <<< 24 ||| rd.setWidth 32 <<< 20 ||| imm.setWidth 32

/-- The field that names a matrix register (R93). -/
def mfield (m : MReg) : BitVec 4 := m.setWidth 4

/-- The word of a command (R91, R92, R96, R97). -/
def encode : Instr → Word
  | .nop => wordF 0x01 0 0 0 0
  | .halt => wordF 0x02 0 0 0 0
  | .sethw rd mode => wordF 0x03 rd 0 0 ((BitVec.ofBool mode).setWidth 12)
  | .getst rd => wordF 0x04 rd 0 0 0
  | .xor rd ra rb => wordF 0x10 rd ra rb 0
  | .addq rd ra rb => wordF 0x11 rd ra rb 0
  | .aesenc rd ra rb => wordF 0x12 rd ra rb 0
  | .aesenclast rd ra rb => wordF 0x13 rd ra rb 0
  | .aeskga rd ra rcon => wordF 0x14 rd ra 0 (rcon.setWidth 12)
  | .slldq4 rd ra => wordF 0x15 rd ra 0 0
  | .bcast3 rd ra => wordF 0x16 rd ra 0 0
  | .mov rd ra => wordF 0x17 rd ra 0 0
  | .subb rd ra => wordF 0x18 rd ra 0 0
  | .shrow rd ra => wordF 0x19 rd ra 0 0
  | .mixc rd ra => wordF 0x1A rd ra 0 0
  | .setkey ra => wordF 0x20 0 ra 0 0
  | .keyexp => wordF 0x21 0 0 0 0
  | .aesgen rd ra => wordF 0x22 rd ra 0 0
  | .getrk rd i => wordF 0x23 rd 0 0 (i.setWidth 12)
  | .arsgen rd ra r => wordF 0x30 rd ra 0 (r.setWidth 12)
  | .gmul rd ra rb => wordF 0x40 (mfield rd) (mfield ra) (mfield rb) 0
  | .gapply rd ra rb => wordF 0x41 (mfield rd) (mfield ra) (mfield rb) 0
  | .gpow rd ra rb rc => wordF 0x42 (mfield rd) (mfield ra) (mfield rb) (rc.setWidth 12)
  | .gdim rd ra => wordF 0x43 rd (mfield ra) 0 0
  | .ldb rd imm20 => wordA 0x50 rd imm20
  | .ldbx rd ra imm12 => wordF 0x51 rd ra 0 imm12
  | .stb rd imm20 => wordA 0x52 rd imm20
  | .stbx rd ra imm12 => wordF 0x53 rd ra 0 imm12
  | .gld rd imm20 => wordA 0x54 (mfield rd) imm20
  | .gldx rd ra imm12 => wordF 0x55 (mfield rd) ra 0 imm12
  | .gst rd imm20 => wordA 0x56 (mfield rd) imm20
  | .gstx rd ra imm12 => wordF 0x57 (mfield rd) ra 0 imm12

/-! ## The match and mask table -/

/-- The two value checks that no mask expresses (R98). -/
inductive ValueCheck where
  /-- No check beyond the mask. -/
  | none
  /-- `imm12[7:0] ≠ 0` (`ARSGEN`). -/
  | roundCount
  /-- `imm12[3:0] ≤ 10` (`GETRK`). -/
  | roundKeyIndex
  deriving DecidableEq, Repr

/-- A row of spec/opcode_table.json: a word `w` with `w & mask = match` that passes the value check is that
command (R98). -/
structure OpcodeRow where
  /-- The mnemonic of the table. -/
  mnemonic : String
  /-- The fixed bits' values. -/
  pattern : Word
  /-- Ones over the fixed bits. -/
  mask : Word
  /-- The constraint of the row. -/
  check : ValueCheck
  deriving DecidableEq, Repr

/-- The table, in its own order (R97, R98). -/
def opcodeRows : List OpcodeRow :=
  [
    ⟨"NOP", 0x01000000#32, 0xFFFFFFFF#32, .none⟩,
    ⟨"HALT", 0x02000000#32, 0xFFFFFFFF#32, .none⟩,
    ⟨"SETHW", 0x03000000#32, 0xFF0FFFFE#32, .none⟩,
    ⟨"GETST", 0x04000000#32, 0xFF0FFFFF#32, .none⟩,
    ⟨"XOR", 0x10000000#32, 0xFF000FFF#32, .none⟩,
    ⟨"ADDQ", 0x11000000#32, 0xFF000FFF#32, .none⟩,
    ⟨"AESENC", 0x12000000#32, 0xFF000FFF#32, .none⟩,
    ⟨"AESENCLAST", 0x13000000#32, 0xFF000FFF#32, .none⟩ ] ++
  [
    ⟨"AESKGA", 0x14000000#32, 0xFF00FF00#32, .none⟩,
    ⟨"SLLDQ4", 0x15000000#32, 0xFF00FFFF#32, .none⟩,
    ⟨"BCAST3", 0x16000000#32, 0xFF00FFFF#32, .none⟩,
    ⟨"MOV", 0x17000000#32, 0xFF00FFFF#32, .none⟩,
    ⟨"SUBB", 0x18000000#32, 0xFF00FFFF#32, .none⟩,
    ⟨"SHROW", 0x19000000#32, 0xFF00FFFF#32, .none⟩,
    ⟨"MIXC", 0x1A000000#32, 0xFF00FFFF#32, .none⟩,
    ⟨"SETKEY", 0x20000000#32, 0xFFF0FFFF#32, .none⟩ ] ++
  [
    ⟨"KEYEXP", 0x21000000#32, 0xFFFFFFFF#32, .none⟩,
    ⟨"AESGEN", 0x22000000#32, 0xFF00FFFF#32, .none⟩,
    ⟨"GETRK", 0x23000000#32, 0xFF0FFFF0#32, .roundKeyIndex⟩,
    ⟨"ARSGEN", 0x30000000#32, 0xFF00FF00#32, .roundCount⟩,
    ⟨"GMUL", 0x40000000#32, 0xFFCCCFFF#32, .none⟩,
    ⟨"GAPPLY", 0x41000000#32, 0xFFCCCFFF#32, .none⟩,
    ⟨"GPOW", 0x42000000#32, 0xFFCCCFF0#32, .none⟩,
    ⟨"GDIM", 0x43000000#32, 0xFF0CFFFF#32, .none⟩ ] ++
  [
    ⟨"LDB", 0x50000000#32, 0xFF000000#32, .none⟩,
    ⟨"LDBX", 0x51000000#32, 0xFF00F000#32, .none⟩,
    ⟨"STB", 0x52000000#32, 0xFF000000#32, .none⟩,
    ⟨"STBX", 0x53000000#32, 0xFF00F000#32, .none⟩,
    ⟨"GLD", 0x54000000#32, 0xFFC00000#32, .none⟩,
    ⟨"GLDX", 0x55000000#32, 0xFFC0F000#32, .none⟩,
    ⟨"GST", 0x56000000#32, 0xFFC00000#32, .none⟩,
    ⟨"GSTX", 0x57000000#32, 0xFFC0F000#32, .none⟩ ]

/-- Whether a word passes a row's value check (R98). -/
def ValueCheck.passes : ValueCheck → Word → Bool
  | .none, _ => true
  | .roundCount, w => decide (w.extractLsb' 0 8 ≠ 0)
  | .roundKeyIndex, w => decide ((w.extractLsb' 0 4).toNat ≤ 10)

/-- Whether a word is the command of a row (R98). -/
def OpcodeRow.accepts (r : OpcodeRow) (w : Word) : Bool :=
  decide (w &&& r.mask = r.pattern) && r.check.passes w

end Sys2Proof
end

