-- ==== Sys2Proof/Config.lean ====
section
/-!
DEFINITION. What an instance fixes for its whole life: the parameters of spec 00_scope.md R8 and R9, which are
model arguments (92_eei_decisions.md, open parameters), and what a location of memory that nothing has written
reads as. No rule of the spec leaves the result of a command open, so there is no free value here
(93_implementation_defined.md U1 to U20).
-/

namespace Sys2Proof

/-- The parameters of an instance (R8, R9). Every statement of the model is about every value of them. -/
structure Config where
  /-- `HWCAP`: whether the instance has the dedicated round datapath (R8). -/
  hwcap : Bool
  /-- `CMSIZE`: the number of command words in the command memory (R9). -/
  cmsize : Nat
  /-- `MEMSIZE`: the number of bytes in the data memory (R9). -/
  memsize : Nat
  /-- `MAXDIM`: the largest row count and the largest column count of a matrix register (R9). -/
  maxdim : Nat
  deriving DecidableEq, Repr

/-- The ranges of the parameters (R9). -/
abbrev Config.wf (c : Config) : Prop :=
  (1 ≤ c.cmsize ∧ c.cmsize ≤ 2 ^ 31) ∧
  (c.memsize % 16 = 0 ∧ 16 ≤ c.memsize ∧ c.memsize ≤ 2 ^ 63) ∧
  (1 ≤ c.maxdim ∧ c.maxdim ≤ 2 ^ 32 - 1)

/-- DESIGN CHOICE (unsafe, log 1): the instance that `State.reset` shows, the largest the spec allows and with
`HWCAP = 1`. No rule of a command reads it; only `State.reset` does. -/
def Config.largest : Config :=
  { hwcap := true, cmsize := 2 ^ 31, memsize := 2 ^ 63, maxdim := 2 ^ 32 - 1 }

/-- DESIGN CHOICE (unsafe, log 2): what a location of `DM` or `CM` that no entry lists reads as. Any contents of
a memory is a list of its other entries, so this fixes the contents of no memory but the empty list's. -/
abbrev Config.unwritten (w : Nat) : BitVec w := 0#w

end Sys2Proof
end

