-- ==== Sys2Proof/Machine/State.lean ====
section
/-!
DEFINITION. The architectural state of an instance as plain data (10_state.md R20), the value of each piece after
reset (R46, 70_reset_and_hazards.md R300), and the reasons a host action can be turned away. The faults of the
machine itself are no `Fault` here: taking one is a next state (60_exceptions.md R262).
-/

namespace Sys2Proof.Machine

/-- Why an action stops with a fault. No command of the core raises one: the nine faults of R261 are `Cause`s,
taken as next states. -/
inductive Fault where
  /-- Raised by a host access to `DM[a]` or `CM[a]` where the instance has no such location (R42, R43; log 6).
  Safe: the spec gives the access no effect, and no statement about the core meets it. -/
  | noSuchLocation (a : Nat)
  /-- Raised by a host access to an offset that R37 does not list (log 6). Safe, for the same reason. -/
  | noSuchHostRegister (offset : Nat)
  deriving DecidableEq, Repr

/-- Why an action is turned away without an answer. -/
inductive Refusal where
  /-- Raised by `exec` for an instruction without a meaning; no arm of this model raises it. Safe. -/
  | notModelled (mnemonic : String)
  /-- Raised by a host read of `DM` or `CM` while `STATE = RUN`, which R280 says a model should refuse to answer
  (93_implementation_defined.md U3). Safe. -/
  | hostReadWhileRunning
  deriving DecidableEq, Repr

/-- The sequencer's state, the field `STATE` (R38). -/
inductive SeqState where
  /-- After reset, never started: code 0. -/
  | idle
  /-- The sequencer executes commands: code 1. -/
  | run
  /-- A `HALT` command ended the run: code 2. -/
  | halted
  /-- A fault ended the run: code 3. -/
  | faulted
  deriving DecidableEq, Repr

/-- The nine causes of a fault (60_exceptions.md R261). Codes 10 to 15 never appear, so no value stands for
them. -/
inductive Cause where
  /-- Code 1 (R263). -/
  | illegalCommand
  /-- Code 2 (R265). -/
  | configurationError
  /-- Code 3 (R266). -/
  | keyScheduleInvalid
  /-- Code 4 (R267). -/
  | memAccess
  /-- Code 5 (R268). -/
  | misaligned
  /-- Code 6 (R269). -/
  | matrixFormat
  /-- Code 7 (R271). -/
  | dimMismatch
  /-- Code 8 (R270). -/
  | matrixEmpty
  /-- Code 9 (R264). -/
  | commandFetch
  deriving DecidableEq, Repr

/-- A bit matrix over GF(2) as a matrix register holds it (R34): row and column counts of 32 bits, and the rows,
each the list of its entries from column 0 on. -/
structure Matrix where
  /-- The row count; 0 says that the register is empty (R34). -/
  rows : Word
  /-- The column count. -/
  cols : Word
  /-- Row `r`, column `c` at position `c` of list `r`. -/
  data : List (List Bool)
  deriving DecidableEq, Repr

/-- The empty matrix register (R34, R35). -/
def Matrix.empty : Matrix := { rows := 0, cols := 0, data := [] }

/-- A memory of cells of `w` bits: (address, contents) pairs, addresses rising, no entry equal to
`Config.unwritten w`, which is what an address without an entry reads as. -/
abbrev Store (w : Nat) := List (Nat × BitVec w)

/-- The data memory, by byte address (R42): a list of `Host.Cell`. -/
abbrev Memory := Store 8

/-- The command memory, by word index (R43). -/
abbrev CmdMemory := Store 32

/-- Everything the spec gives an instance (R20), and its parameters. -/
structure State where
  /-- The model's own field: the parameters of the instance (R8, R9; log 1). -/
  cfg : Config
  /-- `v0` to `v15` (R21). -/
  v : Vector Block 16
  /-- `KEY` (R24). -/
  key : Block
  /-- `RK0` to `RK10` (R25). -/
  rk : Vector Block 11
  /-- `KSV` (R26). -/
  ksv : Bool
  /-- `MODE.HW` (R30). -/
  hw : Bool
  /-- `m0` to `m3` (R34). -/
  m : Vector Matrix 4
  /-- `cp` (R27). -/
  cp : Word
  /-- `STATE` (R38). -/
  st : SeqState
  /-- `CAUSE` (R39): `none` is code 0. -/
  cause : Option Cause
  /-- `FCP` (R39). -/
  fcp : Word
  /-- `FINFO` (R39). -/
  finfo : DWord
  /-- `DM` (R42). -/
  dm : Memory
  /-- `CM` (R43). -/
  cm : CmdMemory
  deriving DecidableEq, Repr

/-- The state of an instance after reset (R46, R300), with the memories that reset leaves as they are. After
power-up the memories are any contents (R302). -/
def State.afterReset (c : Config) (dm : Memory) (cm : CmdMemory) : State :=
  { cfg := c
    v := Vector.replicate 16 0
    key := 0
    rk := Vector.replicate 11 0
    ksv := false
    hw := c.hwcap
    m := Vector.replicate 4 Matrix.empty
    cp := 0
    st := .idle
    cause := none
    fcp := 0
    finfo := 0
    dm := dm
    cm := cm }

/-- The machine right after reset. The registers are the spec's (R300); that the instance is the largest one and
that its memories list nothing is the model's choice (DESIGN CHOICE, logs 1 and 2). -/
def State.reset : State := State.afterReset Config.largest [] []

end Sys2Proof.Machine
end

