-- ==== Sys2Proof/Machine/Operands.lean ====
section
/-!
DEFINITION. Views of a block (00_scope.md R12, R13), building a value from its lanes, the effective addresses of
the two address forms (44_memory_system.md R230, R231) and the exponent of `GPOW` (43_gf2_matrix.md R198).
-/

namespace Sys2Proof.Machine

/-! ## Lanes -/

/-- `B.b[i]`, byte `i` of a block (R12). -/
def byteB (b : Block) (i : Nat) : Byte := b.extractLsb' (8 * i) 8

/-- `B.d[j]`, 32-bit lane `j` of a block (R13). -/
def laneD (b : Block) (j : Nat) : Word := b.extractLsb' (32 * j) 32

/-- `B.q[k]`, 64-bit lane `k` of a block (R13). -/
def laneQ (b : Block) (k : Nat) : DWord := b.extractLsb' (64 * k) 64

/-- The value of `n` bits whose lanes of `w` bits are the elements of a list, the first least significant (R11,
R13). Bits above the last lane are 0. -/
def pack {w : Nat} (n : Nat) : List (BitVec w) → BitVec n
  | [] => 0#n
  | x :: xs => (pack n xs <<< w) ||| x.setWidth n

/-- The block with byte `i` equal to `f i` (R12). -/
def blockOfBytes (f : Nat → Byte) : Block := pack 128 ((List.range 16).map f)

/-- The block with lane `d[j]` equal to `f j` (R13). -/
def blockOfD (f : Nat → Word) : Block := pack 128 ((List.range 4).map f)

/-- The block with lane `q[k]` equal to `f k` (R13). -/
def blockOfQ (f : Nat → DWord) : Block := pack 128 ((List.range 2).map f)

/-- The first `n` bytes of a value, the least significant first (R62). -/
def bytesOf {w : Nat} (n : Nat) (x : BitVec w) : List Byte :=
  (List.range n).map fun i => x.extractLsb' (8 * i) 8

/-! ## Effective addresses -/

/-- The absolute form: `EA = zext_64(imm20) * 16` (R94, R230). -/
def absoluteEA (imm20 : BitVec 20) : DWord := imm20.setWidth 64 * 16

/-- The indexed form: `EA = (v[ra].q[0] + sext_64(imm12) * 16) mod 2^64`, of the base block `v[ra]` (R95, R231). -/
def indexedEA (base : Block) (imm12 : BitVec 12) : DWord :=
  laneQ base 0 + imm12.signExtend 64 * 16

/-! ## The exponent of GPOW -/

/-- `p`, the low lane of the exponent register as a signed number (R198). -/
def exponentOf (b : Block) : Int := (laneQ b 0).toInt

end Sys2Proof.Machine
end

