-- ==== Sys2Proof/Machine/AesRound.lean ====
section
/-!
DEFINITION. The functions of the AES round unit: arithmetic in GF(2^8), the S-box, the four stages and the two
round forms, the key-schedule words, and the lane operations of the block primitives (40_block_primitives.md R122
to R129, R131, R134 to R136, R141). The hardware and the software datapath compute the same functions (R121), so
there is one function per operation.
-/

namespace Sys2Proof.Machine

/-! ## GF(2^8) and the S-box -/

/-- Doubling in GF(2^8) with reduction constant 0x1b (R122). -/
def xtime (a : Byte) : Byte := (a <<< 1) ^^^ (if a.getLsbD 7 then 0x1b else 0x00)

/-- The S-box, row `R` giving `SBOX[0xR0]` to `SBOX[0xRf]` (R123). -/
def sboxRows : List (List Byte) :=
  [[0x63, 0x7c, 0x77, 0x7b, 0xf2, 0x6b, 0x6f, 0xc5, 0x30, 0x01, 0x67, 0x2b, 0xfe, 0xd7, 0xab, 0x76]] ++
  [[0xca, 0x82, 0xc9, 0x7d, 0xfa, 0x59, 0x47, 0xf0, 0xad, 0xd4, 0xa2, 0xaf, 0x9c, 0xa4, 0x72, 0xc0]] ++
  [[0xb7, 0xfd, 0x93, 0x26, 0x36, 0x3f, 0xf7, 0xcc, 0x34, 0xa5, 0xe5, 0xf1, 0x71, 0xd8, 0x31, 0x15]] ++
  [[0x04, 0xc7, 0x23, 0xc3, 0x18, 0x96, 0x05, 0x9a, 0x07, 0x12, 0x80, 0xe2, 0xeb, 0x27, 0xb2, 0x75]] ++
  [[0x09, 0x83, 0x2c, 0x1a, 0x1b, 0x6e, 0x5a, 0xa0, 0x52, 0x3b, 0xd6, 0xb3, 0x29, 0xe3, 0x2f, 0x84]] ++
  [[0x53, 0xd1, 0x00, 0xed, 0x20, 0xfc, 0xb1, 0x5b, 0x6a, 0xcb, 0xbe, 0x39, 0x4a, 0x4c, 0x58, 0xcf]] ++
  [[0xd0, 0xef, 0xaa, 0xfb, 0x43, 0x4d, 0x33, 0x85, 0x45, 0xf9, 0x02, 0x7f, 0x50, 0x3c, 0x9f, 0xa8]] ++
  [[0x51, 0xa3, 0x40, 0x8f, 0x92, 0x9d, 0x38, 0xf5, 0xbc, 0xb6, 0xda, 0x21, 0x10, 0xff, 0xf3, 0xd2]] ++
  [[0xcd, 0x0c, 0x13, 0xec, 0x5f, 0x97, 0x44, 0x17, 0xc4, 0xa7, 0x7e, 0x3d, 0x64, 0x5d, 0x19, 0x73]] ++
  [[0x60, 0x81, 0x4f, 0xdc, 0x22, 0x2a, 0x90, 0x88, 0x46, 0xee, 0xb8, 0x14, 0xde, 0x5e, 0x0b, 0xdb]] ++
  [[0xe0, 0x32, 0x3a, 0x0a, 0x49, 0x06, 0x24, 0x5c, 0xc2, 0xd3, 0xac, 0x62, 0x91, 0x95, 0xe4, 0x79]] ++
  [[0xe7, 0xc8, 0x37, 0x6d, 0x8d, 0xd5, 0x4e, 0xa9, 0x6c, 0x56, 0xf4, 0xea, 0x65, 0x7a, 0xae, 0x08]] ++
  [[0xba, 0x78, 0x25, 0x2e, 0x1c, 0xa6, 0xb4, 0xc6, 0xe8, 0xdd, 0x74, 0x1f, 0x4b, 0xbd, 0x8b, 0x8a]] ++
  [[0x70, 0x3e, 0xb5, 0x66, 0x48, 0x03, 0xf6, 0x0e, 0x61, 0x35, 0x57, 0xb9, 0x86, 0xc1, 0x1d, 0x9e]] ++
  [[0xe1, 0xf8, 0x98, 0x11, 0x69, 0xd9, 0x8e, 0x94, 0x9b, 0x1e, 0x87, 0xe9, 0xce, 0x55, 0x28, 0xdf]] ++
  [[0x8c, 0xa1, 0x89, 0x0d, 0xbf, 0xe6, 0x42, 0x68, 0x41, 0x99, 0x2d, 0x0f, 0xb0, 0x54, 0xbb, 0x16]]

/-- `SBOX[a]` (R123). -/
def sbox (a : Byte) : Byte :=
  (sboxRows.getD (a.extractLsb' 4 4).toNat []).getD (a.extractLsb' 0 4).toNat 0

/-- The affine map of the S-box with constant 0x63: bit `i` is
`x[i] ^ x[i+4] ^ x[i+5] ^ x[i+6] ^ x[i+7] ^ c[i]`, indices modulo 8 (R123). -/
def sboxAffine (x : Byte) : Byte :=
  x ^^^ x.rotateRight 4 ^^^ x.rotateRight 5 ^^^ x.rotateRight 6 ^^^ x.rotateRight 7 ^^^ 0x63

/-- Multiplication in GF(2^8): the sum of the doublings of `a` that the low `n` bits of `b` select (R122). -/
def gfMulFrom (a : Byte) : Nat → Nat → Byte → Byte
  | 0, _, _ => 0
  | n + 1, i, b => (if b.getLsbD i then a else 0) ^^^ gfMulFrom (xtime a) n (i + 1) b

/-- The product of two elements of GF(2^8) (R122, R123). -/
def gfMul (a b : Byte) : Byte := gfMulFrom a 8 0 b

/-! ## The stages -/

/-- `SubBytes(B)` (R124). -/
def subBytes (b : Block) : Block := blockOfBytes fun i => sbox (byteB b i)

/-- `ShiftRows(B)`: `S.b[r + 4c] = B.b[r + 4*((c + r) mod 4)]` (R125). -/
def shiftRows (b : Block) : Block :=
  blockOfBytes fun i =>
    let r := i % 4
    let c := i / 4
    byteB b (r + 4 * ((c + r) % 4))

/-- Row `r` of the column `a0 a1 a2 a3`, by the matrix of R127. -/
def mixRow (r : Nat) (a0 a1 a2 a3 : Byte) : Byte :=
  match r with
  | 0 => xtime a0 ^^^ (xtime a1 ^^^ a1) ^^^ a2 ^^^ a3
  | 1 => a0 ^^^ xtime a1 ^^^ (xtime a2 ^^^ a2) ^^^ a3
  | 2 => a0 ^^^ a1 ^^^ xtime a2 ^^^ (xtime a3 ^^^ a3)
  | _ => (xtime a0 ^^^ a0) ^^^ a1 ^^^ a2 ^^^ xtime a3

/-- `MixColumns(B)`: each column by itself (R127). -/
def mixColumns (b : Block) : Block :=
  blockOfBytes fun i =>
    let c := i / 4
    mixRow (i % 4) (byteB b (4 * c)) (byteB b (4 * c + 1)) (byteB b (4 * c + 2)) (byteB b (4 * c + 3))

/-- `xtime` on the eight bytes of a 64-bit lane at once (R128). -/
def xtime8 (x : DWord) : DWord :=
  ((x &&& 0x7f7f7f7f7f7f7f7f) <<< 1) ^^^ (((x >>> 7) &&& 0x0101010101010101) * 0x1b)

/-- Byte `r` of each 32-bit column takes the value of byte `(r+1) mod 4` (R128). -/
def rotColumns (x : DWord) : DWord :=
  pack 64 [(x.extractLsb' 0 32).rotateRight 8, (x.extractLsb' 32 32).rotateRight 8]

/-- One lane of the branchless form of MixColumns (R128). -/
def mixLane (x : DWord) : DWord :=
  xtime8 x ^^^ rotColumns (xtime8 x ^^^ x) ^^^ rotColumns (rotColumns x) ^^^
    rotColumns (rotColumns (rotColumns x))

/-- The branchless form of MixColumns, both lanes (R128): informative there, and stated to agree with R127. -/
def mixColumnsPacked (b : Block) : Block := blockOfQ fun k => mixLane (laneQ b k)

/-- `AESRound(S, K)` (R129). -/
def aesRound (s k : Block) : Block := mixColumns (shiftRows (subBytes s)) ^^^ k

/-- `AESLastRound(S, K)` (R129). -/
def aesLastRound (s k : Block) : Block := shiftRows (subBytes s) ^^^ k

/-! ## Words of the key schedule -/

/-- `SubWord(w)` (R141). -/
def subWord (w : Word) : Word :=
  pack 32 ((List.range 4).map fun i => sbox (w.extractLsb' (8 * i) 8))

/-- `RotWord(w) = (w >> 8) | ((w & 0xff) << 24)` (R141). -/
def rotWord (w : Word) : Word := (w >>> 8) ||| ((w &&& 0xff) <<< 24)

/-! ## Lane operations -/

/-- The two-lane addition modulo `2^64` (R131, R142). -/
def addQ (a b : Block) : Block := blockOfQ fun k => laneQ a k + laneQ b k

/-- The key-schedule helper on lanes `d[1]` and `d[3]` (R134). -/
def aesKeyGenAssist (b : Block) (rcon : Byte) : Block :=
  let x1 := laneD b 1
  let x3 := laneD b 3
  let rc : Word := rcon.setWidth 32
  pack 128 [subWord x1, rotWord (subWord x1) ^^^ rc, subWord x3, rotWord (subWord x3) ^^^ rc]

/-- The shift by four byte positions toward the higher byte index (R135). -/
def shiftLeft4 (b : Block) : Block := b <<< 32

/-- Lane `d[3]` in all four lanes (R136). -/
def broadcast3 (b : Block) : Block := blockOfD fun _ => laneD b 3

end Sys2Proof.Machine
end

