-- ==== Sys2Proof/Machine/Ops.lean ====
section
/-!
DEFINITION. The named operations every command is written with: reading and writing a memory (20_memory.md R60 to
R74), reading and writing registers, completing a command, TAKING A FAULT (60_exceptions.md R262) and the host's
`START`, which is all the return from one that there is (R277, R283).
-/

namespace Sys2Proof.Machine

/-! ## Memories -/

/-- The canonical form of a memory: addresses strictly rising, no entry equal to what an unlisted address reads
as. Equal memories are then equal lists. -/
abbrev Store.wf {w : Nat} (m : Store w) : Prop :=
  m.Pairwise (fun x y => x.1 < y.1) ∧ ∀ x ∈ m, x.2 ≠ Config.unwritten w

/-- The canonical form of the data memory. -/
abbrev Memory.wf (m : Memory) : Prop := Store.wf m

/-- The contents of one location (R62, R68). -/
def Store.read {w : Nat} : Store w → Nat → BitVec w
  | [], _ => Config.unwritten w
  | (b, y) :: m, a => if b = a then y else Store.read m a

/-- A memory with one location replaced, in canonical form again (R62). -/
def Store.write {w : Nat} : Store w → Nat → BitVec w → Store w
  | [], a, x => if x = Config.unwritten w then [] else [(a, x)]
  | (b, y) :: m, a, x =>
    if a < b then (if x = Config.unwritten w then (b, y) :: m else (a, x) :: (b, y) :: m)
    else if a = b then (if x = Config.unwritten w then m else (a, x) :: m)
    else (b, y) :: Store.write m a x

/-- The bytes at `a` to `a + n - 1` (R62). -/
def readBytes (dm : Memory) (a n : Nat) : List Byte :=
  (List.range n).map fun i => dm.read (a + i)

/-- A data memory with the bytes of a list stored from address `a` upward (R62). -/
def writeBytes (dm : Memory) (a : Nat) : List Byte → Memory
  | [] => dm
  | b :: bs => writeBytes (dm.write a b) (a + 1) bs

/-- `MemRead(a, 16)`: little-endian (R62). -/
def readBlock (dm : Memory) (a : Nat) : Block := pack 128 (readBytes dm a 16)

/-- `MemRead(a, 4)`: little-endian (R62). -/
def readWord (dm : Memory) (a : Nat) : Word := pack 32 (readBytes dm a 4)

/-- `MemWrite(a, 16, x)`: little-endian (R62). -/
def writeBlock (dm : Memory) (a : Nat) (x : Block) : Memory := writeBytes dm a (bytesOf 16 x)

/-! ## Registers -/

/-- `v[r]` (R15, R22). -/
def State.getV (s : State) (r : VReg) : Block := s.v[r.toNat]'(r.isLt)

/-- `v[r] <- x`: all 128 bits (R15, R22). -/
def State.setV (s : State) (r : VReg) (x : Block) : State := { s with v := s.v.set r.toNat x r.isLt }

/-- `m[i]` (R15, R34). -/
def State.getM (s : State) (i : MReg) : Matrix := s.m[i.toNat]'(i.isLt)

/-- `m[i] <- x` (R15, R34). -/
def State.setM (s : State) (i : MReg) (x : Matrix) : State := { s with m := s.m.set i.toNat x i.isLt }

/-- `KEY <- k; KSV <- 0`, what `SETKEY` does (R26, R161). -/
def State.setKey (s : State) (k : Block) : State := { s with key := k, ksv := false }

/-- `RK <- ks; KSV <- 1`, what `KEYEXP` does (R26, R163). -/
def State.setSchedule (s : State) (ks : Vector Block 11) : State := { s with rk := ks, ksv := true }

/-- `MODE.HW <- b` (R30). -/
def State.setHw (s : State) (b : Bool) : State := { s with hw := b }

/-- The data memory replaced (R42). -/
def State.setDm (s : State) (dm : Memory) : State := { s with dm := dm }

/-- `cp <- cp + 1` (R28). -/
def State.advance (s : State) : State := { s with cp := s.cp + 1 }

/-- `STATE <- HALTED`; `cp` stays (R38, R241). -/
def State.halt (s : State) : State := { s with st := .halted }

/-! ## Completing a command, taking a fault, resuming -/

/-- A command that completes without a fault, other than `HALT`: its writes, and `cp <- cp + 1` (R28). -/
def complete (s : State) : Host.Outcome State Fault Refusal := .next s.advance

/-- TAKING A FAULT (R262): `STATE`, `CAUSE`, `FCP` and `FINFO` are written and nothing else; `cp` stays. -/
def State.takeFault (s : State) (c : Cause) (info : DWord) : State :=
  { s with st := .faulted, cause := some c, fcp := s.cp, finfo := info }

/-- `raise F(info)` (R15): the step that takes the fault. -/
def raise (c : Cause) (info : DWord) (s : State) : Host.Outcome State Fault Refusal :=
  .next (s.takeFault c info)

/-- The host's `START`: `STATE <- RUN`, `CAUSE <- 0`, nothing else (R277, R283). Execution goes on at `cp`. -/
def State.started (s : State) : State := { s with st := .run, cause := none }

/-- Reset of a machine in any state: every register at its reset value, the memories unchanged (R40, R300). -/
def State.resetNow (s : State) : State := State.afterReset s.cfg s.dm s.cm

/-! ## Block accesses -/

/-- `CheckBlock(EA)`: alignment, then range (R246, R65). -/
def blockFault (s : State) (ea : DWord) : Option Cause :=
  if ea.toNat % 16 ≠ 0 then some .misaligned
  else if s.cfg.memsize < ea.toNat + 16 then some .memAccess
  else none

/-- A block load at `EA` (R232, R233). -/
def loadBlock (rd : VReg) (ea : DWord) (s : State) : Host.Outcome State Fault Refusal :=
  match blockFault s ea with
  | some c => raise c ea s
  | none => complete (s.setV rd (readBlock s.dm ea.toNat))

/-- A block store at `EA` (R234, R235). -/
def storeBlock (rd : VReg) (ea : DWord) (s : State) : Host.Outcome State Fault Refusal :=
  match blockFault s ea with
  | some c => raise c ea s
  | none => complete (s.setDm (writeBlock s.dm ea.toNat (s.getV rd)))

/-! ## Matrices as triples -/

/-- `bit(r, c)`, the entry in row `r` and column `c` (R34); false outside the matrix. -/
def Matrix.bit (x : Matrix) (r c : Nat) : Bool := (x.data.getD r []).getD c false

/-- The matrix `(rows, cols, f)` (R15). -/
def matrixOf (rows cols : Word) (f : Nat → Nat → Bool) : Matrix :=
  { rows := rows
    cols := cols
    data := (List.range rows.toNat).map fun r => (List.range cols.toNat).map fun c => f r c }

/-- What a matrix register can hold (R34): dimensions within `MAXDIM`, both zero or neither, and one bit for
each row and column. -/
abbrev Matrix.wf (maxdim : Nat) (x : Matrix) : Prop :=
  x.rows.toNat ≤ maxdim ∧ x.cols.toNat ≤ maxdim ∧ (x.rows = 0 ↔ x.cols = 0) ∧
  x.data.length = x.rows.toNat ∧ ∀ row ∈ x.data, row.length = x.cols.toNat

/-- `FINFO` of `MatrixEmpty`: the number of the register (R261, R270). -/
def emptyInfo (i : MReg) : DWord := i.setWidth 64

/-! ## Matrix images -/

/-- `rowbytes = ceil(cols / 8)` (R72). -/
def rowBytes (cols : Nat) : Nat := (cols + 7) / 8

/-- `imglen(rows, cols) = 8 + rows * ceil(cols / 8)` (R72). -/
def imgLen (rows cols : Nat) : Nat := 8 + rows * rowBytes cols

/-- Bit `c` of packed row `r` of the image at `ea`, padding bits included (R72). -/
def imageBit (dm : Memory) (ea cols r c : Nat) : Bool :=
  (dm.read (ea + 8 + r * rowBytes cols + c / 8)).getLsbD (c % 8)

/-- `MatRead(ea)` (R73). -/
def matRead (dm : Memory) (ea : Nat) : Matrix :=
  let cols := readWord dm (ea + 4)
  matrixOf (readWord dm ea) cols (imageBit dm ea cols.toNat)

/-- Whether every padding bit of every row is 0: check (d) of R74. -/
def paddingClear (dm : Memory) (ea rows cols : Nat) : Bool :=
  (List.range rows).all fun r =>
    (List.range (8 * rowBytes cols - cols)).all fun k => !imageBit dm ea cols r (cols + k)

/-- Whether the image at `ea` passes checks (a) to (d) of R74. Each check is made only if those before it pass;
all four report the same fault. -/
def imageValid (s : State) (ea : Nat) : Bool :=
  let rows := (readWord s.dm ea).toNat
  let cols := (readWord s.dm (ea + 4)).toNat
  if rows = 0 ∨ cols = 0 then false
  else if s.cfg.maxdim < rows ∨ s.cfg.maxdim < cols then false
  else if s.cfg.memsize < ea + imgLen rows cols then false
  else paddingClear s.dm ea rows cols

/-- Byte `j` of packed row `r` of a matrix: 8 entries, padding bits 0 (R72, R73). -/
def rowByte (x : Matrix) (r j : Nat) : Byte :=
  pack 8 ((List.range 8).map fun k =>
    BitVec.ofBool (decide (8 * j + k < x.cols.toNat) && x.bit r (8 * j + k)))

/-- The image of a matrix: header, then the packed rows (R72). -/
def imageBytes (x : Matrix) : List Byte :=
  bytesOf 4 x.rows ++ bytesOf 4 x.cols ++
    (List.range x.rows.toNat).flatMap fun r => (List.range (rowBytes x.cols.toNat)).map (rowByte x r)

/-- `MatWrite(ea, x)` (R73). -/
def matWrite (dm : Memory) (ea : Nat) (x : Matrix) : Memory := writeBytes dm ea (imageBytes x)

/-- The fault of a matrix load at `EA`, in the order of R236, R237 and R274: alignment (which an absolute address
always passes), header range, image. -/
def matrixLoadFault (s : State) (ea : DWord) : Option Cause :=
  if ea.toNat % 16 ≠ 0 then some .misaligned
  else if s.cfg.memsize < ea.toNat + 8 then some .memAccess
  else if !imageValid s ea.toNat then some .matrixFormat
  else none

/-- A matrix load at `EA` (R236, R237). -/
def loadMatrix (rd : MReg) (ea : DWord) (s : State) : Host.Outcome State Fault Refusal :=
  match matrixLoadFault s ea with
  | some c => raise c ea s
  | none => complete (s.setM rd (matRead s.dm ea.toNat))

/-- The fault of a matrix store at `EA` and its `FINFO`, in the order of R238, R239 and R274: empty register,
alignment (which an absolute address always passes), range. -/
def matrixStoreFault (s : State) (rd : MReg) (ea : DWord) : Option (Cause × DWord) :=
  let x := s.getM rd
  if x.rows = 0 then some (.matrixEmpty, emptyInfo rd)
  else if ea.toNat % 16 ≠ 0 then some (.misaligned, ea)
  else if s.cfg.memsize < ea.toNat + imgLen x.rows.toNat x.cols.toNat then some (.memAccess, ea)
  else none

/-- A matrix store at `EA` (R238, R239). -/
def storeMatrix (rd : MReg) (ea : DWord) (s : State) : Host.Outcome State Fault Refusal :=
  match matrixStoreFault s rd ea with
  | some (c, info) => raise c info s
  | none => complete (s.setDm (matWrite s.dm ea.toNat (s.getM rd)))

end Sys2Proof.Machine
end

