-- ==== Sys2Proof/Machine/AesGen.lean ====
section
/-!
DEFINITION. The AES counter-based generator (41_aes_cbrng.md): key expansion (R162), AES-128 encryption (R165), and
the meanings of `SETKEY`, `KEYEXP`, `AESGEN` and `GETRK`.
-/

namespace Sys2Proof.Machine

/-- `Rcon[1]` to `Rcon[10]` (R162). -/
def rconList : List Byte := [0x01, 0x02, 0x04, 0x08, 0x10, 0x20, 0x40, 0x80, 0x1b, 0x36]

/-- The four words after those of one round key: `w[i] = w[i-4] ^ SubWord(RotWord(w[i-1])) ^ Rcon[i/4]` for the
first, `w[i] = w[i-4] ^ w[i-1]` for the others (R162). -/
def nextRoundKey (rk : Block) (rc : Byte) : Block :=
  let w4 := laneD rk 0 ^^^ subWord (rotWord (laneD rk 3)) ^^^ rc.setWidth 32
  let w5 := laneD rk 1 ^^^ w4
  let w6 := laneD rk 2 ^^^ w5
  let w7 := laneD rk 3 ^^^ w6
  pack 128 [w4, w5, w6, w7]

/-- The round keys from one round key on, one for each round constant left: `rk[j]` is the words `w[4j]` to
`w[4j + 3]` (R162). -/
def roundKeysFrom (rk : Block) : List Byte → List Block
  | [] => [rk]
  | rc :: rcs => rk :: roundKeysFrom (nextRoundKey rk rc) rcs

theorem roundKeysFrom_length (rk : Block) (rcs : List Byte) :
    (roundKeysFrom rk rcs).length = rcs.length + 1 := by
  induction rcs generalizing rk with
  | nil => rfl
  | cons rc rcs ih => simp [roundKeysFrom, ih]

/-- `KeyExpansion(key)`: the eleven round keys, `rk[0] = key` (R162). -/
def keyExpansion (key : Block) : Vector Block 11 :=
  ⟨(roundKeysFrom key rconList).toArray, roundKeysFrom_length key rconList⟩

/-- `AES128(rk, c)`: 1 initial XOR, 9 full rounds, 1 final round without MixColumns (R165). -/
def aes128 (rk : Vector Block 11) (c : Block) : Block :=
  aesLastRound
    ([rk[1], rk[2], rk[3], rk[4], rk[5], rk[6], rk[7], rk[8], rk[9]].foldl aesRound (c ^^^ rk[0]))
    rk[10]

/-- The commands that need the key schedule fault while `KSV = 0` (R26, R266); otherwise they write a result. -/
def withSchedule (rd : VReg) (x : Block) (s : State) : Host.Outcome State Fault Refusal :=
  if s.ksv then complete (s.setV rd x) else raise .keyScheduleInvalid 0 s

/-- `SETKEY` (R161). -/
def execSetkey (ra : VReg) (s : State) : Host.Outcome State Fault Refusal :=
  complete (s.setKey (s.getV ra))

/-- `KEYEXP` (R163). -/
def execKeyexp (s : State) : Host.Outcome State Fault Refusal :=
  complete (s.setSchedule (keyExpansion s.key))

/-- `AESGEN` (R166). -/
def execAesgen (rd ra : VReg) (s : State) : Host.Outcome State Fault Refusal :=
  withSchedule rd (aes128 s.rk (s.getV ra)) s

/-- `RK[i]` for `i` of 0 to 10 (R168). -/
def roundKeyAt (s : State) (i : Nat) (h : i ≤ 10) : Block := s.rk[i]

/-- `GETRK` (R168). An index above 10 is an illegal command, which the decoder never yields; it is one here too
(R100, R263; log 16). -/
def execGetrk (rd : VReg) (i : BitVec 4) (s : State) : Host.Outcome State Fault Refusal :=
  if h : i.toNat ≤ 10 then withSchedule rd (roundKeyAt s i.toNat h) s
  else raise .illegalCommand ((encode (.getrk rd i)).setWidth 64) s

end Sys2Proof.Machine
end

