-- ==== Sys2Proof/Machine/Ars.lean ====
section
/-!
DEFINITION. The ARS counter-based generator (42_ars_cbrng.md): the Weyl increment (R180), the function (R182) and the
meaning of `ARSGEN` (R181).
-/

namespace Sys2Proof.Machine

/-- `WEYL`, with `q[0] = W0` and `q[1] = W1` (R180). -/
def weyl : Block := 0xbb67ae8584caa73b9e3779b97f4a7c15

/-- `n` full rounds from running key `kk` and state `s`: the key advances, then the round (R182). -/
def arsRounds : Nat → Block → Block → Block × Block
  | 0, kk, s => (kk, s)
  | n + 1, kk, s => arsRounds n (addQ kk weyl) (aesRound s (addQ kk weyl))

/-- `ARS(key, c, R)`, for `R ≥ 1` (R182). -/
def ars (key c : Block) (r : Nat) : Block :=
  let p := arsRounds (r - 1) key (c ^^^ key)
  aesLastRound p.2 (addQ p.1 weyl)

/-- `ARSGEN` (R181). `R = 0` is an illegal command, which the decoder never yields; it is one here too (R100,
R263; log 16). -/
def execArsgen (rd ra : VReg) (r : Byte) (s : State) : Host.Outcome State Fault Refusal :=
  if r = 0 then raise .illegalCommand ((encode (.arsgen rd ra r)).setWidth 64) s
  else complete (s.setV rd (ars s.key (s.getV ra) r.toNat))

end Sys2Proof.Machine
end

