-- ==== Sys2Proof/Machine/Block.lean ====
section
/-!
DEFINITION. The meanings of the block primitives (40_block_primitives.md R130 to R140). Each writes its destination
block register and `cp` and nothing else, and raises no fault of its own (R144). Sources are read from the state
before the command (30_encoding.md R103).
-/

namespace Sys2Proof.Machine

/-- What every command of this family does with its result: `v[rd] <- x; cp <- cp + 1` (R144). -/
def writeBlockResult (rd : VReg) (x : Block) (s : State) : Host.Outcome State Fault Refusal :=
  complete (s.setV rd x)

/-- `XOR` (R130). -/
def execXor (rd ra rb : VReg) (s : State) : Host.Outcome State Fault Refusal :=
  writeBlockResult rd (s.getV ra ^^^ s.getV rb) s

/-- `ADDQ` (R131). -/
def execAddq (rd ra rb : VReg) (s : State) : Host.Outcome State Fault Refusal :=
  writeBlockResult rd (addQ (s.getV ra) (s.getV rb)) s

/-- `AESENC` (R132). -/
def execAesenc (rd ra rb : VReg) (s : State) : Host.Outcome State Fault Refusal :=
  writeBlockResult rd (aesRound (s.getV ra) (s.getV rb)) s

/-- `AESENCLAST` (R133). -/
def execAesenclast (rd ra rb : VReg) (s : State) : Host.Outcome State Fault Refusal :=
  writeBlockResult rd (aesLastRound (s.getV ra) (s.getV rb)) s

/-- `AESKGA` (R134). -/
def execAeskga (rd ra : VReg) (rcon : Byte) (s : State) : Host.Outcome State Fault Refusal :=
  writeBlockResult rd (aesKeyGenAssist (s.getV ra) rcon) s

/-- `SLLDQ4` (R135). -/
def execSlldq4 (rd ra : VReg) (s : State) : Host.Outcome State Fault Refusal :=
  writeBlockResult rd (shiftLeft4 (s.getV ra)) s

/-- `BCAST3` (R136). -/
def execBcast3 (rd ra : VReg) (s : State) : Host.Outcome State Fault Refusal :=
  writeBlockResult rd (broadcast3 (s.getV ra)) s

/-- `MOV` (R137). -/
def execMov (rd ra : VReg) (s : State) : Host.Outcome State Fault Refusal :=
  writeBlockResult rd (s.getV ra) s

/-- `SUBB` (R138). -/
def execSubb (rd ra : VReg) (s : State) : Host.Outcome State Fault Refusal :=
  writeBlockResult rd (subBytes (s.getV ra)) s

/-- `SHROW` (R139). -/
def execShrow (rd ra : VReg) (s : State) : Host.Outcome State Fault Refusal :=
  writeBlockResult rd (shiftRows (s.getV ra)) s

/-- `MIXC` (R140). -/
def execMixc (rd ra : VReg) (s : State) : Host.Outcome State Fault Refusal :=
  writeBlockResult rd (mixColumns (s.getV ra)) s

end Sys2Proof.Machine
end

