-- ==== Sys2Proof/Machine/Gf2.lean ====
section
/-!
DEFINITION. The GF(2) matrix unit (43_gf2_matrix.md): the algebra (R190 to R194), the exponent (R198) and the meanings
of `GMUL`, `GAPPLY`, `GPOW` and `GDIM`.
-/

namespace Sys2Proof.Machine

/-! ## The algebra -/

/-- `XOR over k = 0 .. n-1 of f(k)` (R191, R194). -/
def xorSum : Nat → (Nat → Bool) → Bool
  | 0, _ => false
  | n + 1, f => xorSum n f ^^ f n

/-- `MatMul(A, B)` (R191). -/
def matMul (a b : Matrix) : Matrix :=
  matrixOf a.rows b.cols fun r c => xorSum a.cols.toNat fun k => a.bit r k && b.bit k c

/-- `Ident(n)` (R192). -/
def matIdent (n : Word) : Matrix := matrixOf n n fun r c => decide (r = c)

/-- `MatPow(S, e)` by the recursion of R192, for `e < 2^fuel`. -/
def matPowFuel (x : Matrix) : Nat → Nat → Matrix
  | 0, _ => matIdent x.rows
  | fuel + 1, e =>
    if e = 0 then matIdent x.rows
    else
      let y := matPowFuel x fuel (e / 2)
      if e % 2 = 0 then matMul y y else matMul (matMul y y) x

/-- `MatPow(S, e)` for every exponent `GPOW` can have, `e ≤ 2^63` (R192, R198). -/
def matPow (x : Matrix) (e : Nat) : Matrix := matPowFuel x 64 e

/-- `MatApply(A, x)`, `x` in row-vector form (R193, R194). -/
def matApply (a x : Matrix) : Matrix :=
  matrixOf 1 a.rows fun _ r => xorSum a.cols.toNat fun c => a.bit r c && x.bit 0 c

/-! ## The meanings -/

/-- The fault of a product or an application whose operand `ma` or `mb` is empty, or whose shapes are unfit, and
its `FINFO`: `ma` before `mb` before the shapes (R274). -/
def operandFault (s : State) (ra rb : MReg) (fit : Bool) : Option (Cause × DWord) :=
  if (s.getM ra).rows = 0 then some (.matrixEmpty, emptyInfo ra)
  else if (s.getM rb).rows = 0 then some (.matrixEmpty, emptyInfo rb)
  else if !fit then some (.dimMismatch, 0)
  else none

/-- `GMUL` (R196). -/
def execGmul (rd ra rb : MReg) (s : State) : Host.Outcome State Fault Refusal :=
  match operandFault s ra rb (decide ((s.getM ra).cols = (s.getM rb).rows)) with
  | some (c, info) => raise c info s
  | none => complete (s.setM rd (matMul (s.getM ra) (s.getM rb)))

/-- `GAPPLY` (R197). -/
def execGapply (rd ra rb : MReg) (s : State) : Host.Outcome State Fault Refusal :=
  match operandFault s ra rb
      (decide ((s.getM rb).rows = 1 ∧ (s.getM rb).cols = (s.getM ra).cols)) with
  | some (c, info) => raise c info s
  | none => complete (s.setM rd (matApply (s.getM ra) (s.getM rb)))

/-- The source `GPOW` selects: `ma` when `p ≥ 0`, `mb` when `p < 0` (R199). -/
def powSource (p : Int) (ra rb : MReg) : MReg := if 0 ≤ p then ra else rb

/-- `GPOW` (R199): only the selected source is read and checked. The magnitude of the exponent is taken as a
mathematical integer (R198). -/
def execGpow (rd ra rb : MReg) (rc : VReg) (s : State) : Host.Outcome State Fault Refusal :=
  let p := exponentOf (s.getV rc)
  let src := powSource p ra rb
  let x := s.getM src
  if x.rows = 0 then raise .matrixEmpty (emptyInfo src) s
  else if x.rows ≠ x.cols then raise .dimMismatch 0 s
  else complete (s.setM rd (matPow x p.natAbs))

/-- `GDIM` (R201): an empty source reads as `rows = 0`, `cols = 0`. -/
def execGdim (rd : VReg) (ra : MReg) (s : State) : Host.Outcome State Fault Refusal :=
  complete (s.setV rd (pack 128 [(s.getM ra).rows, (s.getM ra).cols, 0, 0]))

end Sys2Proof.Machine
end

