-- ==== Sys2Proof/Machine/MemSys.lean ====
section
/-!
DEFINITION. The meanings of the load, store and matrix transfer commands (44_memory_system.md R232 to R239), and the
data memory bytes each writes (20_memory.md R66).
-/

namespace Sys2Proof.Machine

/-- `LDB` (R232). -/
def execLdb (rd : VReg) (imm20 : BitVec 20) (s : State) : Host.Outcome State Fault Refusal :=
  loadBlock rd (absoluteEA imm20) s

/-- `LDBX` (R233). -/
def execLdbx (rd ra : VReg) (imm12 : BitVec 12) (s : State) : Host.Outcome State Fault Refusal :=
  loadBlock rd (indexedEA (s.getV ra) imm12) s

/-- `STB` (R234): `rd` names the register stored. -/
def execStb (rd : VReg) (imm20 : BitVec 20) (s : State) : Host.Outcome State Fault Refusal :=
  storeBlock rd (absoluteEA imm20) s

/-- `STBX` (R235): `rd` names the register stored. -/
def execStbx (rd ra : VReg) (imm12 : BitVec 12) (s : State) : Host.Outcome State Fault Refusal :=
  storeBlock rd (indexedEA (s.getV ra) imm12) s

/-- `GLD` (R236). -/
def execGld (rd : MReg) (imm20 : BitVec 20) (s : State) : Host.Outcome State Fault Refusal :=
  loadMatrix rd (absoluteEA imm20) s

/-- `GLDX` (R237). -/
def execGldx (rd : MReg) (ra : VReg) (imm12 : BitVec 12) (s : State) :
    Host.Outcome State Fault Refusal :=
  loadMatrix rd (indexedEA (s.getV ra) imm12) s

/-- `GST` (R238): `rd` names the register stored. -/
def execGst (rd : MReg) (imm20 : BitVec 20) (s : State) : Host.Outcome State Fault Refusal :=
  storeMatrix rd (absoluteEA imm20) s

/-- `GSTX` (R239): `rd` names the register stored. -/
def execGstx (rd : MReg) (ra : VReg) (imm12 : BitVec 12) (s : State) :
    Host.Outcome State Fault Refusal :=
  storeMatrix rd (indexedEA (s.getV ra) imm12) s

/-! ## The write set -/

/-- The bytes a block store writes: first address and count, no byte where it faults (R66, R67). -/
def blockWriteSet (s : State) (ea : DWord) : Nat × Nat :=
  match blockFault s ea with
  | some _ => (0, 0)
  | none => (ea.toNat, 16)

/-- The bytes a matrix store writes (R66, R67, R238). -/
def matrixWriteSet (s : State) (rd : MReg) (ea : DWord) : Nat × Nat :=
  match matrixStoreFault s rd ea with
  | some _ => (0, 0)
  | none => (ea.toNat, imgLen (s.getM rd).rows.toNat (s.getM rd).cols.toNat)

/-- The data memory bytes a command writes, as first address and count: the four store commands, and nothing for
any other (R42, R66). -/
def writeSet (i : Instr) (s : State) : Nat × Nat :=
  match i with
  | .stb _ imm20 => blockWriteSet s (absoluteEA imm20)
  | .stbx _ ra imm12 => blockWriteSet s (indexedEA (s.getV ra) imm12)
  | .gst rd imm20 => matrixWriteSet s rd (absoluteEA imm20)
  | .gstx rd ra imm12 => matrixWriteSet s rd (indexedEA (s.getV ra) imm12)
  | .nop | .halt | .sethw _ _ | .getst _ => (0, 0)
  | .xor _ _ _ | .addq _ _ _ | .aesenc _ _ _ | .aesenclast _ _ _ | .aeskga _ _ _ => (0, 0)
  | .slldq4 _ _ | .bcast3 _ _ | .mov _ _ | .subb _ _ | .shrow _ _ | .mixc _ _ => (0, 0)
  | .setkey _ | .keyexp | .aesgen _ _ | .getrk _ _ | .arsgen _ _ _ => (0, 0)
  | .gmul _ _ _ | .gapply _ _ _ | .gpow _ _ _ _ | .gdim _ _ => (0, 0)
  | .ldb _ _ | .ldbx _ _ _ | .gld _ _ | .gldx _ _ _ => (0, 0)

end Sys2Proof.Machine
end

