-- ==== Sys2Proof/Machine/Flags.lean ====
section
/-!
DEFINITION. The machine has no condition codes and no command sets a flag as a side effect of arithmetic (10_state.md
R32). Its one-bit state is `KSV` and `MODE.HW`; this file holds the words in which they, `HWCAP`, `STATE` and
`CAUSE` are read: `GETST` (44_memory_system.md R244), the host's `STATUS` and `CAUSE` (R37), and the outputs (R276).
-/

namespace Sys2Proof.Machine

/-- The code of `STATE` (R38). -/
def stateCode : SeqState → BitVec 2
  | .idle => 0
  | .run => 1
  | .halted => 2
  | .faulted => 3

/-- The code of a cause (R261). -/
def causeCode : Cause → BitVec 4
  | .illegalCommand => 1
  | .configurationError => 2
  | .keyScheduleInvalid => 3
  | .memAccess => 4
  | .misaligned => 5
  | .matrixFormat => 6
  | .dimMismatch => 7
  | .matrixEmpty => 8
  | .commandFetch => 9

/-- `CAUSE[3:0]`: 0 when no fault has been taken since reset or `START` (R39, R261). -/
def causeField : Option Cause → BitVec 4
  | none => 0
  | some c => causeCode c

/-- What `GETST` reads: `KSV ++ HWCAP ++ MODE.HW`, zero-extended (R244). -/
def flagsBlock (s : State) : Block :=
  pack 128 [BitVec.ofBool s.hw, BitVec.ofBool s.cfg.hwcap, BitVec.ofBool s.ksv]

/-- `STATUS`: bits 1:0 `STATE`, bit 4 `HW`, bit 5 `HWCAP`, bit 6 `KSV`, others 0 (R37). -/
def statusWord (s : State) : Word :=
  pack 32 [(stateCode s.st).setWidth 4,
    pack 4 [BitVec.ofBool s.hw, BitVec.ofBool s.cfg.hwcap, BitVec.ofBool s.ksv]]

/-- The output `done`: 1 exactly while `STATE = HALTED` (R276). -/
def doneOutput (s : State) : Bool := decide (s.st = .halted)

/-- The output `fault`: 1 exactly while `STATE = FAULTED` (R276). -/
def faultOutput (s : State) : Bool := decide (s.st = .faulted)

end Sys2Proof.Machine
end

