-- ==== Sys2Proof/Machine/System.lean ====
section
/-!
DEFINITION. The meanings of the system commands (44_memory_system.md R240 to R244). There is one privilege level, so
none of them is refused for lack of privilege (60_exceptions.md R285).
-/

namespace Sys2Proof.Machine

/-- `NOP` (R240). -/
def execNop (s : State) : Host.Outcome State Fault Refusal := complete s

/-- `HALT` (R241): `cp` stays and points at the `HALT`. -/
def execHalt (s : State) : Host.Outcome State Fault Refusal := .next s.halt

/-- `SETHW` (R243): returns the previous mode; asking for the hardware path on an instance without it faults. -/
def execSethw (rd : VReg) (mode : Bool) (s : State) : Host.Outcome State Fault Refusal :=
  if mode && !s.cfg.hwcap then raise .configurationError 0 s
  else complete ((s.setV rd ((BitVec.ofBool s.hw).setWidth 128)).setHw mode)

/-- `GETST` (R244). -/
def execGetst (rd : VReg) (s : State) : Host.Outcome State Fault Refusal :=
  complete (s.setV rd (flagsBlock s))

end Sys2Proof.Machine
end

