-- ==== Sys2Proof/Machine/Dispatch.lean ====
section
/-!
DEFINITION. The meaning of each command, one arm per constructor of `Instr` (30_encoding.md R97).
-/

namespace Sys2Proof.Machine

def exec (i : Instr) (s : State) : Host.Outcome State Fault Refusal :=
  match i with
  | .nop => Sys2Proof.Machine.execNop s
  | .halt => Sys2Proof.Machine.execHalt s
  | .sethw rd mode => Sys2Proof.Machine.execSethw rd mode s
  | .getst rd => Sys2Proof.Machine.execGetst rd s
  | .xor rd ra rb => Sys2Proof.Machine.execXor rd ra rb s
  | .addq rd ra rb => Sys2Proof.Machine.execAddq rd ra rb s
  | .aesenc rd ra rb => Sys2Proof.Machine.execAesenc rd ra rb s
  | .aesenclast rd ra rb => Sys2Proof.Machine.execAesenclast rd ra rb s
  | .aeskga rd ra rcon => Sys2Proof.Machine.execAeskga rd ra rcon s
  | .slldq4 rd ra => Sys2Proof.Machine.execSlldq4 rd ra s
  | .bcast3 rd ra => Sys2Proof.Machine.execBcast3 rd ra s
  | .mov rd ra => Sys2Proof.Machine.execMov rd ra s
  | .subb rd ra => Sys2Proof.Machine.execSubb rd ra s
  | .shrow rd ra => Sys2Proof.Machine.execShrow rd ra s
  | .mixc rd ra => Sys2Proof.Machine.execMixc rd ra s
  | .setkey ra => Sys2Proof.Machine.execSetkey ra s
  | .keyexp => Sys2Proof.Machine.execKeyexp s
  | .aesgen rd ra => Sys2Proof.Machine.execAesgen rd ra s
  | .getrk rd k => Sys2Proof.Machine.execGetrk rd k s
  | .arsgen rd ra r => Sys2Proof.Machine.execArsgen rd ra r s
  | .gmul rd ra rb => Sys2Proof.Machine.execGmul rd ra rb s
  | .gapply rd ra rb => Sys2Proof.Machine.execGapply rd ra rb s
  | .gpow rd ra rb rc => Sys2Proof.Machine.execGpow rd ra rb rc s
  | .gdim rd ra => Sys2Proof.Machine.execGdim rd ra s
  | .ldb rd imm20 => Sys2Proof.Machine.execLdb rd imm20 s
  | .ldbx rd ra imm12 => Sys2Proof.Machine.execLdbx rd ra imm12 s
  | .stb rd imm20 => Sys2Proof.Machine.execStb rd imm20 s
  | .stbx rd ra imm12 => Sys2Proof.Machine.execStbx rd ra imm12 s
  | .gld rd imm20 => Sys2Proof.Machine.execGld rd imm20 s
  | .gldx rd ra imm12 => Sys2Proof.Machine.execGldx rd ra imm12 s
  | .gst rd imm20 => Sys2Proof.Machine.execGst rd imm20 s
  | .gstx rd ra imm12 => Sys2Proof.Machine.execGstx rd ra imm12 s

end Sys2Proof.Machine
end

