-- ==== Sys2Proof/Machine/Fetch.lean ====
section
/-!
DEFINITION. One command of a running sequencer: fetch, decode, execute (70_reset_and_hazards.md R310), with the two
faults that every command can raise, in their order (60_exceptions.md R274).
-/

namespace Sys2Proof.Machine

/-- `CmdFetch(cp)`: the word at `cp`, if there is one (R15, R27, R264). -/
def fetchWord (s : State) : Option Word :=
  if s.cp.toNat < s.cfg.cmsize then some (s.cm.read s.cp.toNat) else none

/-- A fetched word is decoded and executed, or raises `IllegalCommand` with the word as `FINFO` (R263). -/
def executeWord (w : Word) (s : State) : Host.Outcome State Fault Refusal :=
  match decode w with
  | .ok i => exec i s
  | .error _ => raise .illegalCommand (w.setWidth 64) s

/-- One command of a running sequencer. A fetch at `cp ≥ CMSIZE` raises `CommandFetch` with `FINFO = cp` (R264). -/
def runCommand (s : State) : Host.Outcome State Fault Refusal :=
  match fetchWord s with
  | some w => executeWord w s
  | none => raise .commandFetch (s.cp.setWidth 64) s

/-- Storing a command word and starting the sequencer, as a host does before a program runs (R282, R283). -/
def placeCommand (s : State) (w : Word) : State :=
  let t := if s.st = .run then s else s.started
  { t with cm := t.cm.write t.cp.toNat w }

end Sys2Proof.Machine
end

