-- ==== Sys2Proof/Machine/Step.lean ====
section
/-!
DEFINITION. The step (70_reset_and_hazards.md R310) and where it fetches.
-/

namespace Sys2Proof.Machine

/-- While `STATE = RUN` a step is one command, whole (R310). A stopped sequencer does nothing until the host acts
(60_exceptions.md R286; log 5). -/
def step (s : State) : Host.Outcome State Fault Refusal :=
  match s.st with
  | .run => runCommand s
  | .idle => .next s
  | .halted => .next s
  | .faulted => .next s

/-- The state with the given word stored at `CM[cp]` and the sequencer running, as after the host's writes of `CM`
and `START` (log 3). -/
def State.withFetchWord (s : State) (nbits w : Nat) : State :=
  placeCommand s (BitVec.ofNat 32 (w % 2 ^ nbits))

end Sys2Proof.Machine
end

