-- ==== Sys2Proof/Machine/Assembler.lean ====
section
/-!
DEFINITION. The assembler syntax of the spec's listings (30_encoding.md R105), as a printer, and the pseudo-commands
(R106). Nothing in the core depends on either (log 10).
-/

namespace Sys2Proof.Machine

/-! ## Pseudo-commands -/

/-- `ADDRK vd, va, vb` is `XOR vd, va, vb` (R106). -/
def pseudoAddrk (vd va vb : VReg) : Instr := .xor vd va vb

/-- `ARSGEN vd, va` with the round count omitted is `ARSGEN vd, va, 7` (R106). -/
def pseudoArsgen (vd va : VReg) : Instr := .arsgen vd va 7

/-- `ARS5 vd, va` is `ARSGEN vd, va, 5` (R106). -/
def pseudoArs5 (vd va : VReg) : Instr := .arsgen vd va 5

/-- `GSQR md, ma` is `GMUL md, ma, ma` (R106). -/
def pseudoGsqr (md ma : MReg) : Instr := .gmul md ma ma

/-- `CLR vd` is `XOR vd, vd, vd` (R106). -/
def pseudoClr (vd : VReg) : Instr := .xor vd vd vd

/-! ## Listings -/

/-- A block register: `v0` to `v15`. -/
def asmV (r : VReg) : String := "v" ++ toString r.toNat

/-- A matrix register: `m0` to `m3`. -/
def asmM (r : MReg) : String := "m" ++ toString r.toNat

/-- An absolute address, as the byte address. -/
def asmAbs (imm20 : BitVec 20) : String := toString (imm20.toNat * 16)

/-- An indexed operand `disp(va)`, the displacement in bytes. -/
def asmIdx (ra : VReg) (imm12 : BitVec 12) : String := toString (imm12.toInt * 16) ++ "(" ++ asmV ra ++ ")"

/-- The mnemonic of a command (R97). -/
def asmMnemonic : Instr → String
  | .nop => "NOP"
  | .halt => "HALT"
  | .sethw _ _ => "SETHW"
  | .getst _ => "GETST"
  | .xor _ _ _ => "XOR"
  | .addq _ _ _ => "ADDQ"
  | .aesenc _ _ _ => "AESENC"
  | .aesenclast _ _ _ => "AESENCLAST"
  | .aeskga _ _ _ => "AESKGA"
  | .slldq4 _ _ => "SLLDQ4"
  | .bcast3 _ _ => "BCAST3"
  | .mov _ _ => "MOV"
  | .subb _ _ => "SUBB"
  | .shrow _ _ => "SHROW"
  | .mixc _ _ => "MIXC"
  | .setkey _ => "SETKEY"
  | .keyexp => "KEYEXP"
  | .aesgen _ _ => "AESGEN"
  | .getrk _ _ => "GETRK"
  | .arsgen _ _ _ => "ARSGEN"
  | .gmul _ _ _ => "GMUL"
  | .gapply _ _ _ => "GAPPLY"
  | .gpow _ _ _ _ => "GPOW"
  | .gdim _ _ => "GDIM"
  | .ldb _ _ => "LDB"
  | .ldbx _ _ _ => "LDBX"
  | .stb _ _ => "STB"
  | .stbx _ _ _ => "STBX"
  | .gld _ _ => "GLD"
  | .gldx _ _ _ => "GLDX"
  | .gst _ _ => "GST"
  | .gstx _ _ _ => "GSTX"

/-- The operands of a command as the listings write them, destination first, immediates decimal (R105). -/
def asmOperands : Instr → List String
  | .nop => []
  | .halt => []
  | .sethw rd mode => [asmV rd, toString mode.toNat]
  | .getst rd => [asmV rd]
  | .xor rd ra rb => [asmV rd, asmV ra, asmV rb]
  | .addq rd ra rb => [asmV rd, asmV ra, asmV rb]
  | .aesenc rd ra rb => [asmV rd, asmV ra, asmV rb]
  | .aesenclast rd ra rb => [asmV rd, asmV ra, asmV rb]
  | .aeskga rd ra rcon => [asmV rd, asmV ra, toString rcon.toNat]
  | .slldq4 rd ra => [asmV rd, asmV ra]
  | .bcast3 rd ra => [asmV rd, asmV ra]
  | .mov rd ra => [asmV rd, asmV ra]
  | .subb rd ra => [asmV rd, asmV ra]
  | .shrow rd ra => [asmV rd, asmV ra]
  | .mixc rd ra => [asmV rd, asmV ra]
  | .setkey ra => [asmV ra]
  | .keyexp => []
  | .aesgen rd ra => [asmV rd, asmV ra]
  | .getrk rd i => [asmV rd, toString i.toNat]
  | .arsgen rd ra r => [asmV rd, asmV ra, toString r.toNat]
  | .gmul rd ra rb => [asmM rd, asmM ra, asmM rb]
  | .gapply rd ra rb => [asmM rd, asmM ra, asmM rb]
  | .gpow rd ra rb rc => [asmM rd, asmM ra, asmM rb, asmV rc]
  | .gdim rd ra => [asmV rd, asmM ra]
  | .ldb rd imm20 => [asmV rd, asmAbs imm20]
  | .ldbx rd ra imm12 => [asmV rd, asmIdx ra imm12]
  | .stb rd imm20 => [asmV rd, asmAbs imm20]
  | .stbx rd ra imm12 => [asmV rd, asmIdx ra imm12]
  | .gld rd imm20 => [asmM rd, asmAbs imm20]
  | .gldx rd ra imm12 => [asmM rd, asmIdx ra imm12]
  | .gst rd imm20 => [asmM rd, asmAbs imm20]
  | .gstx rd ra imm12 => [asmM rd, asmIdx ra imm12]

/-- A command as the listings write it: the mnemonic, then the operands separated by commas (R105). -/
def asmText (i : Instr) : String :=
  if asmOperands i = [] then asmMnemonic i
  else asmMnemonic i ++ " " ++ ", ".intercalate (asmOperands i)

end Sys2Proof.Machine
end

