-- ==== Sys2Proof/Machine/HostPort.lean ====
section
/-!
DEFINITION. The second agent: what the host can do to an instance (60_exceptions.md R280 to R283, 10_state.md R37 to
R40) and what it can read. Each action is a primitive operation between two steps (R282; logs 4, 12); the one that can
cut a step is a reset (70_reset_and_hazards.md R301). The host reaches no block, matrix or key register (R281): no
action below names one.
-/

namespace Sys2Proof.Machine

/-- The registers of the host interface (R37). -/
inductive HostReg where
  /-- `CTRL`, write only. -/
  | ctrl
  /-- `STATUS`, read only. -/
  | status
  /-- `CAUSE`, read only. -/
  | cause
  /-- `CP`. -/
  | cp
  /-- `FCP`, read only. -/
  | fcp
  /-- The low word of `FINFO`, read only. -/
  | finfoLow
  /-- The high word of `FINFO`, read only. -/
  | finfoHigh
  deriving DecidableEq, Repr

/-- The register at an offset, if R37 lists one there. -/
def hostRegAt (offset : Nat) : Option HostReg :=
  match offset with
  | 0x00 => some .ctrl
  | 0x04 => some .status
  | 0x08 => some .cause
  | 0x0C => some .cp
  | 0x10 => some .fcp
  | 0x18 => some .finfoLow
  | 0x1C => some .finfoHigh
  | _ => none

/-! ## Reads -/

/-- The value of a host register. `CTRL` reads as zero (R37). A read changes nothing (R247). `CP` while the
sequencer runs is the current `cp` (R280; log 8). -/
def hostRegValue (s : State) : HostReg → Word
  | .ctrl => 0
  | .status => statusWord s
  | .cause => (causeField s.cause).setWidth 32
  | .cp => s.cp
  | .fcp => s.fcp
  | .finfoLow => s.finfo.extractLsb' 0 32
  | .finfoHigh => s.finfo.extractLsb' 32 32

/-- A host read of a register, allowed in any `STATE` (R280). -/
def hostReadReg (offset : Nat) (s : State) : Host.Outcome Word Fault Refusal :=
  match hostRegAt offset with
  | some r => .next (hostRegValue s r)
  | none => .fault (.noSuchHostRegister offset)

/-- A host read of `DM[a]`: refused while `STATE = RUN` (R280). -/
def hostReadDm (a : Nat) (s : State) : Host.Outcome Byte Fault Refusal :=
  if s.st = .run then .refused .hostReadWhileRunning
  else if a < s.cfg.memsize then .next (s.dm.read a)
  else .fault (.noSuchLocation a)

/-- A host read of `CM[i]`: refused while `STATE = RUN` (R280). -/
def hostReadCm (i : Nat) (s : State) : Host.Outcome Word Fault Refusal :=
  if s.st = .run then .refused .hostReadWhileRunning
  else if i < s.cfg.cmsize then .next (s.cm.read i)
  else .fault (.noSuchLocation i)

/-! ## Actions -/

/-- What the host, or the reset input, can do to an instance. -/
inductive HostAction where
  /-- The reset input, between two commands (R300). -/
  | resetInput
  /-- A reset, by the input or by `CTRL.RESET`, in the middle of the command at `cp`: the bytes that command was
  going to write are unspecified (R301), so they become whatever `bytes` says, those it does not list keeping their
  value. -/
  | resetMidCommand (bytes : List Byte)
  /-- A write of a host register (R37). -/
  | writeReg (offset : Nat) (w : Word)
  /-- A write of `DM[a]` (R280, R282). -/
  | writeDm (a : Nat) (b : Byte)
  /-- A write of `CM[i]` (R280, R282). -/
  | writeCm (i : Nat) (w : Word)
  deriving DecidableEq, Repr

/-- A write of `CTRL`: ignored as a whole when a reserved bit is set (R37); `RESET` wins over `START` (R40); `START`
is ignored while the sequencer runs (R38, R283). -/
def writeCtrl (w : Word) (s : State) : State :=
  if w.extractLsb' 2 30 ≠ 0 then s
  else if w.getLsbD 1 then s.resetNow
  else if w.getLsbD 0 && decide (s.st ≠ .run) then s.started
  else s

/-- A write of a host register. `CP` is writable while the sequencer does not run (R37, R282); a write of a read-only
register has no effect (log 7). -/
def hostWriteReg (r : HostReg) (w : Word) (s : State) : State :=
  match r with
  | .ctrl => writeCtrl w s
  | .cp => if s.st = .run then s else { s with cp := w }
  | .status => s
  | .cause => s
  | .fcp => s
  | .finfoLow => s
  | .finfoHigh => s

/-- The data memory after the command at `cp` was cut by a reset: the bytes of its write set replaced (R301). -/
def cutMemory (bytes : List Byte) (s : State) : Memory :=
  match fetchWord s with
  | none => s.dm
  | some w =>
    match decode w with
    | .error _ => s.dm
    | .ok i =>
      let ws := writeSet i s
      writeBytes s.dm ws.1 ((List.range ws.2).map fun k => bytes.getD k (s.dm.read (ws.1 + k)))

/-- A reset in the middle of a command (R300, R301). A sequencer that does not run has no command to cut. -/
def resetCutting (bytes : List Byte) (s : State) : State :=
  if s.st = .run then State.afterReset s.cfg (cutMemory bytes s) s.cm else s.resetNow

/-- An action of the host. While `STATE = RUN` its writes to `CP`, `DM`, `CM` and `CTRL.START` are ignored (R280). -/
def hostAct (a : HostAction) (s : State) : Host.Outcome State Fault Refusal :=
  match a with
  | .resetInput => .next s.resetNow
  | .resetMidCommand bytes => .next (resetCutting bytes s)
  | .writeReg offset w =>
    match hostRegAt offset with
    | some r => .next (hostWriteReg r w s)
    | none => .fault (.noSuchHostRegister offset)
  | .writeDm a b =>
    if s.st = .run then .next s
    else if a < s.cfg.memsize then .next (s.setDm (s.dm.write a b))
    else .fault (.noSuchLocation a)
  | .writeCm i w =>
    if s.st = .run then .next s
    else if i < s.cfg.cmsize then .next { s with cm := s.cm.write i w }
    else .fault (.noSuchLocation i)

/-- The write of `CTRL` that starts the sequencer (R283). -/
def startAction : HostAction := .writeReg 0x00 0x1

/-- The write of `CTRL` that resets the instance (R40). -/
def resetAction : HostAction := .writeReg 0x00 0x2

/-- The write of `CP` (R282). -/
def cpAction (w : Word) : HostAction := .writeReg 0x0C w

/-- Several actions in order, up to the first that is turned away. -/
def hostActs : List HostAction → State → Host.Outcome State Fault Refusal
  | [], s => .next s
  | a :: as, s =>
    match hostAct a s with
    | .next t => hostActs as t
    | .fault f => .fault f
    | .refused r => .refused r

/-- The three restarts after a fault (R278): retry. -/
def retryActions : List HostAction := [startAction]

/-- Skip the command that faulted: `CP <- FCP + 1`, then `START` (R278). -/
def skipActions (s : State) : List HostAction := [cpAction (s.fcp + 1), startAction]

/-- Abandon the program for another at `cp` (R278). -/
def abandonActions (cp : Word) : List HostAction := [cpAction cp, startAction]

end Sys2Proof.Machine
end

