-- ==== Sys2Proof/Safety.lean ====
section
/-!
DEFINITION. What the statements are said in: what a step changes and what it leaves alone, the invariant of the
machine, and the states that an instance and its host can reach.
-/

namespace Sys2Proof.Safety

open Sys2Proof.Machine

/-! ## Frames -/

/-- Every block register reads as before. -/
def KeepsBlocks (s t : State) : Prop := ∀ r, t.getV r = s.getV r

/-- Every block register but `rd` reads as before. -/
def KeepsBlocksBut (rd : VReg) (s t : State) : Prop := ∀ r, r ≠ rd → t.getV r = s.getV r

/-- Every matrix register reads as before. -/
def KeepsMatrices (s t : State) : Prop := ∀ i, t.getM i = s.getM i

/-- Every matrix register but `rd` reads as before. -/
def KeepsMatricesBut (rd : MReg) (s t : State) : Prop := ∀ i, i ≠ rd → t.getM i = s.getM i

/-- `KEY`, `RK0` to `RK10` and `KSV` are as before. -/
def KeepsKeys (s t : State) : Prop := t.key = s.key ∧ t.rk = s.rk ∧ t.ksv = s.ksv

/-- Every byte of the data memory reads as before. -/
def KeepsMemory (s t : State) : Prop := ∀ a, t.dm.read a = s.dm.read a

/-- Every byte of the data memory outside `lo` to `lo + n - 1` reads as before. -/
def KeepsMemoryOutside (lo n : Nat) (s t : State) : Prop :=
  ∀ a, a < lo ∨ lo + n ≤ a → t.dm.read a = s.dm.read a

/-- `STATE`, `CAUSE`, `FCP`, `FINFO` are as before. -/
def KeepsRunState (s t : State) : Prop :=
  t.st = s.st ∧ t.cause = s.cause ∧ t.fcp = s.fcp ∧ t.finfo = s.finfo

/-- The parameters of the instance and its command memory are as before. -/
def KeepsInstance (s t : State) : Prop := t.cfg = s.cfg ∧ t.cm = s.cm

/-- `t` is `s` with `x` in block register `rd` and `cp` advanced, and nothing else changed. -/
def WritesBlock (rd : VReg) (x : Block) (s t : State) : Prop :=
  t.getV rd = x ∧ t.cp = s.cp + 1 ∧ KeepsBlocksBut rd s t ∧ KeepsMatrices s t ∧ KeepsKeys s t ∧
  t.hw = s.hw ∧ KeepsMemory s t ∧ KeepsRunState s t ∧ KeepsInstance s t

/-- `t` is `s` with `x` in matrix register `rd` and `cp` advanced, and nothing else changed. -/
def WritesMatrix (rd : MReg) (x : Matrix) (s t : State) : Prop :=
  t.getM rd = x ∧ t.cp = s.cp + 1 ∧ KeepsMatricesBut rd s t ∧ KeepsBlocks s t ∧ KeepsKeys s t ∧
  t.hw = s.hw ∧ KeepsMemory s t ∧ KeepsRunState s t ∧ KeepsInstance s t

/-- `t` is `s` with byte `f k` at `lo + k` for `k < n` and `cp` advanced, and nothing else changed. -/
def WritesMemory (lo n : Nat) (f : Nat → Byte) (s t : State) : Prop :=
  (∀ k, k < n → t.dm.read (lo + k) = f k) ∧ t.cp = s.cp + 1 ∧ KeepsMemoryOutside lo n s t ∧
  KeepsBlocks s t ∧ KeepsMatrices s t ∧ KeepsKeys s t ∧ t.hw = s.hw ∧ KeepsRunState s t ∧
  KeepsInstance s t

/-- No block register, matrix register, key, mode or byte of memory differs, nor a parameter or a command word: all
that `t` and `s` can differ in is `cp`, `STATE`, `CAUSE`, `FCP` and `FINFO`. -/
def KeepsData (s t : State) : Prop :=
  KeepsBlocks s t ∧ KeepsMatrices s t ∧ KeepsKeys s t ∧ t.hw = s.hw ∧ KeepsMemory s t ∧ KeepsInstance s t

/-- `t` is `s` after fault `c` with information value `info` was taken (R262): the output `fault` is up, `FCP` is
the `cp` of the faulting command, which `cp` still is, and nothing else changed. -/
def TakesFault (c : Cause) (info : DWord) (s t : State) : Prop :=
  t.st = .faulted ∧ t.cause = some c ∧ t.fcp = s.cp ∧ t.finfo = info ∧ t.cp = s.cp ∧
  faultOutput t = true ∧ KeepsData s t

/-! ## Destinations -/

/-- The block register a command names as its destination (10_state.md R22, second list). -/
def destinationBlock : Instr → Option VReg
  | .sethw rd _ => some rd
  | .getst rd => some rd
  | .xor rd _ _ => some rd
  | .addq rd _ _ => some rd
  | .aesenc rd _ _ => some rd
  | .aesenclast rd _ _ => some rd
  | .aeskga rd _ _ => some rd
  | .slldq4 rd _ => some rd
  | .bcast3 rd _ => some rd
  | .mov rd _ => some rd
  | .subb rd _ => some rd
  | .shrow rd _ => some rd
  | .mixc rd _ => some rd
  | .aesgen rd _ => some rd
  | .getrk rd _ => some rd
  | .arsgen rd _ _ => some rd
  | .gdim rd _ => some rd
  | .ldb rd _ => some rd
  | .ldbx rd _ _ => some rd
  | .nop | .halt | .setkey _ | .keyexp => none
  | .gmul _ _ _ | .gapply _ _ _ | .gpow _ _ _ _ => none
  | .stb _ _ | .stbx _ _ _ | .gld _ _ | .gldx _ _ _ | .gst _ _ | .gstx _ _ _ => none

/-- The matrix register a command writes (10_state.md R34). -/
def destinationMatrix : Instr → Option MReg
  | .gmul rd _ _ => some rd
  | .gapply rd _ _ => some rd
  | .gpow rd _ _ _ => some rd
  | .gld rd _ => some rd
  | .gldx rd _ _ => some rd
  | .nop | .halt | .sethw _ _ | .getst _ => none
  | .xor _ _ _ | .addq _ _ _ | .aesenc _ _ _ | .aesenclast _ _ _ | .aeskga _ _ _ => none
  | .slldq4 _ _ | .bcast3 _ _ | .mov _ _ | .subb _ _ | .shrow _ _ | .mixc _ _ => none
  | .setkey _ | .keyexp | .aesgen _ _ | .getrk _ _ | .arsgen _ _ _ | .gdim _ _ => none
  | .ldb _ _ | .ldbx _ _ _ | .stb _ _ | .stbx _ _ _ | .gst _ _ | .gstx _ _ _ => none

/-! ## Matrix images -/

/-- The header of an image at `ea` holds `rows` and `cols`, each in four bytes, the least significant first
(20_memory.md R62, R72). -/
def HoldsHeader (dm : Memory) (ea : Nat) (rows cols : Word) : Prop :=
  ∀ i, i < 4 → dm.read (ea + i) = rows.extractLsb' (8 * i) 8 ∧
    dm.read (ea + 4 + i) = cols.extractLsb' (8 * i) 8

/-- The image of `x` stands at `ea`: its shape in the header, entry `(r, c)` in bit `c mod 8` of byte
`ea + 8 + r * ceil(cols / 8) + c / 8`, the padding bits zero (20_memory.md R72). -/
def HoldsImage (dm : Memory) (ea : Nat) (x : Matrix) : Prop :=
  HoldsHeader dm ea x.rows x.cols ∧
  ∀ r c, r < x.rows.toNat → c < 8 * ((x.cols.toNat + 7) / 8) →
    (dm.read (ea + 8 + r * ((x.cols.toNat + 7) / 8) + c / 8)).getLsbD (c % 8) =
      (decide (c < x.cols.toNat) && x.bit r c)

/-- The image at `ea` with a header of `rows` and `cols` fails one of the checks (a) to (d) of 20_memory.md R74. -/
def BadImageOf (s : State) (ea rows cols : Nat) : Prop :=
  rows = 0 ∨ cols = 0 ∨ s.cfg.maxdim < rows ∨ s.cfg.maxdim < cols ∨
  s.cfg.memsize < ea + (8 + rows * ((cols + 7) / 8)) ∨
  ∃ r c, r < rows ∧ cols ≤ c ∧ c < 8 * ((cols + 7) / 8) ∧
    (s.dm.read (ea + 8 + r * ((cols + 7) / 8) + c / 8)).getLsbD (c % 8) = true

/-- The image at `ea` is not one a load accepts (20_memory.md R74). -/
def BadImage (s : State) (ea : Nat) : Prop :=
  ∃ rows cols : Word, HoldsHeader s.dm ea rows cols ∧ BadImageOf s ea rows.toNat cols.toNat

/-! ## Several commands, and the product of copies of a matrix -/

/-- Commands executed one after the other; no answer where one stops otherwise than with a next state. -/
def execAll : List Instr → State → Option State
  | [], s => some s
  | i :: is, s =>
    match exec i s with
    | .next t => execAll is t
    | .fault _ => none
    | .refused _ => none

/-- The product of `e` copies of a square matrix, the identity for `e = 0` (43_gf2_matrix.md R192). -/
def productOfCopies (x : Matrix) : Nat → Matrix
  | 0 => matIdent x.rows
  | e + 1 => matMul (productOfCopies x e) x

/-- Whether an odd number of `k < n` satisfy `f`: the XOR of `f 0` to `f (n-1)` (R191, R194). -/
def oddCount (n : Nat) (f : Nat → Bool) : Bool := decide ((List.range n).countP f % 2 = 1)

/-! ## The invariant -/

/-- What every state of an instance satisfies. -/
structure Invariant (s : State) : Prop where
  /-- The parameters are in their ranges (R9). -/
  cfg : s.cfg.wf
  /-- The data memory is in canonical form and within `MEMSIZE` (R42). -/
  dm : s.dm.wf ∧ ∀ x ∈ s.dm, x.1 < s.cfg.memsize
  /-- The command memory is in canonical form and within `CMSIZE` (R43). -/
  cm : Store.wf s.cm ∧ ∀ x ∈ s.cm, x.1 < s.cfg.cmsize
  /-- Every matrix register holds what R34 allows. -/
  matrices : ∀ i, (s.getM i).wf s.cfg.maxdim
  /-- `KSV = 1` implies that the round keys are those of the present `KEY` (R26). -/
  schedule : s.ksv = true → s.rk = keyExpansion s.key
  /-- `MODE.HW = 1` implies `HWCAP = 1` (R30). -/
  mode : s.hw = true → s.cfg.hwcap = true
  /-- `CAUSE` holds a cause exactly in `FAULTED` (R38, R39). -/
  cause : s.st = .faulted ↔ s.cause.isSome = true

/-! ## Reachable states -/

/-- The states an instance can be in: after reset, with any memory contents (R302), and after any steps and any
actions of the host (R280, R310). -/
inductive Reachable : State → Prop where
  /-- After power-up and reset (R302). -/
  | powerUp (c : Config) (dm : Memory) (cm : CmdMemory) (hc : c.wf)
      (hdm : dm.wf ∧ ∀ x ∈ dm, x.1 < c.memsize) (hcm : Store.wf cm ∧ ∀ x ∈ cm, x.1 < c.cmsize) :
      Reachable (State.afterReset c dm cm)
  /-- After a step. -/
  | step {s t : State} (h : Reachable s) (hs : step s = .next t) : Reachable t
  /-- After an action of the host. -/
  | host {s t : State} (a : HostAction) (h : Reachable s) (hs : hostAct a s = .next t) : Reachable t

end Sys2Proof.Safety
end

