-- ==== Sys2Proof/Certificates/Slice0/Obligations.lean ====
section
/-!
DEFINITION. The statements for the provers. A result statement's conclusion is that `exec` answers a next state, and
says what that state holds and that nothing else changed (`WritesBlock`, `WritesMatrix`, `WritesMemory`, `TakesFault`,
`KeepsData` of Safety.lean).
-/

open Sys2Proof Sys2Proof.Machine Sys2Proof.Safety

/-! ## Command words -/

/-- Words written out in the spec decode to the commands they are listed as, and words listed as illegal are refused
(95_test_vectors.md E1, E2). The names of the refusals are the model's own (log 9). -/
def Obligations.SpecWordsDecode : Prop :=
  decode 0x10312000 = .ok (.xor 3 1 2) ∧ decode 0x03400001 = .ok (.sethw 4 true) ∧
  decode 0x23300001 = .ok (.getrk 3 1) ∧ decode 0x30210007 = .ok (.arsgen 2 1 7) ∧
  decode 0x42100005 = .ok (.gpow 1 0 0 5) ∧ decode 0x50100010 = .ok (.ldb 1 0x10) ∧
  decode 0x51120FFE = .ok (.ldbx 1 2 0xFFE) ∧ decode 0x57340FFF = .ok (.gstx 3 4 0xFFF) ∧
  decode 0x00000000 = .error .unassignedOpcode ∧ decode 0xFFFFFFFF = .error .unassignedOpcode ∧
  decode 0x2330000B = .error .roundKeyIndex ∧ decode 0x30210000 = .error .roundCountZero ∧
  decode 0x40400000 = .error .matrixField ∧ decode 0x51121000 = .error .fieldNotZero

/-- Decoding the word of a well-formed command gives that command back, with every operand (R91, R92, R96, R97). -/
def Obligations.DecodeOfEncode : Prop :=
  ∀ i : Instr, i.wellFormed = true → decode (encode i) = .ok i

/-- A word that decodes is the word of the command it decodes to, and that command is well formed: no bit of a legal
word is dropped, and no two words are one command (R99). -/
def Obligations.EncodeOfDecode : Prop :=
  ∀ (w : Word) (i : Instr), decode w = .ok i → encode i = w ∧ i.wellFormed = true

/-- The decoder by fields and the match and mask table accept the same words as the same commands, and no two rows of
the table can both match one word (R98). -/
def Obligations.DecodeAgreesWithOpcodeTable : Prop :=
  (∀ (w : Word) (i : Instr), decode w = .ok i →
    ∃ row ∈ opcodeRows, row.accepts w = true ∧ row.mnemonic = asmMnemonic i) ∧
  (∀ (w : Word), ∀ row ∈ opcodeRows, row.accepts w = true →
    ∃ i, decode w = .ok i ∧ asmMnemonic i = row.mnemonic) ∧
  opcodeRows.Pairwise fun a b => ∀ w : Word, ¬ (w &&& a.mask = a.pattern ∧ w &&& b.mask = b.pattern)

/-! ## The step -/

/-- A running sequencer with a command word at `cp` does what that command does, and nothing besides (R310). -/
def Obligations.StepRunsDecodedCommand : Prop :=
  ∀ (s : State) (i : Instr), s.st = .run → s.cp.toNat < s.cfg.cmsize →
    decode (s.cm.read s.cp.toNat) = .ok i → step s = exec i s

/-- A word that is no command faults with `IllegalCommand`, code 1, whatever else holds (R263). -/
def Obligations.IllegalWordFaults : Prop :=
  ∀ (s : State) (e : DecodeError), s.st = .run → s.cp.toNat < s.cfg.cmsize →
    decode (s.cm.read s.cp.toNat) = .error e →
    ∃ t, step s = .next t ∧ TakesFault .illegalCommand ((s.cm.read s.cp.toNat).setWidth 64) s t ∧
      causeField t.cause = 1

/-- A fetch past the command memory faults with `CommandFetch`, code 9, `FINFO = cp` (R264). -/
def Obligations.FetchPastEndFaults : Prop :=
  ∀ s : State, s.st = .run → s.cfg.cmsize ≤ s.cp.toNat →
    ∃ t, step s = .next t ∧ TakesFault .commandFetch (s.cp.setWidth 64) s t ∧ t.finfo.toNat = s.cp.toNat ∧
      causeField t.cause = 9

/-- The model's choice of what a step of a stopped sequencer is: nothing changes (log 5; R286 says that it does nothing
until the host acts). -/
def Obligations.StoppedSequencerDoesNothing : Prop :=
  ∀ s : State, s.st ≠ .run → step s = .next s

/-- Every command in every state, and every step, ends in a next state: no fault or refusal of the model. For a legal
command and a running sequencer this is the spec's (R310, R312); that a step of a stopped sequencer answers next is read
from R286 (log 5), and that `exec` of `GETRK` with an index of 11 to 15 or `ARSGEN` with a count of 0, which no word
decodes to, answers next is the model's choice (log 16). -/
def Obligations.EveryStepAnswers : Prop :=
  (∀ (i : Instr) (s : State), ∃ t, exec i s = .next t) ∧
  (∀ s : State, ∃ t, step s = .next t) ∧
  ∀ (k : Nat) (s : State), ∃ t, core.run k s = .next t

/-- Faults are precise: a step that ends in `FAULTED` has written `STATE`, `CAUSE`, `FCP` and `FINFO` and nothing else,
the host reads the cause's code, and `fault` is up (R262). -/
def Obligations.FaultsArePrecise : Prop :=
  ∀ s t : State, s.st = .run → step s = .next t → t.st = .faulted →
    ∃ c info, TakesFault c info s t ∧ hostReadReg 0x08 t = .next ((causeCode c).setWidth 32)

/-- `cp` after a command: one more, or as it was after `HALT` and after a fault (R28). -/
def Obligations.CommandPointerAdvances : Prop :=
  ∀ (i : Instr) (s t : State), s.st = .run → exec i s = .next t →
    (i ≠ .halt ∧ t.st = .run ∧ t.cp = s.cp + 1) ∨ (i = .halt ∧ t.st = .halted ∧ t.cp = s.cp) ∨
      (i ≠ .halt ∧ t.st = .faulted ∧ t.cp = s.cp)

/-- The frame of every command: a register, flag or byte changes only if the command writes it. -/
def Obligations.OnlyDestinationsChange : Prop :=
  ∀ (i : Instr) (s t : State), exec i s = .next t →
    (∀ r, destinationBlock i ≠ some r → t.getV r = s.getV r) ∧
    (∀ m, destinationMatrix i ≠ some m → t.getM m = s.getM m) ∧
    KeepsMemoryOutside (writeSet i s).1 (writeSet i s).2 s t ∧
    ((∀ ra, i ≠ .setkey ra) → t.key = s.key) ∧
    (i ≠ .keyexp → t.rk = s.rk) ∧
    ((∀ ra, i ≠ .setkey ra) → i ≠ .keyexp → t.ksv = s.ksv) ∧
    ((∀ rd mode, i ≠ .sethw rd mode) → t.hw = s.hw) ∧
    KeepsInstance s t ∧
    ((t.cause = s.cause ∧ t.fcp = s.fcp ∧ t.finfo = s.finfo ∧ (i ≠ .halt → t.st = s.st)) ∨
      ∃ c info, TakesFault c info s t)

/-- Neither `MODE.HW` nor `HWCAP` changes what a command other than `SETHW` and `GETST` does: with any other values of
the two, it leads to the same state but for them (R121, R8). -/
def Obligations.ModeChangesNoResult : Prop :=
  ∀ (i : Instr) (s t : State) (hw cap : Bool), (∀ rd mode, i ≠ .sethw rd mode) → (∀ rd, i ≠ .getst rd) →
    exec i s = .next t →
    exec i { s with hw := hw, cfg := { s.cfg with hwcap := cap } } =
      .next { t with hw := hw, cfg := { t.cfg with hwcap := cap } }

/-- A run ends: after at most `CMSIZE` commands the sequencer has halted or faulted, or faults at its next fetch
(R312). -/
def Obligations.EveryRunEnds : Prop :=
  ∀ s : State, s.cfg.wf → s.st = .run →
    ∃ k t, k ≤ s.cfg.cmsize + 1 ∧ core.run k s = .next t ∧ (t.st = .halted ∨ t.st = .faulted)

/-! ## The invariant -/

/-- Every step keeps the invariant of Safety.lean, from any state that has it. -/
def Obligations.StepKeepsInvariant : Prop :=
  ∀ s t : State, Invariant s → step s = .next t → Invariant t

/-- Every action of the host keeps the invariant, from any state that has it. -/
def Obligations.HostKeepsInvariant : Prop :=
  ∀ (a : HostAction) (s t : State), Invariant s → hostAct a s = .next t → Invariant t

/-- The state after reset has the invariant, for every instance and all contents of the memories that R302 allows;
so does the model's reset state (logs 1 and 2). -/
def Obligations.ResetSatisfiesInvariant : Prop :=
  Invariant State.reset ∧
  ∀ (c : Config) (dm : Memory) (cm : CmdMemory), c.wf → (dm.wf ∧ ∀ x ∈ dm, x.1 < c.memsize) →
    (Store.wf cm ∧ ∀ x ∈ cm, x.1 < c.cmsize) → Invariant (State.afterReset c dm cm)

/-- `KSV`: set by `KEYEXP`, cleared by `SETKEY` and by reset, needed by `AESGEN` and `GETRK`, and in every reachable
state it says that the round keys are the expansion of the present key (R26). -/
def Obligations.ReachableScheduleIsOfTheKey : Prop :=
  (∀ s : State, Reachable s → s.ksv = true → ∀ i (hi : i < 11), s.rk[i] = (keyExpansion s.key)[i]) ∧
  (∀ s : State, ∃ t, exec .keyexp s = .next t ∧ t.ksv = true) ∧
  (∀ (ra : VReg) (s : State), ∃ t, exec (.setkey ra) s = .next t ∧ t.ksv = false) ∧
  (∀ s : State, s.resetNow.ksv = false) ∧
  (∀ (rd ra : VReg) (s : State), s.ksv = false →
    ∃ t, exec (.aesgen rd ra) s = .next t ∧ TakesFault .keyScheduleInvalid 0 s t) ∧
  (∀ (rd : VReg) (i : BitVec 4) (s : State), i.toNat ≤ 10 → s.ksv = false →
    ∃ t, exec (.getrk rd i) s = .next t ∧ TakesFault .keyScheduleInvalid 0 s t)

/-- Every reachable state has the invariant; in particular `MODE.HW = 1` implies `HWCAP = 1` (R30). -/
def Obligations.ReachableStatesSatisfyInvariant : Prop :=
  ∀ s : State, Reachable s → Invariant s

/-! ## Reset and the host -/

/-- What every register holds after reset, and that reset leaves the memories as they are (R46, R40). -/
def Obligations.ResetValues : Prop :=
  ∀ s : State, ∃ t, hostAct .resetInput s = .next t ∧ hostAct resetAction s = .next t ∧
    (∀ r, t.getV r = 0) ∧ t.key = 0 ∧ (∀ i (hi : i < 11), t.rk[i] = 0) ∧ t.ksv = false ∧
    t.hw = s.cfg.hwcap ∧ (∀ i, t.getM i = Matrix.empty) ∧ t.cp = 0 ∧ t.st = .idle ∧
    causeField t.cause = 0 ∧ t.fcp = 0 ∧ t.finfo = 0 ∧ t.dm = s.dm ∧ t.cm = s.cm ∧ t.cfg = s.cfg ∧
    doneOutput t = false ∧ faultOutput t = false

/-- A reset that cuts a command: the registers are reset, the bytes outside that command's write set are unchanged, and
those inside it can end as any bytes (R301; log 4: the bytes are an argument of the action). -/
def Obligations.ResetMidCommandLosesOnlyTheWriteSet : Prop :=
  ∀ (s : State) (i : Instr) (bytes : List Byte), s.st = .run → s.cp.toNat < s.cfg.cmsize →
    decode (s.cm.read s.cp.toNat) = .ok i → s.dm.wf →
    ∃ t, hostAct (.resetMidCommand bytes) s = .next t ∧ t = State.afterReset s.cfg t.dm s.cm ∧
      KeepsMemoryOutside (writeSet i s).1 (writeSet i s).2 s t ∧
      ∀ k (hk : k < bytes.length), k < (writeSet i s).2 → t.dm.read ((writeSet i s).1 + k) = bytes[k]

/-- `START` on a stopped sequencer: `STATE = RUN`, `CAUSE = 0`, nothing else changed, and the next step is a command
at `cp` (R283, R38). -/
def Obligations.HostStart : Prop :=
  ∀ s : State, s.st ≠ .run →
    ∃ t, hostAct startAction s = .next t ∧ t.st = .run ∧ causeField t.cause = 0 ∧ t.cp = s.cp ∧
      t.fcp = s.fcp ∧ t.finfo = s.finfo ∧ KeepsData s t ∧ doneOutput t = false ∧
      faultOutput t = false ∧ step t = runCommand t

/-- What the host's writes do, and that they change nothing else. While the sequencer runs, writes of `START`, `CP`, `DM`
and `CM` are ignored, and a read of a memory is refused, as R280 recommends to a model. A `CTRL` write with a reserved bit
is ignored as a whole, one with no bit set does nothing, and `RESET` wins over `START` at any time. On a stopped sequencer
a write of `CP`, `DM[a]` or `CM[i]` changes that one location: no block, matrix or key register, no run state, no other
byte or word (R37, R40, R280, R281, R282). That a write of a read-only register does nothing is read from R37 (log 7). -/
def Obligations.HostWrites : Prop :=
  (∀ (s : State) (w : Word), w.extractLsb' 2 30 ≠ 0 → hostAct (.writeReg 0x00 w) s = .next s) ∧
  (∀ s : State, hostAct (.writeReg 0x00 0) s = .next s) ∧
  (∀ (s : State) (w : Word), w.extractLsb' 1 31 = 1 → hostAct (.writeReg 0x00 w) s = .next s.resetNow) ∧
  (∀ (s : State) (offset : Nat) (w : Word), offset ∈ [0x04, 0x08, 0x10, 0x18, 0x1C] →
    hostAct (.writeReg offset w) s = .next s) ∧
  (∀ (s : State) (a : Nat) (b : Byte) (w : Word), s.st = .run →
    hostAct startAction s = .next s ∧ hostAct (cpAction w) s = .next s ∧
    hostAct (.writeDm a b) s = .next s ∧ hostAct (.writeCm a w) s = .next s ∧
    hostReadDm a s = .refused .hostReadWhileRunning ∧ hostReadCm a s = .refused .hostReadWhileRunning) ∧
  (∀ (s : State) (w : Word), s.st ≠ .run →
    ∃ t, hostAct (cpAction w) s = .next t ∧ t.cp = w ∧ KeepsData s t ∧ KeepsRunState s t) ∧
  (∀ (s : State) (a : Nat) (b : Byte), s.st ≠ .run → a < s.cfg.memsize → s.dm.wf →
    ∃ t, hostAct (.writeDm a b) s = .next t ∧ hostReadDm a t = .next b ∧ KeepsMemoryOutside a 1 s t ∧
      KeepsBlocks s t ∧ KeepsMatrices s t ∧ KeepsKeys s t ∧ t.hw = s.hw ∧ t.cp = s.cp ∧
      KeepsRunState s t ∧ KeepsInstance s t) ∧
  (∀ (s : State) (i : Nat) (w : Word), s.st ≠ .run → i < s.cfg.cmsize → Store.wf s.cm →
    ∃ t, hostAct (.writeCm i w) s = .next t ∧ hostReadCm i t = .next w ∧
      (∀ j, j ≠ i → t.cm.read j = s.cm.read j) ∧ KeepsBlocks s t ∧ KeepsMatrices s t ∧ KeepsKeys s t ∧
      t.hw = s.hw ∧ KeepsMemory s t ∧ t.cp = s.cp ∧ KeepsRunState s t ∧ t.cfg = s.cfg)

/-- What the host reads at each offset, field by field, in any `STATE`, with the four codes of `STATE` and the nine of
`CAUSE`, no fault being 0 (R37, R38, R39, R261). That `CP` reads as the present `cp`
while the sequencer runs is the model's choice among those R280 allows (log 8). -/
def Obligations.HostRegistersRead : Prop :=
  (stateCode .idle = 0 ∧ stateCode .run = 1 ∧ stateCode .halted = 2 ∧ stateCode .faulted = 3) ∧
  (causeField none = 0 ∧ causeField (some .illegalCommand) = 1 ∧
    causeField (some .configurationError) = 2 ∧ causeField (some .keyScheduleInvalid) = 3 ∧
    causeField (some .memAccess) = 4 ∧ causeField (some .misaligned) = 5 ∧
    causeField (some .matrixFormat) = 6 ∧ causeField (some .dimMismatch) = 7 ∧
    causeField (some .matrixEmpty) = 8 ∧ causeField (some .commandFetch) = 9) ∧
  ∀ s : State, hostReadReg 0x00 s = .next 0 ∧
    (∃ w, hostReadReg 0x04 s = .next w ∧ w.extractLsb' 0 2 = stateCode s.st ∧ w.getLsbD 4 = s.hw ∧
      w.getLsbD 5 = s.cfg.hwcap ∧ w.getLsbD 6 = s.ksv ∧
      ∀ j, j = 2 ∨ j = 3 ∨ 7 ≤ j → w.getLsbD j = false) ∧
    (∃ w, hostReadReg 0x08 s = .next w ∧ w.extractLsb' 0 4 = causeField s.cause ∧
      ∀ j, 4 ≤ j → w.getLsbD j = false) ∧
    hostReadReg 0x0C s = .next s.cp ∧ hostReadReg 0x10 s = .next s.fcp ∧
    ∃ lo hi, hostReadReg 0x18 s = .next lo ∧ hostReadReg 0x1C s = .next hi ∧ hi ++ lo = s.finfo

/-- The restarts after a fault: retry faults again in the same way, skip goes on at the next command, abandon at
any other (R278). -/
def Obligations.RestartsAfterAFault : Prop :=
  ∀ s t : State, s.st = .run → step s = .next t → t.st = .faulted →
    (∃ u, hostActs retryActions t = .next u ∧ u.st = .run ∧ KeepsData s u ∧ step u = .next t) ∧
    (∃ u, hostActs (skipActions t) t = .next u ∧ u.st = .run ∧ KeepsData s u ∧ u.cp = s.cp + 1) ∧
    ∀ w, ∃ u, hostActs (abandonActions w) t = .next u ∧ u.st = .run ∧ KeepsData s u ∧ u.cp = w

/-! ## System commands -/

/-- `NOP` moves `cp` and changes nothing else; `HALT` stops the sequencer and changes nothing else (R240, R241). -/
def Obligations.NopAndHalt : Prop :=
  ∀ s : State,
    (∃ t, exec .nop s = .next t ∧ t.cp = s.cp + 1 ∧ KeepsData s t ∧ KeepsRunState s t) ∧
    ∃ t, exec .halt s = .next t ∧ t.st = .halted ∧ t.cp = s.cp ∧ KeepsData s t ∧ t.cause = s.cause ∧
      t.fcp = s.fcp ∧ t.finfo = s.finfo ∧ doneOutput t = true

/-- `SETHW` returns the previous mode and sets the one asked for; on an instance without the hardware path, asking for
it faults with code 2 (R243, R265). -/
def Obligations.SethwSetsTheMode : Prop :=
  (∀ (rd : VReg) (mode : Bool) (s : State), (mode = true → s.cfg.hwcap = true) →
    ∃ t, exec (.sethw rd mode) s = .next t ∧ t.getV rd = (BitVec.ofBool s.hw).setWidth 128 ∧
      t.hw = mode ∧ t.cp = s.cp + 1 ∧ KeepsBlocksBut rd s t ∧ KeepsMatrices s t ∧ KeepsKeys s t ∧
      KeepsMemory s t ∧ KeepsRunState s t ∧ KeepsInstance s t) ∧
  ∀ (rd : VReg) (s : State), s.cfg.hwcap = false →
    ∃ t, exec (.sethw rd true) s = .next t ∧ TakesFault .configurationError 0 s t ∧
      causeField t.cause = 2

/-- `GETST` reads `MODE.HW`, `HWCAP` and `KSV` in bits 0, 1 and 2, the others zero (R244). -/
def Obligations.GetstReadsTheFlags : Prop :=
  ∀ (rd : VReg) (s : State), ∃ t, exec (.getst rd) s = .next t ∧ WritesBlock rd (t.getV rd) s t ∧
    (t.getV rd).getLsbD 0 = s.hw ∧ (t.getV rd).getLsbD 1 = s.cfg.hwcap ∧
    (t.getV rd).getLsbD 2 = s.ksv ∧ ∀ j, 3 ≤ j → (t.getV rd).getLsbD j = false

/-! ## Block primitives -/

/-- `XOR` and `MOV` act on whole blocks; `ADDQ` adds each 64-bit lane modulo `2^64`, no carry crossing (R130, R131,
R137). -/
def Obligations.XorMovAndAddq : Prop :=
  ∀ (rd ra rb : VReg) (s : State),
    (∃ t, exec (.xor rd ra rb) s = .next t ∧ WritesBlock rd (s.getV ra ^^^ s.getV rb) s t) ∧
    (∃ t, exec (.mov rd ra) s = .next t ∧ WritesBlock rd (s.getV ra) s t) ∧
    ∃ t, exec (.addq rd ra rb) s = .next t ∧ WritesBlock rd (t.getV rd) s t ∧
      ∀ k, k < 2 → (laneQ (t.getV rd) k).toNat =
        ((laneQ (s.getV ra) k).toNat + (laneQ (s.getV rb) k).toNat) % 2 ^ 64

/-- `AESKGA`, `SLLDQ4` and `BCAST3`, lane by lane, and the bytes of `SubWord` and `RotWord` (R134, R135, R136,
R141). -/
def Obligations.LaneCommands : Prop :=
  (∀ (rd ra : VReg) (rcon : Byte) (s : State), ∃ t, exec (.aeskga rd ra rcon) s = .next t ∧
    WritesBlock rd (t.getV rd) s t ∧
    laneD (t.getV rd) 0 = subWord (laneD (s.getV ra) 1) ∧
    laneD (t.getV rd) 1 = rotWord (subWord (laneD (s.getV ra) 1)) ^^^ rcon.setWidth 32 ∧
    laneD (t.getV rd) 2 = subWord (laneD (s.getV ra) 3) ∧
    laneD (t.getV rd) 3 = rotWord (subWord (laneD (s.getV ra) 3)) ^^^ rcon.setWidth 32) ∧
  (∀ (rd ra : VReg) (s : State), ∃ t, exec (.slldq4 rd ra) s = .next t ∧
    WritesBlock rd (t.getV rd) s t ∧ laneD (t.getV rd) 0 = 0 ∧
    ∀ j, j < 3 → laneD (t.getV rd) (j + 1) = laneD (s.getV ra) j) ∧
  (∀ (rd ra : VReg) (s : State), ∃ t, exec (.bcast3 rd ra) s = .next t ∧
    WritesBlock rd (t.getV rd) s t ∧ ∀ j, j < 4 → laneD (t.getV rd) j = laneD (s.getV ra) 3) ∧
  ∀ (w : Word) (i : Nat), i < 4 →
    (subWord w).extractLsb' (8 * i) 8 = sbox (w.extractLsb' (8 * i) 8) ∧
    (rotWord w).extractLsb' (8 * i) 8 = w.extractLsb' (8 * ((i + 1) % 4)) 8

/-- `SUBB` and `SHROW`, byte by byte (R124, R125, R138, R139). -/
def Obligations.SubbAndShrow : Prop :=
  ∀ (rd ra : VReg) (s : State),
    (∃ t, exec (.subb rd ra) s = .next t ∧ WritesBlock rd (t.getV rd) s t ∧
      ∀ i, i < 16 → byteB (t.getV rd) i = sbox (byteB (s.getV ra) i)) ∧
    ∃ t, exec (.shrow rd ra) s = .next t ∧ WritesBlock rd (t.getV rd) s t ∧
      ∀ r c, r < 4 → c < 4 → byteB (t.getV rd) (r + 4 * c) = byteB (s.getV ra) (r + 4 * ((c + r) % 4))

/-- `MIXC`, column by column, by the matrix of R127 (R127, R140). -/
def Obligations.MixcColumns : Prop :=
  ∀ (rd ra : VReg) (s : State), ∃ t, exec (.mixc rd ra) s = .next t ∧ WritesBlock rd (t.getV rd) s t ∧
    ∀ c, c < 4 →
      let a0 := byteB (s.getV ra) (4 * c)
      let a1 := byteB (s.getV ra) (4 * c + 1)
      let a2 := byteB (s.getV ra) (4 * c + 2)
      let a3 := byteB (s.getV ra) (4 * c + 3)
      byteB (t.getV rd) (4 * c) = xtime a0 ^^^ (xtime a1 ^^^ a1) ^^^ a2 ^^^ a3 ∧
      byteB (t.getV rd) (4 * c + 1) = a0 ^^^ xtime a1 ^^^ (xtime a2 ^^^ a2) ^^^ a3 ∧
      byteB (t.getV rd) (4 * c + 2) = a0 ^^^ a1 ^^^ xtime a2 ^^^ (xtime a3 ^^^ a3) ∧
      byteB (t.getV rd) (4 * c + 3) = (xtime a0 ^^^ a0) ^^^ a1 ^^^ a2 ^^^ xtime a3

/-- `AESENC` and `AESENCLAST`: the stages in their order, then the round key (R129, R132, R133). -/
def Obligations.AesencAndAesenclast : Prop :=
  ∀ (rd ra rb : VReg) (s : State),
    (∃ t, exec (.aesenc rd ra rb) s = .next t ∧
      WritesBlock rd (mixColumns (shiftRows (subBytes (s.getV ra))) ^^^ s.getV rb) s t) ∧
    ∃ t, exec (.aesenclast rd ra rb) s = .next t ∧
      WritesBlock rd (shiftRows (subBytes (s.getV ra)) ^^^ s.getV rb) s t

/-- The stage commands in sequence leave what the round commands leave, in either order of `SUBB` and `SHROW`
(R145). The scratch register is not the one that holds the round key. -/
def Obligations.StageCommandsCompose : Prop :=
  ∀ (vd vt vs vk : VReg) (s : State), vt ≠ vk →
    (∃ t u x, execAll [.subb vt vs, .shrow vt vt, .mixc vt vt, .xor vd vt vk] s = some t ∧
      execAll [.shrow vt vs, .subb vt vt, .mixc vt vt, .xor vd vt vk] s = some u ∧
      exec (.aesenc vd vs vk) s = .next x ∧ t.getV vd = x.getV vd ∧ u.getV vd = x.getV vd) ∧
    ∃ t u x, execAll [.subb vt vs, .shrow vt vt, .xor vd vt vk] s = some t ∧
      execAll [.shrow vt vs, .subb vt vt, .xor vd vt vk] s = some u ∧
      exec (.aesenclast vd vs vk) s = .next x ∧ t.getV vd = x.getV vd ∧ u.getV vd = x.getV vd

/-- The S-box is the affine map of the inverse in GF(2^8), and a permutation (R123). -/
def Obligations.SboxIsAffineOfInverse : Prop :=
  (∀ a : Byte, ∃ y : Byte, (if a = 0 then y = 0 else gfMul a y = 1) ∧ sbox a = sboxAffine y) ∧
  Function.Bijective sbox

/-- The 64-bit-lane form of MixColumns agrees with the per-column form bit for bit, and doubles eight bytes at
once (R128). -/
def Obligations.PackedMixColumnsAgrees : Prop :=
  (∀ b : Block, mixColumnsPacked b = mixColumns b) ∧
  ∀ (x : DWord) (i : Nat), i < 8 → (xtime8 x).extractLsb' (8 * i) 8 = xtime (x.extractLsb' (8 * i) 8)

/-- ShiftRows and SubBytes commute (R126). -/
def Obligations.StagesCommute : Prop :=
  ∀ b : Block, shiftRows (subBytes b) = subBytes (shiftRows b)

/-! ## The generators -/

/-- The eleven round keys are the 44 words of the recurrence, with the spec's round constants (R162). -/
def Obligations.KeyExpansionRecurrence : Prop :=
  rconList = [0x01, 0x02, 0x04, 0x08, 0x10, 0x20, 0x40, 0x80, 0x1b, 0x36] ∧
  (∀ x : Word, subWord (rotWord x) = rotWord (subWord x)) ∧
  (∀ j, j < 9 → rconList.getD (j + 1) 0 = xtime (rconList.getD j 0)) ∧
  ∀ key : Block, (keyExpansion key)[0] = key ∧ ∃ w : Nat → Word, (∀ i, i < 4 → w i = laneD key i) ∧
    (∀ j, j < 10 → w (4 * (j + 1)) =
      w (4 * j) ^^^ subWord (rotWord (w (4 * j + 3))) ^^^ (rconList.getD j 0).setWidth 32) ∧
    (∀ i, 5 ≤ i → i ≤ 43 → i % 4 ≠ 0 → w i = w (i - 4) ^^^ w (i - 1)) ∧
    ∀ j c (hj : j < 11), c < 4 → laneD ((keyExpansion key)[j]) c = w (4 * j + c)

/-- The helper, the 4-byte shift and the broadcast compute each round key from the one before (R164). -/
def Obligations.KeyExpansionByHelper : Prop :=
  ∀ (key : Block) (j : Nat) (hj : j < 10),
    let rk := (keyExpansion key)[j]
    let u1 := rk ^^^ shiftLeft4 rk
    let u2 := u1 ^^^ shiftLeft4 u1
    let u3 := u2 ^^^ shiftLeft4 u2
    (keyExpansion key)[j + 1] = u3 ^^^ broadcast3 (aesKeyGenAssist rk (rconList.getD j 0))

/-- `SETKEY` writes `KEY` and clears `KSV`; `KEYEXP` writes all eleven round keys and sets `KSV`; neither writes
anything else (R161, R163). -/
def Obligations.SetkeyAndKeyexp : Prop :=
  (∀ (ra : VReg) (s : State), ∃ t, exec (.setkey ra) s = .next t ∧ t.key = s.getV ra ∧ t.ksv = false ∧
    t.rk = s.rk ∧ t.cp = s.cp + 1 ∧ KeepsBlocks s t ∧ KeepsMatrices s t ∧ t.hw = s.hw ∧ KeepsMemory s t ∧
    KeepsRunState s t ∧ KeepsInstance s t) ∧
  ∀ s : State, ∃ t, exec .keyexp s = .next t ∧ t.rk = keyExpansion s.key ∧ t.ksv = true ∧
    t.key = s.key ∧ t.cp = s.cp + 1 ∧ KeepsBlocks s t ∧ KeepsMatrices s t ∧ t.hw = s.hw ∧ KeepsMemory s t ∧
    KeepsRunState s t ∧ KeepsInstance s t

/-- `AESGEN` with a valid schedule: one XOR, nine full rounds, one last round, on the counter (R165, R166). -/
def Obligations.AesgenEncrypts : Prop :=
  ∀ (rd ra : VReg) (s : State), s.ksv = true →
    ∃ t, exec (.aesgen rd ra) s = .next t ∧ WritesBlock rd (t.getV rd) s t ∧
      ∃ x : Nat → Block, x 0 = s.getV ra ^^^ s.rk[0] ∧
        (∀ i (hi : i < 9), x (i + 1) = aesRound (x i) (s.rk[i + 1])) ∧
        t.getV rd = aesLastRound (x 9) s.rk[10]

/-- `KeyScheduleInvalid`, code 3, is what `AESGEN` and `GETRK` report while `KSV = 0`, and no other command ever
reports it, `ARSGEN` in particular (R266). -/
def Obligations.KeyScheduleInvalidFaults : Prop :=
  (∀ (rd ra : VReg) (s : State), s.ksv = false → ∃ t, exec (.aesgen rd ra) s = .next t ∧
    TakesFault .keyScheduleInvalid 0 s t ∧ causeField t.cause = 3) ∧
  (∀ (rd : VReg) (i : BitVec 4) (s : State), i.toNat ≤ 10 → s.ksv = false →
    ∃ t, exec (.getrk rd i) s = .next t ∧ TakesFault .keyScheduleInvalid 0 s t ∧
      causeField t.cause = 3) ∧
  ∀ (i : Instr) (s t : State), s.cause ≠ some .keyScheduleInvalid → exec i s = .next t →
    t.cause = some .keyScheduleInvalid →
    s.ksv = false ∧ ((∃ rd ra, i = .aesgen rd ra) ∨ ∃ rd k, i = .getrk rd k)

/-- `GETRK` copies the round key of its index (R168). -/
def Obligations.GetrkReadsRoundKey : Prop :=
  ∀ (rd : VReg) (i : BitVec 4) (s : State) (hi : i.toNat < 11), s.ksv = true →
    ∃ t, exec (.getrk rd i) s = .next t ∧ WritesBlock rd (s.rk[i.toNat]) s t

/-- `ARSGEN` in closed form: the key of round `i` is `KEY + i * WEYL` in each lane, rounds 1 to `R - 1` are full and
round `R` is the last (R181, R182). `KSV` plays no part. -/
def Obligations.ArsgenEncrypts : Prop :=
  ∀ (rd ra : VReg) (r : Byte) (s : State), r ≠ 0 →
    ∃ t, exec (.arsgen rd ra r) s = .next t ∧ WritesBlock rd (t.getV rd) s t ∧
      ∃ kk x : Nat → Block,
        (∀ i, (laneQ (kk i) 0).toNat = ((laneQ s.key 0).toNat + i * 0x9E3779B97F4A7C15) % 2 ^ 64 ∧
          (laneQ (kk i) 1).toNat = ((laneQ s.key 1).toNat + i * 0xBB67AE8584CAA73B) % 2 ^ 64) ∧
        x 0 = s.getV ra ^^^ s.key ∧
        (∀ i, i + 1 < r.toNat → x (i + 1) = aesRound (x i) (kk (i + 1))) ∧
        t.getV rd = aesLastRound (x (r.toNat - 1)) (kk r.toNat)

/-- For one key the two generators are bijections on blocks, so distinct counters give distinct outputs (R165,
R184). -/
def Obligations.GeneratorsAreBijections : Prop :=
  (∀ rk : Vector Block 11, Function.Bijective (aes128 rk)) ∧
  ∀ (key : Block) (r : Nat), 1 ≤ r → Function.Bijective fun c => ars key c r

/-! ## The matrix unit -/

/-- `GMUL` of two non-empty matrices that fit: the product, entry by entry (R191, R196). -/
def Obligations.GmulMultiplies : Prop :=
  ∀ (rd ra rb : MReg) (s : State), (s.getM ra).rows ≠ 0 → (s.getM rb).rows ≠ 0 →
    (s.getM ra).cols = (s.getM rb).rows →
    ∃ t, exec (.gmul rd ra rb) s = .next t ∧ WritesMatrix rd (t.getM rd) s t ∧
      (t.getM rd).rows = (s.getM ra).rows ∧ (t.getM rd).cols = (s.getM rb).cols ∧
      ∀ r c, r < (s.getM ra).rows.toNat → c < (s.getM rb).cols.toNat →
        (t.getM rd).bit r c =
          oddCount (s.getM ra).cols.toNat fun k => (s.getM ra).bit r k && (s.getM rb).bit k c

/-- `GAPPLY` of a non-empty matrix to a vector in row form that fits: the vector `A * x` (R194, R197). -/
def Obligations.GapplyApplies : Prop :=
  ∀ (rd ra rb : MReg) (s : State), (s.getM ra).rows ≠ 0 → (s.getM rb).rows = 1 →
    (s.getM rb).cols = (s.getM ra).cols →
    ∃ t, exec (.gapply rd ra rb) s = .next t ∧ WritesMatrix rd (t.getM rd) s t ∧
      (t.getM rd).rows = 1 ∧ (t.getM rd).cols = (s.getM ra).rows ∧
      ∀ r, r < (s.getM ra).rows.toNat →
        (t.getM rd).bit 0 r =
          oddCount (s.getM ra).cols.toNat fun c => (s.getM ra).bit r c && (s.getM rb).bit 0 c

/-- `GPOW` with exponent `p`: the product of `|p|` copies of `ma` for `p ≥ 0` and of `mb` for `p < 0`, only that source
being read; the identity for `p = 0` and a copy for `p = 1` and `p = -1` (R192, R198, R199). -/
def Obligations.GpowIsRepeatedProduct : Prop :=
  ∀ (rd ra rb src : MReg) (rc : VReg) (s : State) (p : Int), p = (laneQ (s.getV rc) 0).toInt →
    src = (if 0 ≤ p then ra else rb) → (s.getM src).rows ≠ 0 → (s.getM src).rows = (s.getM src).cols →
    ∃ t, exec (.gpow rd ra rb rc) s = .next t ∧
      WritesMatrix rd (productOfCopies (s.getM src) p.natAbs) s t ∧
      (p = 0 → t.getM rd = matIdent (s.getM ra).rows) ∧
      ((s.getM src).wf s.cfg.maxdim → p = 1 ∨ p = -1 → t.getM rd = s.getM src)

/-- `GDIM` reads the shape of a matrix register, an empty one too (R201). -/
def Obligations.GdimReadsShape : Prop :=
  ∀ (rd : VReg) (ra : MReg) (s : State), ∃ t, exec (.gdim rd ra) s = .next t ∧
    WritesBlock rd (t.getV rd) s t ∧ laneD (t.getV rd) 0 = (s.getM ra).rows ∧
    laneD (t.getV rd) 1 = (s.getM ra).cols ∧ laneD (t.getV rd) 2 = 0 ∧ laneD (t.getV rd) 3 = 0

/-- Where the matrix commands fault, in the order of their checks (R196, R197, R199, R270, R271, R274). -/
def Obligations.MatrixUnitFaults : Prop :=
  (∀ (rd ra rb : MReg) (s : State),
    ∃ t u, exec (.gmul rd ra rb) s = .next t ∧ exec (.gapply rd ra rb) s = .next u ∧
      ((s.getM ra).rows = 0 →
        TakesFault .matrixEmpty (ra.setWidth 64) s t ∧ TakesFault .matrixEmpty (ra.setWidth 64) s u) ∧
      ((s.getM ra).rows ≠ 0 → (s.getM rb).rows = 0 →
        TakesFault .matrixEmpty (rb.setWidth 64) s t ∧ TakesFault .matrixEmpty (rb.setWidth 64) s u) ∧
      ((s.getM ra).rows ≠ 0 → (s.getM rb).rows ≠ 0 → (s.getM ra).cols ≠ (s.getM rb).rows →
        TakesFault .dimMismatch 0 s t) ∧
      ((s.getM ra).rows ≠ 0 → (s.getM rb).rows ≠ 0 →
        (s.getM rb).rows ≠ 1 ∨ (s.getM rb).cols ≠ (s.getM ra).cols → TakesFault .dimMismatch 0 s u)) ∧
  ∀ (rd ra rb src : MReg) (rc : VReg) (s : State),
    src = (if 0 ≤ (laneQ (s.getV rc) 0).toInt then ra else rb) →
    ∃ t, exec (.gpow rd ra rb rc) s = .next t ∧
      ((s.getM src).rows = 0 → TakesFault .matrixEmpty (src.setWidth 64) s t) ∧
      ((s.getM src).rows ≠ 0 → (s.getM src).rows ≠ (s.getM src).cols → TakesFault .dimMismatch 0 s t)

/-- Jump-ahead: one application of `T` to the power `p` is `p` applications of `T` (R200). The exponents are those below
`2^64`, for which the model's power is defined (log 13); `GPOW` has none above `2^63`. -/
def Obligations.JumpAheadIsRepeatedSteps : Prop :=
  ∀ (x v : Matrix) (n p : Nat), p < 2 ^ 64 → x.rows = x.cols → v.rows = 1 → v.cols = x.cols → v.wf n →
    matApply (matPow x p) v = (matApply x)^[p] v

/-- The product is associative, application of a product is application twice, and powers of a square matrix add and
multiply in the exponent (R191, R192, R194). The exponents are those below `2^64`, for which the model's power is defined
(log 13); `GPOW` has none above `2^63`. -/
def Obligations.PowersAddAndMultiply : Prop :=
  (∀ a b c : Matrix, a.cols = b.rows → b.cols = c.rows → matMul (matMul a b) c = matMul a (matMul b c)) ∧
  (∀ a b v : Matrix, a.cols = b.rows → v.rows = 1 → v.cols = b.cols →
    matApply (matMul a b) v = matApply a (matApply b v)) ∧
  ∀ (x : Matrix) (p q : Nat), x.rows = x.cols → p < 2 ^ 64 → q < 2 ^ 64 →
    (p + q < 2 ^ 64 → matPow x (p + q) = matMul (matPow x p) (matPow x q)) ∧
    (p * q < 2 ^ 64 → matPow x (p * q) = matPow (matPow x p) q)

/-! ## Memory -/

/-- The two forms of an effective address: `imm20 * 16`, always aligned and at most `0xFFFFF0`; the low lane of the
base plus the signed displacement, modulo `2^64` (R94, R95, R230, R231). -/
def Obligations.EffectiveAddresses : Prop :=
  (∀ imm20 : BitVec 20, (absoluteEA imm20).toNat = 16 * imm20.toNat ∧ (absoluteEA imm20).toNat % 16 = 0 ∧
    (absoluteEA imm20).toNat ≤ 0xFFFFF0) ∧
  (∀ (base : Block) (imm12 : BitVec 12),
    ((indexedEA base imm12).toNat : Int) = ((laneQ base 0).toNat + imm12.toInt * 16) % 2 ^ 64) ∧
  indexedEA 0 0xFFF = 0xfffffffffffffff0

/-- `LDB` and `LDBX` in range and aligned: byte `i` of the register is the byte at `EA + i` (R62, R232, R233). -/
def Obligations.BlockLoad : Prop :=
  (∀ (rd : VReg) (imm20 : BitVec 20) (s : State), 16 * imm20.toNat + 16 ≤ s.cfg.memsize →
    ∃ t, exec (.ldb rd imm20) s = .next t ∧ WritesBlock rd (t.getV rd) s t ∧
      ∀ i, i < 16 → byteB (t.getV rd) i = s.dm.read (16 * imm20.toNat + i)) ∧
  ∀ (rd ra : VReg) (imm12 : BitVec 12) (s : State) (ea : Nat), ea = (indexedEA (s.getV ra) imm12).toNat →
    ea % 16 = 0 → ea + 16 ≤ s.cfg.memsize →
    ∃ t, exec (.ldbx rd ra imm12) s = .next t ∧ WritesBlock rd (t.getV rd) s t ∧
      ∀ i, i < 16 → byteB (t.getV rd) i = s.dm.read (ea + i)

/-- `STB` and `STBX` in range and aligned: byte `i` of the register is stored at `EA + i` and no other byte changes, nor
any register (R62, R234, R235). The data memory is in canonical form. -/
def Obligations.BlockStore : Prop :=
  (∀ (rd : VReg) (imm20 : BitVec 20) (s : State), s.dm.wf → 16 * imm20.toNat + 16 ≤ s.cfg.memsize →
    ∃ t, exec (.stb rd imm20) s = .next t ∧
      WritesMemory (16 * imm20.toNat) 16 (byteB (s.getV rd)) s t) ∧
  ∀ (rd ra : VReg) (imm12 : BitVec 12) (s : State) (ea : Nat), s.dm.wf →
    ea = (indexedEA (s.getV ra) imm12).toNat → ea % 16 = 0 → ea + 16 ≤ s.cfg.memsize →
    ∃ t, exec (.stbx rd ra imm12) s = .next t ∧ WritesMemory ea 16 (byteB (s.getV rd)) s t

/-- Where block accesses fault: alignment before range, `FINFO` the address (R246, R267, R268). -/
def Obligations.BlockAccessFaults : Prop :=
  (∀ (rd : VReg) (imm20 : BitVec 20) (s : State), s.cfg.memsize < 16 * imm20.toNat + 16 →
    ∃ t u, exec (.ldb rd imm20) s = .next t ∧ exec (.stb rd imm20) s = .next u ∧
      TakesFault .memAccess (imm20.setWidth 64 * 16) s t ∧
      TakesFault .memAccess (imm20.setWidth 64 * 16) s u) ∧
  ∀ (rd ra : VReg) (imm12 : BitVec 12) (s : State) (ea : DWord), ea = indexedEA (s.getV ra) imm12 →
    ∃ t u, exec (.ldbx rd ra imm12) s = .next t ∧ exec (.stbx rd ra imm12) s = .next u ∧
      (ea.toNat % 16 ≠ 0 → TakesFault .misaligned ea s t ∧ TakesFault .misaligned ea s u) ∧
      (ea.toNat % 16 = 0 → s.cfg.memsize < ea.toNat + 16 →
        TakesFault .memAccess ea s t ∧ TakesFault .memAccess ea s u)

/-- `GLD` and `GLDX` of a valid image: the register then holds the matrix whose image stands there, and nothing else
changes (R72, R73, R74, R236, R237). -/
def Obligations.MatrixLoad : Prop :=
  (∀ (rd : MReg) (imm20 : BitVec 20) (s : State) (ea : Nat), ea = 16 * imm20.toNat →
    ea + 8 ≤ s.cfg.memsize → ¬ BadImage s ea →
    ∃ t, exec (.gld rd imm20) s = .next t ∧ WritesMatrix rd (t.getM rd) s t ∧
      HoldsImage s.dm ea (t.getM rd) ∧ (t.getM rd).wf s.cfg.maxdim) ∧
  ∀ (rd : MReg) (ra : VReg) (imm12 : BitVec 12) (s : State) (ea : Nat),
    ea = (indexedEA (s.getV ra) imm12).toNat → ea % 16 = 0 → ea + 8 ≤ s.cfg.memsize → ¬ BadImage s ea →
    ∃ t, exec (.gldx rd ra imm12) s = .next t ∧ WritesMatrix rd (t.getM rd) s t ∧
      HoldsImage s.dm ea (t.getM rd) ∧ (t.getM rd).wf s.cfg.maxdim

/-- Where matrix transfers fault: a load on alignment, then header range, then the image's checks; a store on an empty
register, then alignment, then range (R74, R236 to R239, R267 to R270, R274). -/
def Obligations.MatrixTransferFaults : Prop :=
  (∀ (rd : MReg) (ra : VReg) (imm12 : BitVec 12) (s : State) (ea : DWord) (n : Nat),
    ea = indexedEA (s.getV ra) imm12 →
    n = 8 + (s.getM rd).rows.toNat * (((s.getM rd).cols.toNat + 7) / 8) →
    ∃ t u, exec (.gldx rd ra imm12) s = .next t ∧ exec (.gstx rd ra imm12) s = .next u ∧
      (ea.toNat % 16 ≠ 0 → TakesFault .misaligned ea s t) ∧
      (ea.toNat % 16 = 0 → s.cfg.memsize < ea.toNat + 8 → TakesFault .memAccess ea s t) ∧
      (ea.toNat % 16 = 0 → ea.toNat + 8 ≤ s.cfg.memsize → BadImage s ea.toNat →
        TakesFault .matrixFormat ea s t) ∧
      ((s.getM rd).rows = 0 → TakesFault .matrixEmpty (rd.setWidth 64) s u) ∧
      ((s.getM rd).rows ≠ 0 → ea.toNat % 16 ≠ 0 → TakesFault .misaligned ea s u) ∧
      ((s.getM rd).rows ≠ 0 → ea.toNat % 16 = 0 → s.cfg.memsize < ea.toNat + n →
        TakesFault .memAccess ea s u)) ∧
  ∀ (rd : MReg) (imm20 : BitVec 20) (s : State) (ea : DWord) (n : Nat),
    ea = imm20.setWidth 64 * 16 →
    n = 8 + (s.getM rd).rows.toNat * (((s.getM rd).cols.toNat + 7) / 8) →
    ∃ t u, exec (.gld rd imm20) s = .next t ∧ exec (.gst rd imm20) s = .next u ∧
      (s.cfg.memsize < ea.toNat + 8 → TakesFault .memAccess ea s t) ∧
      (ea.toNat + 8 ≤ s.cfg.memsize → BadImage s ea.toNat → TakesFault .matrixFormat ea s t) ∧
      ((s.getM rd).rows = 0 → TakesFault .matrixEmpty (rd.setWidth 64) s u) ∧
      ((s.getM rd).rows ≠ 0 → s.cfg.memsize < ea.toNat + n → TakesFault .memAccess ea s u)

/-- `GST` and `GSTX` of a non-empty register whose image fits, aligned: its image stands at the address, and no other
byte and no register changes (R72, R73, R238, R239). The data memory is in canonical form. -/
def Obligations.MatrixStore : Prop :=
  (∀ (rd : MReg) (imm20 : BitVec 20) (s : State) (ea n : Nat), s.dm.wf → (s.getM rd).rows ≠ 0 →
    ea = 16 * imm20.toNat → n = 8 + (s.getM rd).rows.toNat * (((s.getM rd).cols.toNat + 7) / 8) →
    ea + n ≤ s.cfg.memsize →
    ∃ t, exec (.gst rd imm20) s = .next t ∧ WritesMemory ea n (fun k => t.dm.read (ea + k)) s t ∧
      HoldsImage t.dm ea (s.getM rd)) ∧
  ∀ (rd : MReg) (ra : VReg) (imm12 : BitVec 12) (s : State) (ea n : Nat), s.dm.wf → (s.getM rd).rows ≠ 0 →
    ea = (indexedEA (s.getV ra) imm12).toNat → ea % 16 = 0 →
    n = 8 + (s.getM rd).rows.toNat * (((s.getM rd).cols.toNat + 7) / 8) → ea + n ≤ s.cfg.memsize →
    ∃ t, exec (.gstx rd ra imm12) s = .next t ∧ WritesMemory ea n (fun k => t.dm.read (ea + k)) s t ∧
      HoldsImage t.dm ea (s.getM rd)

/-- A block or a matrix that a store wrote is what a load from there reads, in the absolute forms and in the indexed
forms: an image written by `GST` or `GSTX` always passes the load's checks and gives the matrix back (R73, R76, R238,
R239). -/
def Obligations.StoredValuesLoadBack : Prop :=
  (∀ (vs vd : VReg) (imm20 : BitVec 20) (s : State), s.dm.wf → 16 * imm20.toNat + 16 ≤ s.cfg.memsize →
    ∃ t, execAll [.stb vs imm20, .ldb vd imm20] s = some t ∧ t.getV vd = s.getV vs) ∧
  (∀ (vs vd va : VReg) (imm12 : BitVec 12) (s : State) (ea : Nat), s.dm.wf →
    ea = (indexedEA (s.getV va) imm12).toNat → ea % 16 = 0 → ea + 16 ≤ s.cfg.memsize →
    ∃ t, execAll [.stbx vs va imm12, .ldbx vd va imm12] s = some t ∧ t.getV vd = s.getV vs) ∧
  (∀ (ms md : MReg) (imm20 : BitVec 20) (s : State), s.dm.wf → (s.getM ms).wf s.cfg.maxdim →
    (s.getM ms).rows ≠ 0 →
    16 * imm20.toNat + (8 + (s.getM ms).rows.toNat * (((s.getM ms).cols.toNat + 7) / 8)) ≤ s.cfg.memsize →
    ∃ t, execAll [.gst ms imm20, .gld md imm20] s = some t ∧ t.getM md = s.getM ms ∧ t.st = s.st) ∧
  ∀ (ms md : MReg) (va : VReg) (imm12 : BitVec 12) (s : State) (ea : Nat), s.dm.wf →
    (s.getM ms).wf s.cfg.maxdim → (s.getM ms).rows ≠ 0 → ea = (indexedEA (s.getV va) imm12).toNat →
    ea % 16 = 0 →
    ea + (8 + (s.getM ms).rows.toNat * (((s.getM ms).cols.toNat + 7) / 8)) ≤ s.cfg.memsize →
    ∃ t, execAll [.gstx ms va imm12, .gldx md va imm12] s = some t ∧ t.getM md = s.getM ms ∧ t.st = s.st
end

