-- ==== Sys2Proof/Laws/Decode.lean ====
section
/-!
SUPPORT. The fields of an encoded word are the fields it was encoded from (30_encoding.md R91, R92), and when the
checks of the decoder pass.
-/

namespace Sys2Proof

section
variable (op : BitVec 8) (rd ra rb : BitVec 4) (imm : BitVec 12) (imm20 : BitVec 20)

@[simp] theorem fieldOp_wordF : fieldOp (wordF op rd ra rb imm) = op := by
  ext j hj
  simp [fieldOp, wordF, hj, show 24 + j < 32 by omega, show ¬ 24 + j < 20 by omega,
    BitVec.getLsbD_of_ge rd (24 + j - 20) (by omega), show ¬ 24 + j < 16 by omega,
    BitVec.getLsbD_of_ge ra (24 + j - 16) (by omega), show ¬ 24 + j < 12 by omega,
    BitVec.getLsbD_of_ge rb (24 + j - 12) (by omega), BitVec.getLsbD_of_ge imm (24 + j) (by omega)]

@[simp] theorem fieldRd_wordF : fieldRd (wordF op rd ra rb imm) = rd := by
  ext j hj
  simp [fieldRd, wordF, hj, show 20 + j < 32 by omega, show 20 + j < 24 by omega,
    show ¬ 20 + j < 16 by omega, BitVec.getLsbD_of_ge ra (20 + j - 16) (by omega),
    show ¬ 20 + j < 12 by omega, BitVec.getLsbD_of_ge rb (20 + j - 12) (by omega),
    BitVec.getLsbD_of_ge imm (20 + j) (by omega)]

@[simp] theorem fieldRa_wordF : fieldRa (wordF op rd ra rb imm) = ra := by
  ext j hj
  simp [fieldRa, wordF, hj, show 16 + j < 32 by omega, show 16 + j < 24 by omega,
    show 16 + j < 20 by omega, show ¬ 16 + j < 12 by omega,
    BitVec.getLsbD_of_ge rb (16 + j - 12) (by omega), BitVec.getLsbD_of_ge imm (16 + j) (by omega)]

@[simp] theorem fieldRb_wordF : fieldRb (wordF op rd ra rb imm) = rb := by
  ext j hj
  simp [fieldRb, wordF, hj, show 12 + j < 32 by omega, show 12 + j < 24 by omega,
    show 12 + j < 20 by omega, show 12 + j < 16 by omega]

@[simp] theorem fieldImm12_wordF : fieldImm12 (wordF op rd ra rb imm) = imm := by
  ext j hj
  simp [fieldImm12, wordF, hj, show j < 32 by omega, show j < 24 by omega, show j < 20 by omega,
    show j < 16 by omega]

@[simp] theorem fieldOp_wordA : fieldOp (wordA op rd imm20) = op := by
  ext j hj
  simp [fieldOp, wordA, hj, show 24 + j < 32 by omega, show ¬ 24 + j < 20 by omega,
    BitVec.getLsbD_of_ge rd (24 + j - 20) (by omega), BitVec.getLsbD_of_ge imm20 (24 + j) (by omega)]

@[simp] theorem fieldRd_wordA : fieldRd (wordA op rd imm20) = rd := by
  ext j hj
  simp [fieldRd, wordA, hj, show 20 + j < 32 by omega, show 20 + j < 24 by omega]

@[simp] theorem fieldImm20_wordA : fieldImm20 (wordA op rd imm20) = imm20 := by
  ext j hj
  simp [fieldImm20, wordA, hj, show j < 32 by omega, show j < 24 by omega]

end

/-- A matrix register's field is legal and names it (R93). -/
@[simp] theorem isMatrix_mfield (m : MReg) : isMatrix (mfield m) = true := by
  have := m.isLt
  simp [isMatrix, mfield]
  omega

@[simp] theorem mreg_mfield (m : MReg) : mreg (mfield m) = m := by
  ext j hj
  simp [mreg, mfield, hj, show j < 4 by omega]

/-- When the checks (2) to (4) of R99 let a command through. -/
theorem checked_ok {zeros matrices : Bool} {value : Option DecodeError} {i j : Instr} :
    checked zeros matrices value i = .ok j ↔ zeros = true ∧ matrices = true ∧ value = none ∧ i = j := by
  cases zeros <;> cases matrices <;> cases value <;> simp [checked]

end Sys2Proof
end

