-- ==== Sys2Proof/Laws/Operands.lean ====
section
/-!
SUPPORT. The lanes of a value built from lanes, and a block is its bytes, its words or its double words.
-/

namespace Sys2Proof.Machine

theorem pack_getLsbD_zero {w n : Nat} (x : BitVec w) (xs : List (BitVec w)) (j : Nat) (hj : j < w)
    (h : w ≤ n) : (pack n (x :: xs)).getLsbD j = x.getLsbD j := by
  have : j < n := by omega
  simp [pack, hj, this]

theorem pack_getLsbD_succ {w n : Nat} (x : BitVec w) (xs : List (BitVec w)) (j : Nat) (h : w + j < n) :
    (pack n (x :: xs)).getLsbD (w + j) = (pack n xs).getLsbD j := by
  have h1 : ¬ w + j < w := by omega
  have h2 : j < n := by omega
  simp [pack, h, h1, h2, BitVec.getLsbD_eq_getElem]

/-- Bit `j` of lane `i` of a packed value. -/
theorem pack_getLsbD {w n : Nat} (xs : List (BitVec w)) (i j : Nat) (hj : j < w) (h : w * (i + 1) ≤ n)
    (hi : i < xs.length) : (pack n xs).getLsbD (w * i + j) = (xs[i]).getLsbD j := by
  induction xs generalizing i with
  | nil => simp at hi
  | cons x xs ih =>
    cases i with
    | zero =>
      have h' : w ≤ n := by simpa using h
      simpa using pack_getLsbD_zero x xs j hj h'
    | succ i =>
      have e1 : w * (i + 1 + 1) = w * (i + 1) + w := by ring
      have e2 : w * (i + 1) = w * i + w := by ring
      have e : w * (i + 1) + j = w + (w * i + j) := by omega
      rw [e, pack_getLsbD_succ x xs _ (by omega), ih i (by omega) (by simpa using hi)]
      simp

/-- Lane `i` of a packed value is element `i` of the list. -/
theorem pack_lane {w n : Nat} (xs : List (BitVec w)) (i : Nat) (h : w * (i + 1) ≤ n)
    (hi : i < xs.length) : (pack n xs).extractLsb' (w * i) w = xs[i] := by
  ext j hj
  simpa [hj] using pack_getLsbD xs i j hj h hi

/-- Byte `i` of the block with bytes `f`. -/
@[simp] theorem byteB_blockOfBytes (f : Nat → Byte) (i : Nat) (h : i < 16) :
    byteB (blockOfBytes f) i = f i := by
  have := pack_lane (n := 128) ((List.range 16).map f) i (by omega) (by simpa using h)
  simpa [byteB, blockOfBytes] using this

/-- Lane `d[j]` of the block with lanes `f`. -/
@[simp] theorem laneD_blockOfD (f : Nat → Word) (j : Nat) (h : j < 4) : laneD (blockOfD f) j = f j := by
  have := pack_lane (n := 128) ((List.range 4).map f) j (by omega) (by simpa using h)
  simpa [laneD, blockOfD] using this

/-- Lane `q[k]` of the block with lanes `f`. -/
@[simp] theorem laneQ_blockOfQ (f : Nat → DWord) (k : Nat) (h : k < 2) : laneQ (blockOfQ f) k = f k := by
  have := pack_lane (n := 128) ((List.range 2).map f) k (by omega) (by simpa using h)
  simpa [laneQ, blockOfQ] using this

/-- Lane `d[j]` of a block packed from four words. -/
theorem laneD_pack (xs : List Word) (j : Nat) (h : j < 4) (hl : j < xs.length) :
    laneD (pack 128 xs) j = xs[j] :=
  pack_lane (n := 128) xs j (by omega) hl

/-- A block is its sixteen bytes. -/
theorem block_ext_bytes {a b : Block} (h : ∀ i, i < 16 → byteB a i = byteB b i) : a = b := by
  apply BitVec.eq_of_getLsbD_eq
  intro n hn
  have := congrArg (fun x => x.getLsbD (n % 8)) (h (n / 8) (by omega))
  have e : 8 * (n / 8) + n % 8 = n := by omega
  have m : n % 8 < 8 := by omega
  simpa [byteB, e, m] using this

/-- A block is its four words. -/
theorem block_ext_words {a b : Block} (h : ∀ j, j < 4 → laneD a j = laneD b j) : a = b := by
  apply BitVec.eq_of_getLsbD_eq
  intro n hn
  have := congrArg (fun x => x.getLsbD (n % 32)) (h (n / 32) (by omega))
  have e : 32 * (n / 32) + n % 32 = n := by omega
  have m : n % 32 < 32 := by omega
  simpa [laneD, e, m] using this

/-- A block is its two double words. -/
theorem block_ext_double {a b : Block} (h : ∀ k, k < 2 → laneQ a k = laneQ b k) : a = b := by
  apply BitVec.eq_of_getLsbD_eq
  intro n hn
  have := congrArg (fun x => x.getLsbD (n % 64)) (h (n / 64) (by omega))
  have e : 64 * (n / 64) + n % 64 = n := by omega
  have m : n % 64 < 64 := by omega
  simpa [laneQ, e, m] using this

/-- An absolute address is `16 * imm20`, a multiple of 16 (R230). -/
theorem absoluteEA_toNat (imm20 : BitVec 20) : (absoluteEA imm20).toNat = 16 * imm20.toNat := by
  have := imm20.isLt
  simp [absoluteEA, BitVec.toNat_mul]
  omega

end Sys2Proof.Machine
end

