-- ==== Sys2Proof/Laws/State.lean ====
section
/-!
SUPPORT. What each update of the state leaves in each field, one lemma per field per update, and reading registers
after each update.
-/

namespace Sys2Proof.Machine

variable (s : State)

/-! ### `setV` -/

@[simp] theorem setV_cfg (r : VReg) (x : Block) : (s.setV r x).cfg = s.cfg := rfl
@[simp] theorem setV_v (r : VReg) (x : Block) : (s.setV r x).v = s.v.set r.toNat x r.isLt := rfl
@[simp] theorem setV_key (r : VReg) (x : Block) : (s.setV r x).key = s.key := rfl
@[simp] theorem setV_rk (r : VReg) (x : Block) : (s.setV r x).rk = s.rk := rfl
@[simp] theorem setV_ksv (r : VReg) (x : Block) : (s.setV r x).ksv = s.ksv := rfl
@[simp] theorem setV_hw (r : VReg) (x : Block) : (s.setV r x).hw = s.hw := rfl
@[simp] theorem setV_m (r : VReg) (x : Block) : (s.setV r x).m = s.m := rfl
@[simp] theorem setV_cp (r : VReg) (x : Block) : (s.setV r x).cp = s.cp := rfl
@[simp] theorem setV_st (r : VReg) (x : Block) : (s.setV r x).st = s.st := rfl
@[simp] theorem setV_cause (r : VReg) (x : Block) : (s.setV r x).cause = s.cause := rfl
@[simp] theorem setV_fcp (r : VReg) (x : Block) : (s.setV r x).fcp = s.fcp := rfl
@[simp] theorem setV_finfo (r : VReg) (x : Block) : (s.setV r x).finfo = s.finfo := rfl
@[simp] theorem setV_dm (r : VReg) (x : Block) : (s.setV r x).dm = s.dm := rfl
@[simp] theorem setV_cm (r : VReg) (x : Block) : (s.setV r x).cm = s.cm := rfl
@[simp] theorem setV_getM (r : VReg) (x : Block) (j : MReg) : (s.setV r x).getM j = s.getM j := rfl

/-! ### `setM` -/

@[simp] theorem setM_cfg (i : MReg) (x : Matrix) : (s.setM i x).cfg = s.cfg := rfl
@[simp] theorem setM_v (i : MReg) (x : Matrix) : (s.setM i x).v = s.v := rfl
@[simp] theorem setM_key (i : MReg) (x : Matrix) : (s.setM i x).key = s.key := rfl
@[simp] theorem setM_rk (i : MReg) (x : Matrix) : (s.setM i x).rk = s.rk := rfl
@[simp] theorem setM_ksv (i : MReg) (x : Matrix) : (s.setM i x).ksv = s.ksv := rfl
@[simp] theorem setM_hw (i : MReg) (x : Matrix) : (s.setM i x).hw = s.hw := rfl
@[simp] theorem setM_m (i : MReg) (x : Matrix) : (s.setM i x).m = s.m.set i.toNat x i.isLt := rfl
@[simp] theorem setM_cp (i : MReg) (x : Matrix) : (s.setM i x).cp = s.cp := rfl
@[simp] theorem setM_st (i : MReg) (x : Matrix) : (s.setM i x).st = s.st := rfl
@[simp] theorem setM_cause (i : MReg) (x : Matrix) : (s.setM i x).cause = s.cause := rfl
@[simp] theorem setM_fcp (i : MReg) (x : Matrix) : (s.setM i x).fcp = s.fcp := rfl
@[simp] theorem setM_finfo (i : MReg) (x : Matrix) : (s.setM i x).finfo = s.finfo := rfl
@[simp] theorem setM_dm (i : MReg) (x : Matrix) : (s.setM i x).dm = s.dm := rfl
@[simp] theorem setM_cm (i : MReg) (x : Matrix) : (s.setM i x).cm = s.cm := rfl
@[simp] theorem setM_getV (i : MReg) (x : Matrix) (q : VReg) : (s.setM i x).getV q = s.getV q := rfl

/-! ### `setKey` -/

@[simp] theorem setKey_cfg (k : Block) : (s.setKey k).cfg = s.cfg := rfl
@[simp] theorem setKey_v (k : Block) : (s.setKey k).v = s.v := rfl
@[simp] theorem setKey_key (k : Block) : (s.setKey k).key = k := rfl
@[simp] theorem setKey_rk (k : Block) : (s.setKey k).rk = s.rk := rfl
@[simp] theorem setKey_ksv (k : Block) : (s.setKey k).ksv = false := rfl
@[simp] theorem setKey_hw (k : Block) : (s.setKey k).hw = s.hw := rfl
@[simp] theorem setKey_m (k : Block) : (s.setKey k).m = s.m := rfl
@[simp] theorem setKey_cp (k : Block) : (s.setKey k).cp = s.cp := rfl
@[simp] theorem setKey_st (k : Block) : (s.setKey k).st = s.st := rfl
@[simp] theorem setKey_cause (k : Block) : (s.setKey k).cause = s.cause := rfl
@[simp] theorem setKey_fcp (k : Block) : (s.setKey k).fcp = s.fcp := rfl
@[simp] theorem setKey_finfo (k : Block) : (s.setKey k).finfo = s.finfo := rfl
@[simp] theorem setKey_dm (k : Block) : (s.setKey k).dm = s.dm := rfl
@[simp] theorem setKey_cm (k : Block) : (s.setKey k).cm = s.cm := rfl
@[simp] theorem setKey_getV (k : Block) (q : VReg) : (s.setKey k).getV q = s.getV q := rfl
@[simp] theorem setKey_getM (k : Block) (j : MReg) : (s.setKey k).getM j = s.getM j := rfl

/-! ### `setSchedule` -/

@[simp] theorem setSchedule_cfg (ks : Vector Block 11) : (s.setSchedule ks).cfg = s.cfg := rfl
@[simp] theorem setSchedule_v (ks : Vector Block 11) : (s.setSchedule ks).v = s.v := rfl
@[simp] theorem setSchedule_key (ks : Vector Block 11) : (s.setSchedule ks).key = s.key := rfl
@[simp] theorem setSchedule_rk (ks : Vector Block 11) : (s.setSchedule ks).rk = ks := rfl
@[simp] theorem setSchedule_ksv (ks : Vector Block 11) : (s.setSchedule ks).ksv = true := rfl
@[simp] theorem setSchedule_hw (ks : Vector Block 11) : (s.setSchedule ks).hw = s.hw := rfl
@[simp] theorem setSchedule_m (ks : Vector Block 11) : (s.setSchedule ks).m = s.m := rfl
@[simp] theorem setSchedule_cp (ks : Vector Block 11) : (s.setSchedule ks).cp = s.cp := rfl
@[simp] theorem setSchedule_st (ks : Vector Block 11) : (s.setSchedule ks).st = s.st := rfl
@[simp] theorem setSchedule_cause (ks : Vector Block 11) : (s.setSchedule ks).cause = s.cause := rfl
@[simp] theorem setSchedule_fcp (ks : Vector Block 11) : (s.setSchedule ks).fcp = s.fcp := rfl
@[simp] theorem setSchedule_finfo (ks : Vector Block 11) : (s.setSchedule ks).finfo = s.finfo := rfl
@[simp] theorem setSchedule_dm (ks : Vector Block 11) : (s.setSchedule ks).dm = s.dm := rfl
@[simp] theorem setSchedule_cm (ks : Vector Block 11) : (s.setSchedule ks).cm = s.cm := rfl
@[simp] theorem setSchedule_getV (ks : Vector Block 11) (q : VReg) : (s.setSchedule ks).getV q = s.getV q := rfl
@[simp] theorem setSchedule_getM (ks : Vector Block 11) (j : MReg) : (s.setSchedule ks).getM j = s.getM j := rfl

/-! ### `setHw` -/

@[simp] theorem setHw_cfg (b : Bool) : (s.setHw b).cfg = s.cfg := rfl
@[simp] theorem setHw_v (b : Bool) : (s.setHw b).v = s.v := rfl
@[simp] theorem setHw_key (b : Bool) : (s.setHw b).key = s.key := rfl
@[simp] theorem setHw_rk (b : Bool) : (s.setHw b).rk = s.rk := rfl
@[simp] theorem setHw_ksv (b : Bool) : (s.setHw b).ksv = s.ksv := rfl
@[simp] theorem setHw_hw (b : Bool) : (s.setHw b).hw = b := rfl
@[simp] theorem setHw_m (b : Bool) : (s.setHw b).m = s.m := rfl
@[simp] theorem setHw_cp (b : Bool) : (s.setHw b).cp = s.cp := rfl
@[simp] theorem setHw_st (b : Bool) : (s.setHw b).st = s.st := rfl
@[simp] theorem setHw_cause (b : Bool) : (s.setHw b).cause = s.cause := rfl
@[simp] theorem setHw_fcp (b : Bool) : (s.setHw b).fcp = s.fcp := rfl
@[simp] theorem setHw_finfo (b : Bool) : (s.setHw b).finfo = s.finfo := rfl
@[simp] theorem setHw_dm (b : Bool) : (s.setHw b).dm = s.dm := rfl
@[simp] theorem setHw_cm (b : Bool) : (s.setHw b).cm = s.cm := rfl
@[simp] theorem setHw_getV (b : Bool) (q : VReg) : (s.setHw b).getV q = s.getV q := rfl
@[simp] theorem setHw_getM (b : Bool) (j : MReg) : (s.setHw b).getM j = s.getM j := rfl

/-! ### `setDm` -/

@[simp] theorem setDm_cfg (d : Memory) : (s.setDm d).cfg = s.cfg := rfl
@[simp] theorem setDm_v (d : Memory) : (s.setDm d).v = s.v := rfl
@[simp] theorem setDm_key (d : Memory) : (s.setDm d).key = s.key := rfl
@[simp] theorem setDm_rk (d : Memory) : (s.setDm d).rk = s.rk := rfl
@[simp] theorem setDm_ksv (d : Memory) : (s.setDm d).ksv = s.ksv := rfl
@[simp] theorem setDm_hw (d : Memory) : (s.setDm d).hw = s.hw := rfl
@[simp] theorem setDm_m (d : Memory) : (s.setDm d).m = s.m := rfl
@[simp] theorem setDm_cp (d : Memory) : (s.setDm d).cp = s.cp := rfl
@[simp] theorem setDm_st (d : Memory) : (s.setDm d).st = s.st := rfl
@[simp] theorem setDm_cause (d : Memory) : (s.setDm d).cause = s.cause := rfl
@[simp] theorem setDm_fcp (d : Memory) : (s.setDm d).fcp = s.fcp := rfl
@[simp] theorem setDm_finfo (d : Memory) : (s.setDm d).finfo = s.finfo := rfl
@[simp] theorem setDm_dm (d : Memory) : (s.setDm d).dm = d := rfl
@[simp] theorem setDm_cm (d : Memory) : (s.setDm d).cm = s.cm := rfl
@[simp] theorem setDm_getV (d : Memory) (q : VReg) : (s.setDm d).getV q = s.getV q := rfl
@[simp] theorem setDm_getM (d : Memory) (j : MReg) : (s.setDm d).getM j = s.getM j := rfl

/-! ### `advance` -/

@[simp] theorem advance_cfg : (s.advance).cfg = s.cfg := rfl
@[simp] theorem advance_v : (s.advance).v = s.v := rfl
@[simp] theorem advance_key : (s.advance).key = s.key := rfl
@[simp] theorem advance_rk : (s.advance).rk = s.rk := rfl
@[simp] theorem advance_ksv : (s.advance).ksv = s.ksv := rfl
@[simp] theorem advance_hw : (s.advance).hw = s.hw := rfl
@[simp] theorem advance_m : (s.advance).m = s.m := rfl
@[simp] theorem advance_cp : (s.advance).cp = s.cp + 1 := rfl
@[simp] theorem advance_st : (s.advance).st = s.st := rfl
@[simp] theorem advance_cause : (s.advance).cause = s.cause := rfl
@[simp] theorem advance_fcp : (s.advance).fcp = s.fcp := rfl
@[simp] theorem advance_finfo : (s.advance).finfo = s.finfo := rfl
@[simp] theorem advance_dm : (s.advance).dm = s.dm := rfl
@[simp] theorem advance_cm : (s.advance).cm = s.cm := rfl
@[simp] theorem advance_getV (q : VReg) : (s.advance).getV q = s.getV q := rfl
@[simp] theorem advance_getM (j : MReg) : (s.advance).getM j = s.getM j := rfl

/-! ### `halt` -/

@[simp] theorem halt_cfg : (s.halt).cfg = s.cfg := rfl
@[simp] theorem halt_v : (s.halt).v = s.v := rfl
@[simp] theorem halt_key : (s.halt).key = s.key := rfl
@[simp] theorem halt_rk : (s.halt).rk = s.rk := rfl
@[simp] theorem halt_ksv : (s.halt).ksv = s.ksv := rfl
@[simp] theorem halt_hw : (s.halt).hw = s.hw := rfl
@[simp] theorem halt_m : (s.halt).m = s.m := rfl
@[simp] theorem halt_cp : (s.halt).cp = s.cp := rfl
@[simp] theorem halt_st : (s.halt).st = .halted := rfl
@[simp] theorem halt_cause : (s.halt).cause = s.cause := rfl
@[simp] theorem halt_fcp : (s.halt).fcp = s.fcp := rfl
@[simp] theorem halt_finfo : (s.halt).finfo = s.finfo := rfl
@[simp] theorem halt_dm : (s.halt).dm = s.dm := rfl
@[simp] theorem halt_cm : (s.halt).cm = s.cm := rfl
@[simp] theorem halt_getV (q : VReg) : (s.halt).getV q = s.getV q := rfl
@[simp] theorem halt_getM (j : MReg) : (s.halt).getM j = s.getM j := rfl

/-! ### `takeFault` -/

@[simp] theorem takeFault_cfg (c : Cause) (info : DWord) : (s.takeFault c info).cfg = s.cfg := rfl
@[simp] theorem takeFault_v (c : Cause) (info : DWord) : (s.takeFault c info).v = s.v := rfl
@[simp] theorem takeFault_key (c : Cause) (info : DWord) : (s.takeFault c info).key = s.key := rfl
@[simp] theorem takeFault_rk (c : Cause) (info : DWord) : (s.takeFault c info).rk = s.rk := rfl
@[simp] theorem takeFault_ksv (c : Cause) (info : DWord) : (s.takeFault c info).ksv = s.ksv := rfl
@[simp] theorem takeFault_hw (c : Cause) (info : DWord) : (s.takeFault c info).hw = s.hw := rfl
@[simp] theorem takeFault_m (c : Cause) (info : DWord) : (s.takeFault c info).m = s.m := rfl
@[simp] theorem takeFault_cp (c : Cause) (info : DWord) : (s.takeFault c info).cp = s.cp := rfl
@[simp] theorem takeFault_st (c : Cause) (info : DWord) : (s.takeFault c info).st = .faulted := rfl
@[simp] theorem takeFault_cause (c : Cause) (info : DWord) : (s.takeFault c info).cause = some c := rfl
@[simp] theorem takeFault_fcp (c : Cause) (info : DWord) : (s.takeFault c info).fcp = s.cp := rfl
@[simp] theorem takeFault_finfo (c : Cause) (info : DWord) : (s.takeFault c info).finfo = info := rfl
@[simp] theorem takeFault_dm (c : Cause) (info : DWord) : (s.takeFault c info).dm = s.dm := rfl
@[simp] theorem takeFault_cm (c : Cause) (info : DWord) : (s.takeFault c info).cm = s.cm := rfl
@[simp] theorem takeFault_getV (c : Cause) (info : DWord) (q : VReg) : (s.takeFault c info).getV q = s.getV q := rfl
@[simp] theorem takeFault_getM (c : Cause) (info : DWord) (j : MReg) : (s.takeFault c info).getM j = s.getM j := rfl

/-! ### `started` -/

@[simp] theorem started_cfg : (s.started).cfg = s.cfg := rfl
@[simp] theorem started_v : (s.started).v = s.v := rfl
@[simp] theorem started_key : (s.started).key = s.key := rfl
@[simp] theorem started_rk : (s.started).rk = s.rk := rfl
@[simp] theorem started_ksv : (s.started).ksv = s.ksv := rfl
@[simp] theorem started_hw : (s.started).hw = s.hw := rfl
@[simp] theorem started_m : (s.started).m = s.m := rfl
@[simp] theorem started_cp : (s.started).cp = s.cp := rfl
@[simp] theorem started_st : (s.started).st = .run := rfl
@[simp] theorem started_cause : (s.started).cause = none := rfl
@[simp] theorem started_fcp : (s.started).fcp = s.fcp := rfl
@[simp] theorem started_finfo : (s.started).finfo = s.finfo := rfl
@[simp] theorem started_dm : (s.started).dm = s.dm := rfl
@[simp] theorem started_cm : (s.started).cm = s.cm := rfl
@[simp] theorem started_getV (q : VReg) : (s.started).getV q = s.getV q := rfl
@[simp] theorem started_getM (j : MReg) : (s.started).getM j = s.getM j := rfl

/-! ### Registers read after they are written -/

theorem getV_setV (r q : VReg) (x : Block) : (s.setV r x).getV q = if q = r then x else s.getV q := by
  simp only [State.getV, State.setV, Vector.getElem_set, BitVec.toNat_inj, eq_comm]

@[simp] theorem getV_setV_same (r : VReg) (x : Block) : (s.setV r x).getV r = x := by
  simp [getV_setV]

theorem getV_setV_ne (r q : VReg) (x : Block) (h : q ≠ r) : (s.setV r x).getV q = s.getV q := by
  simp [getV_setV, h]

theorem getM_setM (i j : MReg) (x : Matrix) : (s.setM i x).getM j = if j = i then x else s.getM j := by
  simp only [State.getM, State.setM, Vector.getElem_set, BitVec.toNat_inj, eq_comm]

@[simp] theorem getM_setM_same (i : MReg) (x : Matrix) : (s.setM i x).getM i = x := by
  simp [getM_setM]

theorem getM_setM_ne (i j : MReg) (x : Matrix) (h : j ≠ i) : (s.setM i x).getM j = s.getM j := by
  simp [getM_setM, h]

/-! ### Reset -/

theorem afterReset_getV (c : Config) (dm : Memory) (cm : CmdMemory) (r : VReg) :
    (State.afterReset c dm cm).getV r = 0 := by
  simp [State.afterReset, State.getV]

theorem afterReset_getM (c : Config) (dm : Memory) (cm : CmdMemory) (i : MReg) :
    (State.afterReset c dm cm).getM i = Matrix.empty := by
  simp [State.afterReset, State.getM]

end Sys2Proof.Machine
end

