-- ==== Sys2Proof/Laws/Ops.lean ====
section
/-!
SUPPORT. For each shared operation, what it can do, said once: memories keep their canonical form and read back what
was written, a matrix built from a function has that function's entries, and the loads and stores end in one of the
cases named.
-/

namespace Sys2Proof.Machine

/-! ## Memories -/

variable {w : Nat}

/-- An entry of a written memory is an entry of the memory before, or the one written. -/
theorem mem_write {m : Store w} {a : Nat} {x : BitVec w} {e : Nat × BitVec w}
    (h : e ∈ m.write a x) : e ∈ m ∨ e = (a, x) := by
  induction m with
  | nil =>
    simp only [Store.write] at h
    split at h <;> simp_all
  | cons c m ih =>
    obtain ⟨b, y⟩ := c
    simp only [Store.write] at h
    split at h
    · split at h
      · exact .inl h
      · simp only [List.mem_cons] at h ⊢; tauto
    · split at h
      · split at h <;> simp only [List.mem_cons] at h ⊢ <;> tauto
      · simp only [List.mem_cons] at h ⊢
        rcases h with h | h
        · exact .inl (.inl h)
        · rcases ih h with h | h <;> tauto

/-- A write keeps the canonical form. -/
theorem write_wf {m : Store w} (h : Store.wf m) (a : Nat) (x : BitVec w) : Store.wf (m.write a x) := by
  induction m with
  | nil =>
    simp only [Store.write]
    split <;> simp_all [Store.wf]
  | cons c m ih =>
    obtain ⟨b, y⟩ := c
    obtain ⟨hp, hn⟩ := h
    have hm : Store.wf m := ⟨hp.tail, fun e he => hn e (by simp [he])⟩
    have hb : ∀ e ∈ m, b < e.1 := fun _ he => List.rel_of_pairwise_cons hp he
    simp only [Store.write]
    split
    · split
      · exact ⟨hp, hn⟩
      · refine ⟨List.pairwise_cons.2 ⟨?_, hp⟩, ?_⟩
        · intro e he
          rcases List.mem_cons.1 he with rfl | he
          · assumption
          · exact Nat.lt_trans ‹_› (hb e he)
        · intro e he
          rcases List.mem_cons.1 he with rfl | he
          · assumption
          · exact hn e he
    · split
      · subst_vars
        split
        · exact hm
        · refine ⟨List.pairwise_cons.2 ⟨hb, hp.tail⟩, ?_⟩
          intro e he
          rcases List.mem_cons.1 he with rfl | he
          · assumption
          · exact hn e (by simp [he])
      · have ih := ih hm
        refine ⟨List.pairwise_cons.2 ⟨?_, ih.1⟩, ?_⟩
        · intro e he
          rcases mem_write he with he | rfl
          · exact hb e he
          · show b < a
            omega
        · intro e he
          rcases List.mem_cons.1 he with rfl | he
          · exact hn _ (by simp)
          · exact ih.2 e he

/-- In a list of rising addresses above `a` nothing is listed at `a`. -/
theorem read_of_lt {m : Store w} {a : Nat} (h : ∀ e ∈ m, a < e.1) : m.read a = Config.unwritten w := by
  induction m with
  | nil => rfl
  | cons c m ih =>
    obtain ⟨b, y⟩ := c
    have hb : a < b := h (b, y) (by simp)
    simp only [Store.read]
    rw [if_neg (by omega)]
    exact ih fun e he => h e (by simp [he])

/-- A location reads as what was written to it (R62). -/
theorem read_write_same {m : Store w} (h : Store.wf m) (a : Nat) (x : BitVec w) :
    (m.write a x).read a = x := by
  induction m with
  | nil =>
    simp only [Store.write]
    split <;> simp_all [Store.read]
  | cons c m ih =>
    obtain ⟨b, y⟩ := c
    obtain ⟨hp, hn⟩ := h
    have hb : ∀ e ∈ m, b < e.1 := fun _ he => List.rel_of_pairwise_cons hp he
    simp only [Store.write]
    split
    · split
      · subst_vars
        refine read_of_lt fun e he => ?_
        rcases List.mem_cons.1 he with rfl | he
        · assumption
        · exact Nat.lt_trans ‹_› (hb e he)
      · simp [Store.read]
    · split
      · subst_vars
        split
        · subst_vars
          exact read_of_lt hb
        · simp [Store.read]
      · rw [Store.read, if_neg (by omega)]
        exact ih ⟨hp.tail, fun e he => hn e (by simp [he])⟩

/-- A write leaves every other location alone (R62). -/
theorem read_write_ne {m : Store w} {a b : Nat} (x : BitVec w) (h : b ≠ a) :
    (m.write a x).read b = m.read b := by
  induction m with
  | nil =>
    simp only [Store.write]
    split <;> simp [Store.read, h.symm]
  | cons c m ih =>
    obtain ⟨d, y⟩ := c
    simp only [Store.write]
    split
    · split
      · rfl
      · rw [Store.read, if_neg (Ne.symm h)]
    · split
      · subst_vars
        split <;> simp [Store.read, h.symm]
      · simp only [Store.read, ih]

theorem writeBytes_wf {dm : Memory} (h : dm.wf) (a : Nat) (bs : List Byte) : (writeBytes dm a bs).wf := by
  induction bs generalizing dm a with
  | nil => exact h
  | cons b bs ih => exact ih (write_wf h a b) (a + 1)

/-- Storing bytes within a bound keeps a memory within it. -/
theorem writeBytes_bound {dm : Memory} {n a : Nat} {bs : List Byte} (h : ∀ e ∈ dm, e.1 < n)
    (hn : a + bs.length ≤ n) : ∀ e ∈ writeBytes dm a bs, e.1 < n := by
  induction bs generalizing dm a with
  | nil => exact h
  | cons b bs ih =>
    simp only [List.length_cons] at hn
    refine ih (fun e he => ?_) (by omega)
    rcases mem_write he with he | rfl
    · exact h e he
    · show a < n
      omega

/-- Bytes outside those stored read as before (R62). -/
theorem read_writeBytes_outside (dm : Memory) (a : Nat) (bs : List Byte) {b : Nat}
    (h : b < a ∨ a + bs.length ≤ b) : (writeBytes dm a bs).read b = dm.read b := by
  induction bs generalizing dm a with
  | nil => rfl
  | cons x bs ih =>
    simp only [List.length_cons] at h
    rw [writeBytes, ih _ _ (by omega), read_write_ne x (by omega)]

/-- The bytes stored read back (R62). -/
theorem read_writeBytes_inside {dm : Memory} (h : dm.wf) (a : Nat) (bs : List Byte) {k : Nat}
    (hk : k < bs.length) : (writeBytes dm a bs).read (a + k) = bs[k] := by
  induction bs generalizing dm a k with
  | nil => simp at hk
  | cons x bs ih =>
    cases k with
    | zero =>
      rw [writeBytes, read_writeBytes_outside _ _ _ (by omega)]
      simpa using read_write_same h a x
    | succ k =>
      have e : a + (k + 1) = a + 1 + k := by omega
      rw [e, writeBytes, ih (write_wf h a x) (a + 1) (by simpa using hk)]
      simp

@[simp] theorem bytesOf_length {v : Nat} (n : Nat) (x : BitVec v) : (bytesOf n x).length = n := by
  simp [bytesOf]

/-- Byte `i` of a block read from memory is the byte at address `a + i` (R62). -/
theorem byteB_readBlock (dm : Memory) (a i : Nat) (h : i < 16) :
    byteB (readBlock dm a) i = dm.read (a + i) := by
  have := pack_lane (n := 128) (readBytes dm a 16) i (by omega) (by simpa [readBytes] using h)
  simpa [byteB, readBlock, readBytes] using this

/-! ## Matrices -/

/-- An entry of a matrix built from a function (R15). -/
theorem matrixOf_bit (rows cols : Word) (f : Nat → Nat → Bool) (r c : Nat) :
    (matrixOf rows cols f).bit r c = (decide (r < rows.toNat) && decide (c < cols.toNat) && f r c) := by
  by_cases hr : r < rows.toNat <;> by_cases hc : c < cols.toNat <;>
    simp [matrixOf, Matrix.bit, List.getD_eq_getElem?_getD, hr, hc]

@[simp] theorem matrixOf_rows (rows cols : Word) (f : Nat → Nat → Bool) :
    (matrixOf rows cols f).rows = rows := rfl

@[simp] theorem matrixOf_cols (rows cols : Word) (f : Nat → Nat → Bool) :
    (matrixOf rows cols f).cols = cols := rfl

/-- A matrix built from a function is one a register can hold, if its dimensions are. -/
theorem matrixOf_wf {maxdim : Nat} {rows cols : Word} (f : Nat → Nat → Bool) (hr : rows.toNat ≤ maxdim)
    (hc : cols.toNat ≤ maxdim) (h0 : rows = 0 ↔ cols = 0) : (matrixOf rows cols f).wf maxdim := by
  refine ⟨hr, hc, h0, by simp [matrixOf], ?_⟩
  intro row h
  simp only [matrixOf, List.mem_map] at h
  obtain ⟨r, -, rfl⟩ := h
  simp

/-- Two matrices of one shape that a register can hold are equal when their entries are (R190). -/
theorem matrix_ext {n : Nat} {x y : Matrix} (hx : x.wf n) (hy : y.wf n) (hr : x.rows = y.rows)
    (hc : x.cols = y.cols)
    (h : ∀ r c, r < x.rows.toNat → c < x.cols.toNat → x.bit r c = y.bit r c) : x = y := by
  obtain ⟨xr, xc, xd⟩ := x
  obtain ⟨yr, yc, yd⟩ := y
  simp only at hr hc
  subst hr hc
  obtain ⟨-, -, -, lx, wx⟩ := hx
  obtain ⟨-, -, -, ly, wy⟩ := hy
  simp only at lx ly wx wy
  congr 1
  refine List.ext_getElem (by omega) fun r hr hr' => ?_
  have hxr := wx _ (List.getElem_mem hr)
  have hyr := wy _ (List.getElem_mem hr')
  refine List.ext_getElem (by omega) fun c hc hc' => ?_
  have := h r c (by simpa [← lx] using hr) (by simpa [← hxr] using hc)
  simpa [Matrix.bit, List.getD_eq_getElem?_getD, hr, hr', hc, hc'] using this

/-! ## Completing and faulting -/

theorem complete_eq (s : State) : complete s = .next s.advance := rfl

theorem raise_eq (c : Cause) (info : DWord) (s : State) : raise c info s = .next (s.takeFault c info) := rfl

/-- A block load faults or completes (R246). -/
theorem loadBlock_cases (rd : VReg) (ea : DWord) (s : State) :
    (∃ c, blockFault s ea = some c ∧ loadBlock rd ea s = .next (s.takeFault c ea)) ∨
    (blockFault s ea = none ∧
      loadBlock rd ea s = .next (s.setV rd (readBlock s.dm ea.toNat)).advance) := by
  unfold loadBlock
  cases h : blockFault s ea with
  | some c => exact .inl ⟨c, rfl, rfl⟩
  | none => exact .inr ⟨rfl, rfl⟩

/-- A block store faults or completes (R246). -/
theorem storeBlock_cases (rd : VReg) (ea : DWord) (s : State) :
    (∃ c, blockFault s ea = some c ∧ storeBlock rd ea s = .next (s.takeFault c ea)) ∨
    (blockFault s ea = none ∧
      storeBlock rd ea s = .next (s.setDm (writeBlock s.dm ea.toNat (s.getV rd))).advance) := by
  unfold storeBlock
  cases h : blockFault s ea with
  | some c => exact .inl ⟨c, rfl, rfl⟩
  | none => exact .inr ⟨rfl, rfl⟩

/-- A matrix load faults or completes (R236, R237). -/
theorem loadMatrix_cases (rd : MReg) (ea : DWord) (s : State) :
    (∃ c, matrixLoadFault s ea = some c ∧ loadMatrix rd ea s = .next (s.takeFault c ea)) ∨
    (matrixLoadFault s ea = none ∧
      loadMatrix rd ea s = .next (s.setM rd (matRead s.dm ea.toNat)).advance) := by
  unfold loadMatrix
  cases h : matrixLoadFault s ea with
  | some c => exact .inl ⟨c, rfl, rfl⟩
  | none => exact .inr ⟨rfl, rfl⟩

/-- A matrix store faults or completes (R238, R239). -/
theorem storeMatrix_cases (rd : MReg) (ea : DWord) (s : State) :
    (∃ c info, matrixStoreFault s rd ea = some (c, info) ∧
      storeMatrix rd ea s = .next (s.takeFault c info)) ∨
    (matrixStoreFault s rd ea = none ∧
      storeMatrix rd ea s = .next (s.setDm (matWrite s.dm ea.toNat (s.getM rd))).advance) := by
  unfold storeMatrix
  cases h : matrixStoreFault s rd ea with
  | some p => exact .inl ⟨p.1, p.2, rfl, rfl⟩
  | none => exact .inr ⟨rfl, rfl⟩

/-- No fault of a block access: aligned and in range (R246). -/
theorem blockFault_none {s : State} {ea : DWord} :
    blockFault s ea = none ↔ ea.toNat % 16 = 0 ∧ ea.toNat + 16 ≤ s.cfg.memsize := by
  unfold blockFault
  split
  · simp_all
  · split
    · simp_all
    · simp_all

/-- The length of an image is `imglen` (R72). -/
theorem imageBytes_length (x : Matrix) :
    (imageBytes x).length = imgLen x.rows.toNat x.cols.toNat := by
  simp [imageBytes, imgLen, List.length_flatMap]
  omega

end Sys2Proof.Machine
end

