-- ==== Sys2Proof/Laws/Exec.lean ====
section
/-!
SUPPORT. What a command can do, said once: the inversion of `exec` and of `step`. A proof about every command goes
through `exec_effect` and never unfolds the 32 meanings.
-/

namespace Sys2Proof.Machine

open Sys2Proof.Safety

/-- The states a command can lead to from `s`. -/
inductive Effect (i : Instr) (s : State) : State → Prop where
  /-- It faults (R262). -/
  | fault (c : Cause) (info : DWord) : Effect i s (s.takeFault c info)
  /-- `HALT` (R241). -/
  | halt (h : i = .halt) : Effect i s s.halt
  /-- `NOP` (R240). -/
  | nop (h : i = .nop) : Effect i s s.advance
  /-- It writes the block register it names, and no flag. -/
  | block (rd : VReg) (x : Block) (h : destinationBlock i = some rd) (hm : ∀ r m, i ≠ .sethw r m) :
      Effect i s (s.setV rd x).advance
  /-- It writes the matrix register it names with a matrix that fits whenever the sources do. -/
  | matrix (rd : MReg) (x : Matrix) (h : destinationMatrix i = some rd)
      (hx : (∀ j, (s.getM j).wf s.cfg.maxdim) → x.wf s.cfg.maxdim) : Effect i s (s.setM rd x).advance
  /-- It writes bytes of its write set, all within the data memory. -/
  | store (bs : List Byte) (h : bs.length = (writeSet i s).2)
      (hr : (writeSet i s).1 + (writeSet i s).2 ≤ s.cfg.memsize) :
      Effect i s (s.setDm (writeBytes s.dm (writeSet i s).1 bs)).advance
  /-- `SETHW` (R243). -/
  | mode (rd : VReg) (m : Bool) (h : i = .sethw rd m) (hc : m = true → s.cfg.hwcap = true) :
      Effect i s ((s.setV rd ((BitVec.ofBool s.hw).setWidth 128)).setHw m).advance
  /-- `SETKEY` (R161). -/
  | key (ra : VReg) (h : i = .setkey ra) : Effect i s (s.setKey (s.getV ra)).advance
  /-- `KEYEXP` (R163). -/
  | schedule (h : i = .keyexp) : Effect i s (s.setSchedule (keyExpansion s.key)).advance

theorem matMul_wf {n : Nat} {a b : Matrix} (ha : a.wf n) (hb : b.wf n) (h : a.rows ≠ 0) (h' : b.rows ≠ 0) :
    (matMul a b).wf n :=
  matrixOf_wf _ ha.1 hb.2.1 (by have := hb.2.2.1; simp_all)

theorem matIdent_wf {n : Nat} {d : Word} (h : d.toNat ≤ n) : (matIdent d).wf n := matrixOf_wf _ h h Iff.rfl

@[simp] theorem matMul_rows (a b : Matrix) : (matMul a b).rows = a.rows := rfl
@[simp] theorem matMul_cols (a b : Matrix) : (matMul a b).cols = b.cols := rfl
@[simp] theorem matIdent_rows (n : Word) : (matIdent n).rows = n := rfl
@[simp] theorem matIdent_cols (n : Word) : (matIdent n).cols = n := rfl
@[simp] theorem matApply_rows (a x : Matrix) : (matApply a x).rows = 1 := rfl
@[simp] theorem matApply_cols (a x : Matrix) : (matApply a x).cols = a.rows := rfl

@[simp] theorem matPowFuel_rows (x : Matrix) (f e : Nat) : (matPowFuel x f e).rows = x.rows := by
  induction f generalizing e with
  | zero => rfl
  | succ f ih => simp only [matPowFuel]; split <;> try split
                 all_goals simp [ih]

@[simp] theorem matPow_rows (x : Matrix) (e : Nat) : (matPow x e).rows = x.rows := matPowFuel_rows x 64 e

theorem matPowFuel_wf {n : Nat} {x : Matrix} (hx : x.wf n) (h : x.rows ≠ 0) (f e : Nat) :
    (matPowFuel x f e).wf n := by
  induction f generalizing e with
  | zero => exact matIdent_wf hx.1
  | succ f ih =>
    simp only [matPowFuel]
    split
    · exact matIdent_wf hx.1
    · have := matMul_wf (ih (e / 2)) (ih (e / 2)) (by simpa using h) (by simpa using h)
      split
      · exact this
      · exact matMul_wf this hx (by simpa using h) h

/-- A valid image is the image of a matrix that fits (R74). -/
theorem matRead_wf {s : State} {ea : Nat} (h : imageValid s ea = true) :
    (matRead s.dm ea).wf s.cfg.maxdim := by
  simp only [imageValid] at h
  split at h
  · cases h
  · split at h
    · cases h
    · refine matrixOf_wf _ (by omega) (by omega) ?_
      constructor <;> intro h0 <;> simp_all

theorem effect_result {i : Instr} {rd : VReg} {x : Block} {s t : State} (hd : destinationBlock i = some rd)
    (hm : ∀ r m, i ≠ .sethw r m) (h : complete (s.setV rd x) = .next t) : Effect i s t := by
  rw [complete_eq] at h
  cases h
  exact .block rd x hd hm

theorem effect_raise {i : Instr} {c : Cause} {info : DWord} {s t : State} (h : raise c info s = .next t) :
    Effect i s t := by
  rw [raise_eq] at h
  cases h
  exact .fault c info

theorem effect_schedule {i : Instr} {rd : VReg} {x : Block} {s t : State} (hd : destinationBlock i = some rd)
    (hm : ∀ r m, i ≠ .sethw r m) (h : withSchedule rd x s = .next t) : Effect i s t := by
  unfold withSchedule at h
  split at h
  · exact effect_result hd hm h
  · exact effect_raise h

theorem effect_load {i : Instr} {rd : VReg} {ea : DWord} {s t : State} (hd : destinationBlock i = some rd)
    (hm : ∀ r m, i ≠ .sethw r m) (h : loadBlock rd ea s = .next t) : Effect i s t := by
  unfold loadBlock at h
  split at h
  · exact effect_raise h
  · exact effect_result hd hm h

theorem effect_store {i : Instr} {rd : VReg} {ea : DWord} {s t : State} (hw : writeSet i s = blockWriteSet s ea)
    (h : storeBlock rd ea s = .next t) : Effect i s t := by
  unfold storeBlock at h
  split at h
  · exact effect_raise h
  · next hf =>
    rw [complete_eq] at h
    cases h
    have e : writeSet i s = (ea.toNat, 16) := by simp [hw, blockWriteSet, hf]
    have hr := (blockFault_none.1 hf).2
    have := Effect.store (i := i) (s := s) (bytesOf 16 (s.getV rd)) (by simp [e]) (by simpa [e] using hr)
    simpa [e, writeBlock] using this

theorem effect_matrix {i : Instr} {rd : MReg} {x : Matrix} {s t : State} (hd : destinationMatrix i = some rd)
    (hx : (∀ j, (s.getM j).wf s.cfg.maxdim) → x.wf s.cfg.maxdim) (h : complete (s.setM rd x) = .next t) :
    Effect i s t := by
  rw [complete_eq] at h
  cases h
  exact .matrix rd x hd hx

/-- No fault of a matrix load (R236, R237). -/
theorem matrixLoadFault_none {s : State} {ea : DWord} :
    matrixLoadFault s ea = none ↔
      ea.toNat % 16 = 0 ∧ ea.toNat + 8 ≤ s.cfg.memsize ∧ imageValid s ea.toNat = true := by
  unfold matrixLoadFault
  repeat' split
  all_goals simp_all

/-- No fault of a matrix store (R238, R239). -/
theorem matrixStoreFault_none {s : State} {rd : MReg} {ea : DWord} :
    matrixStoreFault s rd ea = none ↔ (s.getM rd).rows ≠ 0 ∧ ea.toNat % 16 = 0 ∧
      ea.toNat + imgLen (s.getM rd).rows.toNat (s.getM rd).cols.toNat ≤ s.cfg.memsize := by
  unfold matrixStoreFault
  simp only
  repeat' split
  all_goals simp_all

/-- No fault of a product or an application (R196, R197). -/
theorem operandFault_none {s : State} {ra rb : MReg} {fit : Bool} :
    operandFault s ra rb fit = none ↔ (s.getM ra).rows ≠ 0 ∧ (s.getM rb).rows ≠ 0 ∧ fit = true := by
  unfold operandFault
  repeat' split
  all_goals simp_all

theorem effect_loadMatrix {i : Instr} {rd : MReg} {ea : DWord} {s t : State}
    (hd : destinationMatrix i = some rd) (h : loadMatrix rd ea s = .next t) : Effect i s t := by
  unfold loadMatrix at h
  split at h
  · exact effect_raise h
  · next hf => exact effect_matrix hd (fun _ => matRead_wf (matrixLoadFault_none.1 hf).2.2) h

theorem effect_storeMatrix {i : Instr} {rd : MReg} {ea : DWord} {s t : State}
    (hw : writeSet i s = matrixWriteSet s rd ea) (h : storeMatrix rd ea s = .next t) : Effect i s t := by
  unfold storeMatrix at h
  split at h
  · exact effect_raise h
  · next hf =>
    rw [complete_eq] at h
    cases h
    have e : writeSet i s = (ea.toNat, imgLen (s.getM rd).rows.toNat (s.getM rd).cols.toNat) := by
      simp [hw, matrixWriteSet, hf]
    have hr := (matrixStoreFault_none.1 hf).2.2
    have := Effect.store (i := i) (s := s) (imageBytes (s.getM rd)) (by simp [e, imageBytes_length])
      (by simpa [e] using hr)
    simpa [e, matWrite] using this

/-- THE INVERSION OF `exec`: a next state is one of the effects above. -/
theorem exec_effect {i : Instr} {s t : State} (h : exec i s = .next t) : Effect i s t := by
  cases i with
  | nop => cases h; exact .nop rfl
  | halt => cases h; exact .halt rfl
  | sethw rd m =>
    simp only [exec, execSethw] at h
    split at h
    · exact effect_raise h
    · rw [complete_eq] at h
      cases h
      exact .mode rd m rfl (by simp_all)
  | getst rd => exact effect_result rfl (by simp) h
  | xor rd ra rb => exact effect_result rfl (by simp) h
  | addq rd ra rb => exact effect_result rfl (by simp) h
  | aesenc rd ra rb => exact effect_result rfl (by simp) h
  | aesenclast rd ra rb => exact effect_result rfl (by simp) h
  | aeskga rd ra rcon => exact effect_result rfl (by simp) h
  | slldq4 rd ra => exact effect_result rfl (by simp) h
  | bcast3 rd ra => exact effect_result rfl (by simp) h
  | mov rd ra => exact effect_result rfl (by simp) h
  | subb rd ra => exact effect_result rfl (by simp) h
  | shrow rd ra => exact effect_result rfl (by simp) h
  | mixc rd ra => exact effect_result rfl (by simp) h
  | setkey ra =>
    simp only [exec, execSetkey, complete_eq] at h
    cases h
    exact .key ra rfl
  | keyexp =>
    simp only [exec, execKeyexp, complete_eq] at h
    cases h
    exact .schedule rfl
  | aesgen rd ra => exact effect_schedule rfl (by simp) h
  | getrk rd k =>
    simp only [exec, execGetrk] at h
    split at h
    · exact effect_schedule rfl (by simp) h
    · exact effect_raise h
  | arsgen rd ra r =>
    simp only [exec, execArsgen] at h
    split at h
    · exact effect_raise h
    · exact effect_result rfl (by simp) h
  | gmul rd ra rb =>
    simp only [exec, execGmul] at h
    split at h
    · exact effect_raise h
    · next hf =>
      have hf := operandFault_none.1 hf
      exact effect_matrix rfl (fun hw => matMul_wf (hw ra) (hw rb) hf.1 hf.2.1) h
  | gapply rd ra rb =>
    simp only [exec, execGapply] at h
    split at h
    · exact effect_raise h
    · next hf =>
      have hf := operandFault_none.1 hf
      refine effect_matrix rfl (fun hw => matrixOf_wf _ ?_ (hw ra).1 ?_) h
      · have := (hw rb).1
        have h1 : (s.getM rb).rows = 1 := by simpa using (of_decide_eq_true hf.2.2).1
        simpa [h1] using this
      · simpa using hf.1
  | gpow rd ra rb rc =>
    simp only [exec, execGpow] at h
    split at h
    · exact effect_raise h
    · split at h
      · exact effect_raise h
      · next h0 _ => exact effect_matrix rfl (fun hw => matPowFuel_wf (hw _) h0 64 _) h
  | gdim rd ra => exact effect_result rfl (by simp) h
  | ldb rd imm20 => exact effect_load rfl (by simp) h
  | ldbx rd ra imm12 => exact effect_load rfl (by simp) h
  | stb rd imm20 => exact effect_store rfl h
  | stbx rd ra imm12 => exact effect_store rfl h
  | gld rd imm20 => exact effect_loadMatrix rfl h
  | gldx rd ra imm12 => exact effect_loadMatrix rfl h
  | gst rd imm20 => exact effect_storeMatrix rfl h
  | gstx rd ra imm12 => exact effect_storeMatrix rfl h

/-- The inversion of a step of a running sequencer (R310). -/
theorem step_run {s t : State} (h : step s = .next t) (hs : s.st = .run) :
    (∃ c info, t = s.takeFault c info) ∨
    ∃ i, s.cp.toNat < s.cfg.cmsize ∧ decode (s.cm.read s.cp.toNat) = .ok i ∧ exec i s = .next t := by
  simp only [step, hs, runCommand, fetchWord] at h
  split at h
  · next w hw =>
    split at hw
    · cases hw
      simp only [executeWord] at h
      split at h
      · next i hi => exact .inr ⟨i, by assumption, hi, h⟩
      · rw [raise_eq] at h
        cases h
        exact .inl ⟨_, _, rfl⟩
    · cases hw
  · rw [raise_eq] at h
    cases h
    exact .inl ⟨_, _, rfl⟩

/-- A step of a sequencer that does not run changes nothing (log 5). -/
theorem step_stopped {s : State} (hs : s.st ≠ .run) : step s = .next s := by
  cases h : s.st <;> simp_all [step]

end Sys2Proof.Machine
end

