-- ==== Sys2Proof/Laws/PerInstr.lean ====
section
/-!
SUPPORT. Families of statements about every command as syntax, one lemma per constructor of `Instr`.
-/

namespace Sys2Proof.Laws

/-- The opcode of a command (30_encoding.md R97). -/
def opcodeOf : Instr → BitVec 8
  | .nop => 0x01
  | .halt => 0x02
  | .sethw _ _ => 0x03
  | .getst _ => 0x04
  | .xor _ _ _ => 0x10
  | .addq _ _ _ => 0x11
  | .aesenc _ _ _ => 0x12
  | .aesenclast _ _ _ => 0x13
  | .aeskga _ _ _ => 0x14
  | .slldq4 _ _ => 0x15
  | .bcast3 _ _ => 0x16
  | .mov _ _ => 0x17
  | .subb _ _ => 0x18
  | .shrow _ _ => 0x19
  | .mixc _ _ => 0x1A
  | .setkey _ => 0x20
  | .keyexp => 0x21
  | .aesgen _ _ => 0x22
  | .getrk _ _ => 0x23
  | .arsgen _ _ _ => 0x30
  | .gmul _ _ _ => 0x40
  | .gapply _ _ _ => 0x41
  | .gpow _ _ _ _ => 0x42
  | .gdim _ _ => 0x43
  | .ldb _ _ => 0x50
  | .ldbx _ _ _ => 0x51
  | .stb _ _ => 0x52
  | .stbx _ _ _ => 0x53
  | .gld _ _ => 0x54
  | .gldx _ _ _ => 0x55
  | .gst _ _ => 0x56
  | .gstx _ _ _ => 0x57

/-- The bits 31:24 of a command's word are its opcode (R90). -/
def OpcodeField.Statement (i : Instr) : Prop := fieldOp (encode i) = opcodeOf i

theorem OpcodeField.nop : OpcodeField.Statement (.nop) :=
  fieldOp_wordF ..

theorem OpcodeField.halt : OpcodeField.Statement (.halt) :=
  fieldOp_wordF ..

theorem OpcodeField.sethw (rd : VReg) (mode : Bool) : OpcodeField.Statement (.sethw rd mode) :=
  fieldOp_wordF ..

theorem OpcodeField.getst (rd : VReg) : OpcodeField.Statement (.getst rd) :=
  fieldOp_wordF ..

theorem OpcodeField.xor (rd ra rb : VReg) : OpcodeField.Statement (.xor rd ra rb) :=
  fieldOp_wordF ..

theorem OpcodeField.addq (rd ra rb : VReg) : OpcodeField.Statement (.addq rd ra rb) :=
  fieldOp_wordF ..

theorem OpcodeField.aesenc (rd ra rb : VReg) : OpcodeField.Statement (.aesenc rd ra rb) :=
  fieldOp_wordF ..

theorem OpcodeField.aesenclast (rd ra rb : VReg) : OpcodeField.Statement (.aesenclast rd ra rb) :=
  fieldOp_wordF ..

theorem OpcodeField.aeskga (rd ra : VReg) (rcon : Byte) : OpcodeField.Statement (.aeskga rd ra rcon) :=
  fieldOp_wordF ..

theorem OpcodeField.slldq4 (rd ra : VReg) : OpcodeField.Statement (.slldq4 rd ra) :=
  fieldOp_wordF ..

theorem OpcodeField.bcast3 (rd ra : VReg) : OpcodeField.Statement (.bcast3 rd ra) :=
  fieldOp_wordF ..

theorem OpcodeField.mov (rd ra : VReg) : OpcodeField.Statement (.mov rd ra) :=
  fieldOp_wordF ..

theorem OpcodeField.subb (rd ra : VReg) : OpcodeField.Statement (.subb rd ra) :=
  fieldOp_wordF ..

theorem OpcodeField.shrow (rd ra : VReg) : OpcodeField.Statement (.shrow rd ra) :=
  fieldOp_wordF ..

theorem OpcodeField.mixc (rd ra : VReg) : OpcodeField.Statement (.mixc rd ra) :=
  fieldOp_wordF ..

theorem OpcodeField.setkey (ra : VReg) : OpcodeField.Statement (.setkey ra) :=
  fieldOp_wordF ..

theorem OpcodeField.keyexp : OpcodeField.Statement (.keyexp) :=
  fieldOp_wordF ..

theorem OpcodeField.aesgen (rd ra : VReg) : OpcodeField.Statement (.aesgen rd ra) :=
  fieldOp_wordF ..

theorem OpcodeField.getrk (rd : VReg) (i : BitVec 4) : OpcodeField.Statement (.getrk rd i) :=
  fieldOp_wordF ..

theorem OpcodeField.arsgen (rd ra : VReg) (r : Byte) : OpcodeField.Statement (.arsgen rd ra r) :=
  fieldOp_wordF ..

theorem OpcodeField.gmul (rd ra rb : MReg) : OpcodeField.Statement (.gmul rd ra rb) :=
  fieldOp_wordF ..

theorem OpcodeField.gapply (rd ra rb : MReg) : OpcodeField.Statement (.gapply rd ra rb) :=
  fieldOp_wordF ..

theorem OpcodeField.gpow (rd ra rb : MReg) (rc : VReg) : OpcodeField.Statement (.gpow rd ra rb rc) :=
  fieldOp_wordF ..

theorem OpcodeField.gdim (rd : VReg) (ra : MReg) : OpcodeField.Statement (.gdim rd ra) :=
  fieldOp_wordF ..

theorem OpcodeField.ldb (rd : VReg) (imm20 : BitVec 20) : OpcodeField.Statement (.ldb rd imm20) :=
  fieldOp_wordA ..

theorem OpcodeField.ldbx (rd ra : VReg) (imm12 : BitVec 12) : OpcodeField.Statement (.ldbx rd ra imm12) :=
  fieldOp_wordF ..

theorem OpcodeField.stb (rd : VReg) (imm20 : BitVec 20) : OpcodeField.Statement (.stb rd imm20) :=
  fieldOp_wordA ..

theorem OpcodeField.stbx (rd ra : VReg) (imm12 : BitVec 12) : OpcodeField.Statement (.stbx rd ra imm12) :=
  fieldOp_wordF ..

theorem OpcodeField.gld (rd : MReg) (imm20 : BitVec 20) : OpcodeField.Statement (.gld rd imm20) :=
  fieldOp_wordA ..

theorem OpcodeField.gldx (rd : MReg) (ra : VReg) (imm12 : BitVec 12) : OpcodeField.Statement (.gldx rd ra imm12) :=
  fieldOp_wordF ..

theorem OpcodeField.gst (rd : MReg) (imm20 : BitVec 20) : OpcodeField.Statement (.gst rd imm20) :=
  fieldOp_wordA ..

theorem OpcodeField.gstx (rd : MReg) (ra : VReg) (imm12 : BitVec 12) : OpcodeField.Statement (.gstx rd ra imm12) :=
  fieldOp_wordF ..

end Sys2Proof.Laws
end

