-- ==== Sys2Proof/Laws/Units.lean ====
section
/-!
SUPPORT. For each function of the functional units, its bytes, lanes or entries, so that no proof unfolds how the
result is packed; and the cases in which the checks of the memory system report which fault.
-/

namespace Sys2Proof.Machine

/-! ## The AES round unit -/

/-- R124. -/
theorem byteB_subBytes (b : Block) {i : Nat} (h : i < 16) : byteB (subBytes b) i = sbox (byteB b i) :=
  byteB_blockOfBytes _ _ h

/-- R125, by the number of the output byte. -/
theorem byteB_shiftRows (b : Block) {i : Nat} (h : i < 16) :
    byteB (shiftRows b) i = byteB b (i % 4 + 4 * ((i / 4 + i % 4) % 4)) :=
  byteB_blockOfBytes _ _ h

/-- R127, by the number of the output byte. -/
theorem byteB_mixColumns (b : Block) {i : Nat} (h : i < 16) :
    byteB (mixColumns b) i = mixRow (i % 4) (byteB b (4 * (i / 4))) (byteB b (4 * (i / 4) + 1))
      (byteB b (4 * (i / 4) + 2)) (byteB b (4 * (i / 4) + 3)) :=
  byteB_blockOfBytes _ _ h

/-- R131. -/
theorem laneQ_addQ (a b : Block) {k : Nat} (h : k < 2) : laneQ (addQ a b) k = laneQ a k + laneQ b k :=
  laneQ_blockOfQ _ _ h

/-- R136. -/
theorem laneD_broadcast3 (b : Block) {j : Nat} (h : j < 4) : laneD (broadcast3 b) j = laneD b 3 :=
  laneD_blockOfD _ _ h

/-- The bytes of an exclusive or. -/
theorem byteB_xor (a b : Block) (i : Nat) : byteB (a ^^^ b) i = byteB a i ^^^ byteB b i := by
  ext j hj
  simp [byteB]

/-! ## The key schedule -/

/-- A command that needs the schedule faults or writes its result (R26, R266). -/
theorem withSchedule_cases (rd : VReg) (x : Block) (s : State) :
    (s.ksv = true ∧ withSchedule rd x s = .next (s.setV rd x).advance) ∨
    (s.ksv = false ∧ withSchedule rd x s = .next (s.takeFault .keyScheduleInvalid 0)) := by
  cases h : s.ksv
  · exact .inr ⟨rfl, by simp [withSchedule, h, raise_eq]⟩
  · exact .inl ⟨rfl, by simp [withSchedule, h, complete_eq]⟩

/-! ## The matrix unit -/

/-- Sums of equal terms are equal. -/
theorem xorSum_congr {n : Nat} {f g : Nat → Bool} (h : ∀ k, k < n → f k = g k) : xorSum n f = xorSum n g := by
  induction n with
  | zero => rfl
  | succ n ih => rw [xorSum, xorSum, ih fun k hk => h k (by omega), h n (by omega)]

/-- R191. -/
theorem matMul_bit (a b : Matrix) (r c : Nat) :
    (matMul a b).bit r c = (decide (r < a.rows.toNat) && decide (c < b.cols.toNat) &&
      xorSum a.cols.toNat fun k => a.bit r k && b.bit k c) :=
  matrixOf_bit ..

/-- R192. -/
theorem matIdent_bit (n : Word) (r c : Nat) :
    (matIdent n).bit r c = (decide (r < n.toNat) && decide (c < n.toNat) && decide (r = c)) :=
  matrixOf_bit ..

/-- R194. -/
theorem matApply_bit (a x : Matrix) (r : Nat) :
    (matApply a x).bit 0 r = (decide (r < a.rows.toNat) &&
      xorSum a.cols.toNat fun c => a.bit r c && x.bit 0 c) := by
  simp [matApply, matrixOf_bit]

/-! ## The memory system -/

/-- Which fault a block access reports (R246). -/
theorem blockFault_some {s : State} {ea : DWord} {c : Cause} :
    blockFault s ea = some c ↔ (ea.toNat % 16 ≠ 0 ∧ c = .misaligned) ∨
      (ea.toNat % 16 = 0 ∧ s.cfg.memsize < ea.toNat + 16 ∧ c = .memAccess) := by
  unfold blockFault
  split
  · simp_all [eq_comm]
  · split <;> simp_all [eq_comm]

/-- A word read from memory is the word whose bytes stand there (R62). -/
theorem readWord_of_bytes {dm : Memory} {a : Nat} {x : Word}
    (h : ∀ k, k < 4 → dm.read (a + k) = x.extractLsb' (8 * k) 8) : readWord dm a = x := by
  apply BitVec.eq_of_getLsbD_eq
  intro n hn
  have e := pack_getLsbD (n := 32) (readBytes dm a 4) (n / 8) (n % 8) (by omega) (by omega)
    (by simp [readBytes]; omega)
  rw [show 8 * (n / 8) + n % 8 = n by omega] at e
  rw [readWord, e]
  simp only [readBytes, List.getElem_map, List.getElem_range]
  rw [h _ (by omega)]
  simp [show n % 8 < 8 by omega, show 8 * (n / 8) + n % 8 = n by omega]

/-- A byte of a word read from memory is the byte that stands there (R62). -/
theorem byte_readWord (dm : Memory) (a : Nat) {i : Nat} (h : i < 4) :
    (readWord dm a).extractLsb' (8 * i) 8 = dm.read (a + i) := by
  have := pack_lane (n := 32) (readBytes dm a 4) i (by omega) (by simpa [readBytes] using h)
  simpa [readWord, readBytes] using this

/-- A header holds a shape exactly when its two words read as that shape (R62, R72). -/
theorem holdsHeader_iff {dm : Memory} {ea : Nat} {rows cols : Word} :
    Safety.HoldsHeader dm ea rows cols ↔ readWord dm ea = rows ∧ readWord dm (ea + 4) = cols := by
  constructor
  · intro h
    exact ⟨readWord_of_bytes fun k hk => (h k hk).1, readWord_of_bytes fun k hk => (h k hk).2⟩
  · rintro ⟨rfl, rfl⟩ i hi
    exact ⟨(byte_readWord dm ea hi).symm, (byte_readWord dm (ea + 4) hi).symm⟩

end Sys2Proof.Machine
end

