-- ==== Sys2Proof/Tests/Slice0.lean ====
section
/-!
SUPPORT. The model's own tests. Words, inputs and results are those of 95_test_vectors.md, named at each test; the
witnesses at the end show, for each statement with hypotheses, states and operands that meet them all, at the bounds of
their ranges.
-/

namespace Sys2Proof.Tests

-- One test at a time: many kernel evaluations at once ask for more threads than the memory limit gives.
set_option Elab.async false

open Sys2Proof.Machine Sys2Proof.Safety

/-! ## Small states -/

/-- `A` of 95_test_vectors.md. -/
def blockA : Block := 0xffeeddccbbaa99887766554433221100

/-- `K` of 95_test_vectors.md. -/
def blockK : Block := 0x0f0e0d0c0b0a09080706050403020100

/-- A small instance: `CMSIZE = 8`, `MEMSIZE = 0x200`, `MAXDIM = 16`. -/
def inst (hwcap : Bool) : Config := { hwcap := hwcap, cmsize := 8, memsize := 0x200, maxdim := 16 }

/-- The small instance after reset and `START`, with a data memory. -/
def started (hwcap : Bool) (dm : Memory) : State := (State.afterReset (inst hwcap) dm []).started

/-- The same with `A` in `v1` and `K` in `v2`. -/
def ak : State := ((started true []).setV 1 blockA).setV 2 blockK

/-- A state with a command word stored at `cp`. -/
def withWord (s : State) (w : Word) : State := { s with cm := s.cm.write s.cp.toNat w }

/-- The state after the one step that executes a word. -/
def after (s : State) (w : Word) : State :=
  match step (withWord s w) with
  | .next t => t
  | .fault _ => s
  | .refused _ => s

/-- A matrix of which row `r` is the number `rows[r]`, bit `c` in column `c`. -/
def mat (cols : Word) (rows : List Nat) : Matrix :=
  matrixOf (BitVec.ofNat 32 rows.length) cols fun r c => (rows.getD r 0).testBit c

/-- `T4` of 95_test_vectors.md. -/
def t4 : Matrix := mat 4 [0x2, 0x4, 0x8, 0x3]

/-- `T4i` of 95_test_vectors.md. -/
def t4i : Matrix := mat 4 [0x9, 0x1, 0x2, 0x4]

/-- The image of `T4` at 0x100. -/
def t4Image : Memory := [(0x100, 4), (0x104, 4), (0x108, 2), (0x109, 4), (0x10a, 8), (0x10b, 3)]

/-- A state with a 2 by 3 matrix in `m0`, `T4` in `m1`, `T4i` in `m2`, and `m3` empty. -/
def mats : State := (((started true []).setM 0 (mat 3 [0x5, 0x3])).setM 1 t4).setM 2 t4i

/-- The fault that a state records: `CAUSE`, `FINFO`, and that `FCP = cp`. -/
def faultOf (s : State) : Option Cause × DWord × Bool := (s.cause, s.finfo, decide (s.fcp = s.cp))

/-! ## WellFormed -/

theorem test_wellFormed_getrk_index_11 : (Instr.getrk 3 11).wellFormed = false := by decide

theorem test_wellFormed_getrk_index_15 : (Instr.getrk 3 15).wellFormed = false := by decide

theorem test_wellFormed_arsgen_no_rounds : (Instr.arsgen 2 1 0).wellFormed = false := by decide

theorem test_wellFormed_bounds :
    (Instr.getrk 3 10).wellFormed = true ∧ (Instr.arsgen 2 1 255).wellFormed = true := by decide

/-! ## Decode and encode: the words of E1, E2 and E3 -/

theorem test_decode_system :
    decodeTableWord 32 0x01000000 = some .nop ∧ decodeTableWord 32 0x02000000 = some .halt ∧
    decodeTableWord 32 0x03400001 = some (.sethw 4 true) ∧ decodeTableWord 32 0x04700000 = some (.getst 7) := by
  decide

theorem test_decode_block :
    decodeTableWord 32 0x10312000 = some (.xor 3 1 2) ∧ decodeTableWord 32 0x11312000 = some (.addq 3 1 2) ∧
    decodeTableWord 32 0x12312000 = some (.aesenc 3 1 2) ∧
    decodeTableWord 32 0x13312000 = some (.aesenclast 3 1 2) ∧
    decodeTableWord 32 0x14210001 = some (.aeskga 2 1 1) ∧ decodeTableWord 32 0x15210000 = some (.slldq4 2 1) ∧
    decodeTableWord 32 0x16210000 = some (.bcast3 2 1) ∧ decodeTableWord 32 0x17210000 = some (.mov 2 1) ∧
    decodeTableWord 32 0x18210000 = some (.subb 2 1) ∧ decodeTableWord 32 0x19210000 = some (.shrow 2 1) ∧
    decodeTableWord 32 0x1A210000 = some (.mixc 2 1) := by
  decide

theorem test_decode_generators :
    decodeTableWord 32 0x20010000 = some (.setkey 1) ∧ decodeTableWord 32 0x21000000 = some .keyexp ∧
    decodeTableWord 32 0x22210000 = some (.aesgen 2 1) ∧ decodeTableWord 32 0x23300001 = some (.getrk 3 1) ∧
    decodeTableWord 32 0x30210007 = some (.arsgen 2 1 7) := by
  decide

theorem test_decode_matrix :
    decodeTableWord 32 0x40201000 = some (.gmul 2 0 1) ∧ decodeTableWord 32 0x41302000 = some (.gapply 3 0 2) ∧
    decodeTableWord 32 0x42100005 = some (.gpow 1 0 0 5) ∧ decodeTableWord 32 0x42201004 = some (.gpow 2 0 1 4) ∧
    decodeTableWord 32 0x43520000 = some (.gdim 5 2) := by
  decide

theorem test_decode_memory :
    decodeTableWord 32 0x50100010 = some (.ldb 1 0x10) ∧ decodeTableWord 32 0x51120FFE = some (.ldbx 1 2 0xFFE) ∧
    decodeTableWord 32 0x52300004 = some (.stb 3 4) ∧ decodeTableWord 32 0x53320001 = some (.stbx 3 2 1) ∧
    decodeTableWord 32 0x54000010 = some (.gld 0 0x10) ∧ decodeTableWord 32 0x55120000 = some (.gldx 1 2 0) ∧
    decodeTableWord 32 0x56200020 = some (.gst 2 0x20) ∧ decodeTableWord 32 0x57340FFF = some (.gstx 3 4 0xFFF) := by
  decide

theorem test_decode_looks_suspicious :
    decodeTableWord 32 0x2330000A = some (.getrk 3 10) ∧ decodeTableWord 32 0x302100FF = some (.arsgen 2 1 255) ∧
    decodeTableWord 32 0x54300000 = some (.gld 3 0) ∧ decodeTableWord 32 0x50FFFFFF = some (.ldb 15 0xFFFFF) ∧
    decodeTableWord 32 0x17FF0000 = some (.mov 15 15) ∧ decodeTableWord 32 0x40000000 = some (.gmul 0 0 0) ∧
    decodeTableWord 32 0x42333003 = some (.gpow 3 3 3 3) := by
  decide

theorem test_decode_illegal :
    ([0x00000000, 0xFFFFFFFF, 0x05000000, 0x1B210000, 0x58000000, 0x01000001, 0x02100000, 0x03400002,
      0x04700001, 0x10312001, 0x14210100, 0x20110000, 0x21000001, 0x2330000B, 0x30210000, 0x30210100,
      0x40400000, 0x40040000, 0x40004000, 0x42100015, 0x43540000, 0x54400000, 0x51121000] : List Nat).all
      (fun w => (decodeTableWord 32 w).isNone) = true := by
  decide

theorem test_encode :
    encode (.sethw 4 true) = 0x03400001 ∧ encode (.xor 3 1 2) = 0x10312000 ∧ encode (.aeskga 2 1 1) = 0x14210001 ∧
    encode (.setkey 1) = 0x20010000 ∧ encode (.getrk 3 1) = 0x23300001 ∧ encode (.arsgen 2 1 7) = 0x30210007 ∧
    encode (.gpow 2 0 1 4) = 0x42201004 ∧ encode (.gdim 5 2) = 0x43520000 ∧ encode (.stb 3 4) = 0x52300004 ∧
    encode (.ldbx 1 2 0xFFE) = 0x51120FFE ∧ encode (.gst 2 0x20) = 0x56200020 ∧
    encode (.gstx 3 4 0xFFF) = 0x57340FFF := by
  decide

theorem test_decodeBytes : ∃ rest, decodeBytes [0x10, 0x00, 0x10, 0x50, 0x11] = .ok (.ldb 1 0x10, rest) :=
  ⟨[0x11], rfl⟩

theorem test_asm : asmText (.ldbx 1 2 0xFFE) = "LDBX v1, -32(v2)" ∧ asmText (.gpow 1 0 0 5) = "GPOW m1, m0, m0, v5" ∧
    asmText (.stb 3 4) = "STB v3, 64" ∧ pseudoArsgen 2 1 = .arsgen 2 1 7 := by
  decide +kernel

/-! ## Block primitives -/

/-- T1. -/
theorem test_xor : (after ak 0x10312000).getV 3 = 0xf0e0d0c0b0a090807060504030201000 := by decide +kernel

/-- T1: a destination that is also both sources (R103). -/
theorem test_xor_self : (after ak 0x10111000).getV 1 = 0 := by decide +kernel

/-- T2. -/
theorem test_addq : (after ak 0x11312000).getV 3 = 0x0efcead8c6b4a2907e6c5a4836241200 := by decide +kernel

/-- T3: lane 0 wraps and lane 1 is not incremented. -/
theorem test_addq_no_carry : addQ 0x0000000000000001ffffffffffffffff 1 = 0x00000000000000010000000000000000 := by
  decide +kernel

/-- T8. -/
theorem test_aesenc : (after ak 0x12312000).getV 3 = 0xac84e6deff360fa571fd62f0dae47863 := by decide +kernel

/-- T9. -/
theorem test_aesenclast : (after ak 0x13312000).getV 3 = 0xe53d8f47fe99c8ccc42eeb1f15aefd63 := by decide +kernel

/-- T10: `K` is in `v2`, so the source field is 2. -/
theorem test_aeskga : (after ak 0x14220001).getV 2 = 0xfe76abd676abd7fef2c56f6ac56f6bf2 := by decide +kernel

/-- T11. -/
theorem test_slldq4 : (after ak 0x15210000).getV 2 = 0xbbaa9988776655443322110000000000 := by decide +kernel

/-- T12. -/
theorem test_bcast3 : (after ak 0x16210000).getV 2 = 0xffeeddccffeeddccffeeddccffeeddcc := by decide +kernel

/-- T13. -/
theorem test_mov : (after ak 0x17210000).getV 2 = blockA ∧ (after ak 0x17210000).cp = 1 := by decide +kernel

/-- T5. -/
theorem test_subb : (after ak 0x18210000).getV 2 = 0x1628c14beaaceec4f533fc1bc3938263 := by decide +kernel

/-- T6. -/
theorem test_shrow : (after ak 0x19320000).getV 3 = 0x0b06010c07020d08030e09040f0a0500 := by decide +kernel

/-- T7. -/
theorem test_mixc : (after ak 0x1A210000).getV 2 = 0x99ccbbeedd88ffaa1144336655007722 := by decide +kernel

/-- T7: the columns `db 13 53 45`, `f2 0a 22 5c`, `01 01 01 01`, `c6 c6 c6 c6`. -/
theorem test_mixc_columns :
    mixColumns 0xc6c6c6c6010101015c220af2455313db = 0xc6c6c6c6010101019d58dc9fbca14d8e ∧
    mixColumnsPacked 0xc6c6c6c6010101015c220af2455313db = 0xc6c6c6c6010101019d58dc9fbca14d8e := by
  decide +kernel

/-- R122 and the note to T7. -/
theorem test_xtime : xtime 0x57 = 0xae ∧ xtime 0xae = 0x47 ∧ xtime 0x47 = 0x8e ∧ xtime 0x8e = 0x07 ∧
    xtime 0x80 = 0x1b := by decide

/-! ## The generators -/

/-- T27: `SETKEY` clears `KSV` and leaves the round keys. -/
theorem test_setkey :
    (after { ak with ksv := true } 0x20020000).key = blockK ∧
    (after { ak with ksv := true } 0x20020000).ksv = false := by
  decide +kernel

/-- T20. -/
theorem test_keyexp :
    (after { ak with key := blockK } 0x21000000).rk[1] = 0xfe76abd6f178a6dafa72afd2fd74aad6 ∧
    (after { ak with key := blockK } 0x21000000).rk[10] = 0xc5302b4d8ba707f3174a94e37f1d1113 := by
  decide +kernel

/-- T21: the zero key. -/
theorem test_keyexp_zero : (keyExpansion 0)[10] = 0x8e188f6fcf51e92311e2923ecb5befb4 := by decide +kernel

/-- `ak` with the schedule of `K`. -/
def akKey : State := (ak.setKey blockK).setSchedule (keyExpansion blockK)

/-- T23, T26. -/
theorem test_aesgen : (after akKey 0x22210000).getV 2 = 0x5ac5b47080b7cdd830047b6ad8e0c469 := by decide +kernel

/-- S2, the source's second known answer. -/
theorem test_aes_s2 : aes128 (keyExpansion 0xec4e6c89082efa98299f31d0a4093822) 0x0370734413198a2e85a308d3243f6a88 =
    0x5217a28f965e0cfd134a4f64ca693cbf := by
  decide +kernel

/-- T28. -/
theorem test_getrk : (after akKey 0x2330000A).getV 3 = 0xc5302b4d8ba707f3174a94e37f1d1113 := by decide +kernel

/-- F2: an index above 10 is illegal before `KSV` is looked at. -/
theorem test_getrk_illegal : faultOf (after ak 0x2330000B) = (some .illegalCommand, 0x2330000B, true) := by
  decide +kernel

/-- T31. -/
theorem test_arsgen : (after akKey 0x30210007).getV 2 = 0xb45a9083562c1d475b359d82884049c3 := by decide +kernel

/-- S3, the source's known answer. -/
theorem test_ars_s3 : ars 0 0 10 = 0x0cbe9c0d13c2dbe4506401ef8d73ee19 := by decide +kernel

/-! ## The matrix unit -/

/-- The example of R196: 2 by 3 times 3 by 2. -/
theorem test_gmul : (after (mats.setM 3 (mat 2 [0x1, 0x3, 0x2])) 0x40203000).getM 2 = mat 2 [0x3, 0x2] := by
  decide +kernel

/-- F2: both sources empty reports `ma`. -/
theorem test_gmul_empty : faultOf (after (started true []) 0x40231000) = (some .matrixEmpty, 3, true) := by
  decide +kernel

/-- The example of R197: a 2 by 3 matrix on a vector of 3. -/
theorem test_gapply : (after (mats.setM 2 (mat 3 [0x6])) 0x41302000).getM 3 = mat 2 [0x3] := by decide +kernel

/-- F2: a second operand with four rows. -/
theorem test_gapply_shape : faultOf (after mats 0x41312000) = (some .dimMismatch, 0, true) := by decide +kernel

/-- The example of R199: `p = 5`. -/
theorem test_gpow : (after (mats.setV 5 5) 0x42011005).getM 0 = mat 4 [0x6, 0xc, 0xb, 0x5] := by decide +kernel

/-- The example of R199: `p = -3` selects `mb`, whatever `q[1]` is. -/
theorem test_gpow_negative : (after (mats.setV 4 0xAAfffffffffffffffd) 0x42312004).getM 3 = mat 4 [0xf, 0xd, 0x9, 0x1] := by
  decide +kernel

/-- The example of R201: a 2 by 3 matrix. -/
theorem test_gdim : (after mats 0x43500000).getV 5 = 0x00000000000000000000000300000002 := by decide +kernel

/-- R201: an empty register. -/
theorem test_gdim_empty : (after (mats.setV 5 blockA) 0x43530000).getV 5 = 0 := by decide +kernel

/-! ## Memory -/

/-- R233's displacement: base 0x120, displacement -32; the low bytes of `T4`'s image as a block. -/
theorem test_ldbx : (after ((started true t4Image).setV 2 0x120) 0x51120FFE).getV 1 =
    0x00000000030804020000000400000004 := by
  decide +kernel

/-- R231: base 0 with displacement -16 wraps and is out of range. -/
theorem test_ldbx_wrap : faultOf (after (started true []) 0x51120FFF) = (some .memAccess, 0xfffffffffffffff0, true) := by
  decide +kernel

/-- F1: the first address past the end. -/
theorem test_ldb_end : faultOf (after (started true []) 0x50100020) = (some .memAccess, 0x200, true) ∧
    (after (started true []) 0x5010001F).st = .run := by
  decide +kernel

/-- R234's example: `STB v3, 0x40`. -/
theorem test_stb : readBytes (after (ak.setV 3 blockA) 0x52300004).dm 0x40 4 = [0x00, 0x11, 0x22, 0x33] ∧
    (after (ak.setV 3 blockA) 0x52300004).dm.read 0x4f = 0xff ∧
    (after (ak.setV 3 blockA) 0x52300004).dm.read 0x50 = 0 := by
  decide +kernel

/-- F2: alignment is checked before range. -/
theorem test_stbx_misaligned :
    faultOf (after ((started true []).setV 2 0xfffffffffffffff8) 0x53320000) =
      (some .misaligned, 0xfffffffffffffff8, true) := by
  decide +kernel

/-- R236's example. -/
theorem test_gld : (after (started true t4Image) 0x54000010).getM 0 = t4 := by decide +kernel

/-- R236's example of a bad header. -/
theorem test_gld_bad : faultOf (after (started true [(0x100, 4)]) 0x54000010) = (some .matrixFormat, 0x100, true) := by
  decide +kernel

/-- R237's example. -/
theorem test_gldx : (after ((started true t4Image).setV 2 0x100) 0x55120000).getM 1 = t4 := by decide +kernel

/-- R74 (d): a padding bit of a 4 by 4 image. -/
theorem test_gldx_padding :
    faultOf (after ((started true ([(0x100, 4), (0x104, 4), (0x108, 0x12)])).setV 2 0x100) 0x55120000) =
      (some .matrixFormat, 0x100, true) := by
  decide +kernel

/-- T63: the 1 by 9 vector 0x155 at 0x1f0: ten bytes, and the next one untouched. -/
theorem test_gst :
    readBytes (after ((started true [(0x1fa, 0xee)]).setM 2 (mat 9 [0x155])) 0x5620001F).dm 0x1f0 11 =
      [1, 0, 0, 0, 9, 0, 0, 0, 0x55, 0x01, 0xee] := by
  decide +kernel

/-- T63: 9 by 8 does not fit at 0x1f0, and nothing is written. -/
theorem test_gst_end :
    faultOf (after ((started true []).setM 2 (mat 8 [1, 2, 3, 4, 5, 6, 7, 8, 9])) 0x5620001F) =
      (some .memAccess, 0x1f0, true) ∧
    (after ((started true []).setM 2 (mat 8 [1, 2, 3, 4, 5, 6, 7, 8, 9])) 0x5620001F).dm = [] := by
  decide +kernel

/-- R239: base 0x110, displacement -16, the image of `T4` at 0x100. -/
theorem test_gstx : (after (((started true []).setM 3 t4).setV 4 0x110) 0x57340FFF).dm = t4Image := by
  decide +kernel

/-- T63: an empty register is reported before a misaligned address. -/
theorem test_gstx_empty : faultOf (after ((started true []).setV 4 0x208) 0x57340000) = (some .matrixEmpty, 3, true) := by
  decide +kernel

/-! ## System commands, faults and the host -/

/-- T66. -/
theorem test_nop_halt : (after { ak with cp := 5 } 0x01000000).cp = 6 ∧ (after { ak with cp := 7 } 0x02000000).cp = 7 ∧
    (after { ak with cp := 7 } 0x02000000).st = .halted ∧ doneOutput (after ak 0x02000000) = true := by
  decide +kernel

/-- T65. -/
theorem test_sethw : (after (started true []) 0x03400000).getV 4 = 1 ∧ (after (started true []) 0x03400000).hw = false := by
  decide +kernel

/-- T65, `HWCAP = 0`. -/
theorem test_sethw_fault : faultOf (after (started false []) 0x03400001) = (some .configurationError, 0, true) ∧
    (after (started false []) 0x03400001).hw = false := by
  decide +kernel

/-- T65. -/
theorem test_getst : (after (started true []) 0x04700000).getV 7 = 3 ∧ (after akKey 0x04700000).getV 7 = 7 ∧
    (after (started false []) 0x04700000).getV 7 = 0 := by
  decide +kernel

/-- F1, cause 9: `CP = CMSIZE = 8`. -/
theorem test_commandFetch : faultOf (after { ak with cp := 8 } 0x01000000) = (some .commandFetch, 8, true) := by
  decide +kernel

/-- P5, runs 1 and 2: the skip after a fault. -/
theorem test_skip : (match hostActs (skipActions (after (started false []) 0x03400001))
      (after (started false []) 0x03400001) with
    | .next t => decide (t.cp = 1 ∧ t.st = .run ∧ t.cause = none)
    | .fault _ => false
    | .refused _ => false) = true := by
  decide +kernel

/-- The word the host reads as `STATUS` after reset with `HWCAP = 1`, and after a fault. -/
theorem test_status : statusWord State.reset = 0x30 ∧ statusWord (after (started false []) 0x03400001) = 0x3 := by
  decide +kernel

/-- `withFetchWord` places the word that the very next step executes. -/
theorem test_withFetchWord : ∃ t, step (State.reset.withFetchWord 32 0x04700000) = .next t ∧ t.getV 7 = 3 :=
  ⟨_, rfl, by decide +kernel⟩

/-! ## Witnesses: states and operands that meet the hypotheses of each statement -/

/-- Four commands at `CM[0]` onward: `SETKEY v1`, `KEYEXP`, an illegal word, `HALT`; and `NOP` at the last word. -/
def program : CmdMemory := [(0, 0x20010000), (1, 0x21000000), (2, 0x2330000B), (3, 0x02000000), (7, 0x01000000)]

/-- The program running at `cp`. -/
def running (cp : Word) : State := { started true t4Image with cm := program, cp := cp }

/-- DecodeOfEncode, at the bounds of the two value checks. -/
theorem wit_DecodeOfEncode : (Instr.getrk 15 10).wellFormed = true ∧ (Instr.getrk 0 0).wellFormed = true ∧
    (Instr.arsgen 0 15 1).wellFormed = true ∧ (Instr.arsgen 0 15 255).wellFormed = true := by decide

/-- EncodeOfDecode and the first clause of DecodeAgreesWithOpcodeTable. -/
theorem wit_EncodeOfDecode : decode 0x2330000A = .ok (.getrk 3 10) ∧ decode 0x30210001 = .ok (.arsgen 2 1 1) :=
  ⟨rfl, rfl⟩

/-- The second clause of DecodeAgreesWithOpcodeTable. -/
theorem wit_opcodeRow : ∃ row ∈ opcodeRows, row.accepts 0x2330000A = true := by decide

/-- StepRunsDecodedCommand, at the last word of the command memory, and CommandPointerAdvances (`NOP`, run on). -/
theorem wit_StepRunsDecodedCommand : (running 7).st = .run ∧ (running 7).cp.toNat < (running 7).cfg.cmsize ∧
    decode ((running 7).cm.read (running 7).cp.toNat) = .ok .nop := ⟨rfl, by decide, rfl⟩

/-- IllegalWordFaults. -/
theorem wit_IllegalWordFaults : (running 2).st = .run ∧ (running 2).cp.toNat < (running 2).cfg.cmsize ∧
    decode ((running 2).cm.read (running 2).cp.toNat) = .error .roundKeyIndex := ⟨rfl, by decide, rfl⟩

/-- FetchPastEndFaults, at `cp = CMSIZE` and at the largest `cp`. -/
theorem wit_FetchPastEndFaults : (running 8).st = .run ∧ (running 8).cfg.cmsize ≤ (running 8).cp.toNat ∧
    (running 0xFFFFFFFF).cfg.cmsize ≤ (running 0xFFFFFFFF).cp.toNat := ⟨rfl, by decide, by decide⟩

/-- StoppedSequencerDoesNothing, HostStart and the clauses of HostWrites on a stopped sequencer, in each of the three
states. -/
theorem wit_stopped : State.reset.st ≠ .run ∧ (after ak 0x02000000).st ≠ .run ∧
    (after ak 0x00000000).st ≠ .run := by decide +kernel

/-- FaultsArePrecise and RestartsAfterAFault: a fetch past the end. -/
theorem wit_FaultsArePrecise : ∃ t, (running 8).st = .run ∧ step (running 8) = .next t ∧ t.st = .faulted :=
  ⟨_, rfl, rfl, rfl⟩

/-- CommandPointerAdvances: `HALT`, a command that completes, and one that faults. -/
theorem wit_CommandPointerAdvances : ∃ t u x, (running 0).st = .run ∧ exec .halt (running 0) = .next t ∧
    exec .nop (running 0) = .next u ∧ exec (.sethw 4 true) (started false []) = .next x ∧ x.st = .faulted :=
  ⟨_, _, _, rfl, rfl, rfl, rfl, rfl⟩

/-- OnlyDestinationsChange and ModeChangesNoResult. -/
theorem wit_ModeChangesNoResult : (∀ rd mode, Instr.xor 3 1 2 ≠ .sethw rd mode) ∧
    (∀ rd, Instr.xor 3 1 2 ≠ .getst rd) ∧ ∃ t, exec (.xor 3 1 2) ak = .next t :=
  ⟨by simp, by simp, _, rfl⟩

/-- EveryRunEnds, on the smallest and the largest instance. -/
theorem wit_EveryRunEnds : (inst true).wf ∧ Config.largest.wf ∧
    ({ hwcap := false, cmsize := 1, memsize := 16, maxdim := 1 } : Config).wf ∧ ak.cfg.wf ∧ ak.st = .run := by
  decide +kernel

/-- The hypotheses of the second clause of ResetSatisfiesInvariant, with memories that list something. -/
theorem wit_ResetSatisfiesInvariant : (inst true).wf ∧
    (Memory.wf t4Image ∧ ∀ x ∈ t4Image, x.1 < (inst true).memsize) ∧
    (Store.wf program ∧ ∀ x ∈ program, x.1 < (inst true).cmsize) := by
  decide +kernel

/-- The instance with the program and the image, after reset. -/
theorem wit_Reachable_powerUp : Reachable (State.afterReset (inst true) t4Image program) :=
  .powerUp _ _ _ wit_ResetSatisfiesInvariant.1 wit_ResetSatisfiesInvariant.2.1 wit_ResetSatisfiesInvariant.2.2

/-- ReachableStatesSatisfyInvariant: a running sequencer is reachable. -/
theorem wit_Reachable_started : Reachable (running 0) := .host startAction wit_Reachable_powerUp rfl

/-- ReachableScheduleIsOfTheKey: a reachable state with `KSV = 1`. -/
theorem wit_ReachableScheduleIsOfTheKey : ∃ s, Reachable s ∧ s.ksv = true :=
  ⟨_, .step (.step wit_Reachable_started (t := ((running 0).setKey 0).advance) rfl) (t := _) rfl, rfl⟩

/-- StepKeepsInvariant and HostKeepsInvariant: a running state with the invariant, a step and an action of it. -/
theorem wit_Invariant : Invariant (running 0) ∧ (∃ t, step (running 0) = .next t) ∧
    ∃ t, hostAct (.resetMidCommand [1, 2]) (running 0) = .next t := by
  refine ⟨⟨by decide +kernel, by decide +kernel, by decide +kernel, by decide +kernel, ?_, fun _ => rfl, by decide⟩,
    ⟨_, rfl⟩, ⟨_, rfl⟩⟩
  intro h
  cases h

/-- ResetMidCommandLosesOnlyTheWriteSet: a `STB` cut with one byte written. -/
theorem wit_ResetMidCommand : (withWord ak 0x52300004).st = .run ∧
    (withWord ak 0x52300004).cp.toNat < (withWord ak 0x52300004).cfg.cmsize ∧
    decode ((withWord ak 0x52300004).cm.read (withWord ak 0x52300004).cp.toNat) = .ok (.stb 3 4) ∧
    (withWord ak 0x52300004).dm.wf ∧ 0 < [0x12#8].length ∧ 0 < (writeSet (.stb 3 4) (withWord ak 0x52300004)).2 :=
  ⟨rfl, by decide, rfl, by decide +kernel, by decide, by decide +kernel⟩

/-- HostWrites, clause by clause: a reserved bit; `RESET` alone and with `START`; the first and the last read-only
offset; a running sequencer; the last locations of the two memories of a stopped one. -/
theorem wit_HostWrites : (0x5 : Word).extractLsb' 2 30 ≠ 0 ∧ (0x2 : Word).extractLsb' 1 31 = 1 ∧
    (0x3 : Word).extractLsb' 1 31 = 1 ∧
    0x04 ∈ [0x04, 0x08, 0x10, 0x18, 0x1C] ∧ 0x1C ∈ [0x04, 0x08, 0x10, 0x18, 0x1C] ∧
    ak.st = .run ∧ State.reset.st ≠ .run ∧
    2 ^ 63 - 1 < State.reset.cfg.memsize ∧ State.reset.dm.wf ∧ 2 ^ 31 - 1 < State.reset.cfg.cmsize ∧
    Store.wf State.reset.cm := by
  decide +kernel

/-- SethwSetsTheMode: each value of the mode on each instance, but for the pair that faults, and that pair. -/
theorem wit_Sethw : (true = true → (started true []).cfg.hwcap = true) ∧
    (false = true → (started false []).cfg.hwcap = true) ∧ (started false []).cfg.hwcap = false := by
  decide

/-- StageCommandsCompose. -/
theorem wit_StageCommandsCompose : (3 : VReg) ≠ 2 := by decide

/-- AesgenEncrypts and GetrkReadsRoundKey (at index 10); KeyScheduleInvalidFaults (at index 10) and its last clause. -/
theorem wit_schedule : akKey.ksv = true ∧ (10 : BitVec 4).toNat < 11 ∧ ak.ksv = false ∧
    (10 : BitVec 4).toNat ≤ 10 ∧ ∃ t, ak.cause ≠ some .keyScheduleInvalid ∧
      exec (.getrk 3 10) ak = .next t ∧ t.cause = some .keyScheduleInvalid :=
  ⟨rfl, by decide, rfl, by decide, _, by decide, rfl, rfl⟩

/-- ArsgenEncrypts and GeneratorsAreBijections, at the fewest and the most rounds. -/
theorem wit_rounds : (1 : Byte) ≠ 0 ∧ (255 : Byte) ≠ 0 ∧ 1 ≤ 1 := by decide

/-- GmulMultiplies and GapplyApplies. -/
theorem wit_matrices : (mats.getM 1).rows ≠ 0 ∧ (mats.getM 2).rows ≠ 0 ∧
    (mats.getM 1).cols = (mats.getM 2).rows ∧ ((mats.setM 3 (mat 4 [1])).getM 3).rows = 1 ∧
    ((mats.setM 3 (mat 4 [1])).getM 3).cols = (mats.getM 1).cols := by
  decide +kernel

/-- GpowIsRepeatedProduct, with `ma = m1` and `mb = m2`, at `p = 0`, `1`, `-1`, `2^63 - 1` and `-2^63`, the source well
formed. -/
theorem wit_Gpow : (laneQ 0 0).toInt = 0 ∧ (laneQ 1 0).toInt = 1 ∧ (laneQ 0xffffffffffffffff 0).toInt = -1 ∧
    (laneQ 0x7fffffffffffffff 0).toInt = 2 ^ 63 - 1 ∧ (laneQ 0x8000000000000000 0).toInt = -2 ^ 63 ∧
    (mats.getM 1).rows ≠ 0 ∧ (mats.getM 1).rows = (mats.getM 1).cols ∧ (mats.getM 2).rows ≠ 0 ∧
    (mats.getM 2).rows = (mats.getM 2).cols ∧ (mats.getM 1).wf mats.cfg.maxdim ∧
    (mats.getM 2).wf mats.cfg.maxdim := by
  decide +kernel

/-- MatrixUnitFaults, clause by clause: `m3` empty as either operand; `T4` times the 2 by 3 matrix; for `GAPPLY` one
row of the wrong width and the right width in four rows; `GPOW` of an empty and of a 2 by 3 source. -/
theorem wit_MatrixUnitFaults : (mats.getM 3).rows = 0 ∧ (mats.getM 1).rows ≠ 0 ∧ (mats.getM 0).rows ≠ 0 ∧
    (mats.getM 1).cols ≠ (mats.getM 0).rows ∧ (mats.getM 2).rows ≠ 1 ∧
    ((mats.setM 2 (mat 3 [1])).getM 2).cols ≠ (mats.getM 1).cols ∧
    (0 : MReg) = (if 0 ≤ (laneQ (mats.getV 5) 0).toInt then 0 else 3) ∧
    (3 : MReg) = (if 0 ≤ (laneQ ((mats.setV 5 0xffffffffffffffff).getV 5) 0).toInt then 0 else 3) ∧
    (mats.getM 0).rows ≠ (mats.getM 0).cols := by
  decide +kernel

/-- JumpAheadIsRepeatedSteps and the clauses of PowersAddAndMultiply, at the largest exponents. -/
theorem wit_powers : 2 ^ 64 - 1 < 2 ^ 64 ∧ t4.rows = t4.cols ∧ (mat 4 [1]).rows = 1 ∧ (mat 4 [1]).cols = t4.cols ∧
    (mat 4 [1]).wf 4 ∧ (mat 3 [0x5, 0x3]).cols = (mat 2 [0x1, 0x3, 0x2]).rows ∧
    (mat 2 [0x1, 0x3, 0x2]).cols = (mat 1 [0x1, 0x1]).rows ∧ (mat 2 [0x1]).cols = (mat 2 [0x1, 0x3, 0x2]).cols ∧
    (mat 2 [0x1]).rows = 1 ∧ (2 ^ 64 - 1) + 0 < 2 ^ 64 ∧ (2 ^ 64 - 1) * 1 < 2 ^ 64 := by
  decide +kernel

/-- BlockLoad and BlockStore at the last legal address, in both forms; BlockAccessFaults one block further, misaligned,
and aligned out of range. -/
theorem wit_blocks : 16 * (0x1F : BitVec 20).toNat + 16 ≤ ak.cfg.memsize ∧ ak.dm.wf ∧
    (indexedEA ((ak.setV 2 0x200).getV 2) 0xFFF).toNat % 16 = 0 ∧
    (indexedEA ((ak.setV 2 0x200).getV 2) 0xFFF).toNat + 16 ≤ ak.cfg.memsize ∧
    ak.cfg.memsize < 16 * (0x20 : BitVec 20).toNat + 16 ∧
    (indexedEA ((ak.setV 2 0x1f8).getV 2) 0).toNat % 16 ≠ 0 ∧
    (indexedEA ((ak.setV 2 0x200).getV 2) 0).toNat % 16 = 0 ∧
    ak.cfg.memsize < (indexedEA ((ak.setV 2 0x200).getV 2) 0).toNat + 16 := by
  decide +kernel

/-- A state with `T4`'s image at 0x100, base 0x100 in `v2`, and `T4` in `m1`. -/
def imaged : State := ((started true t4Image).setV 2 0x100).setM 1 t4

/-- The image at 0x100 is one a load accepts. -/
theorem wit_not_BadImage : ¬ BadImage imaged 0x100 := by
  have hr : (readWord imaged.dm 0x100).toNat = 4 := by decide +kernel
  have hc : (readWord imaged.dm (0x100 + 4)).toNat = 4 := by decide +kernel
  have hp : ∀ r, r < 4 → ∀ c, c < 8 → 4 ≤ c →
      (imaged.dm.read (0x100 + 8 + r * ((4 + 7) / 8) + c / 8)).getLsbD (c % 8) = false := by decide +kernel
  have hm : imaged.cfg.maxdim = 16 ∧ imaged.cfg.memsize = 0x200 := by decide
  rintro ⟨rows, cols, hh, hb⟩
  obtain ⟨rfl, rfl⟩ := holdsHeader_iff.1 hh
  rw [BadImageOf, hr, hc, hm.1, hm.2] at hb
  rcases hb with h | h | h | h | h | ⟨r, c, h1, h2, h3, h4⟩
  · exact absurd h (by decide)
  · exact absurd h (by decide)
  · exact absurd h (by decide)
  · exact absurd h (by decide)
  · exact absurd h (by decide)
  · rw [hp r h1 c h3 h2] at h4
    cases h4

/-- MatrixLoad, in both forms. -/
theorem wit_MatrixLoad : 0x100 = 16 * (0x10 : BitVec 20).toNat ∧ 0x100 + 8 ≤ imaged.cfg.memsize ∧
    ¬ BadImage imaged 0x100 ∧ 0x100 = (indexedEA (imaged.getV 2) 0).toNat ∧ 0x100 % 16 = 0 :=
  ⟨by decide, by decide, wit_not_BadImage, by decide +kernel, by decide⟩

/-- MatrixTransferFaults: the bad image (a zero row count), at the last address a header fits; the header past the end; a
misaligned address; an empty register; an image that does not fit by one block. -/
theorem wit_MatrixTransferFaults : BadImage imaged 0x1f0 ∧ 0x1f0 + 8 ≤ imaged.cfg.memsize ∧
    imaged.cfg.memsize < 0x200 + 8 ∧ (indexedEA ((imaged.setV 2 0x208).getV 2) 0).toNat % 16 ≠ 0 ∧
    (imaged.getM 0).rows = 0 ∧ (imaged.getM 1).rows ≠ 0 ∧ imaged.cfg.memsize < 0x200 + (8 + 4 * ((4 + 7) / 8)) :=
  ⟨⟨0, 0, by unfold HoldsHeader; decide +kernel, .inl (by decide)⟩, by decide, by decide, by decide +kernel,
    by decide +kernel, by decide +kernel, by decide⟩

/-- MatrixStore and StoredValuesLoadBack, in both forms: `T4` at the last block, where its 12 bytes fit. -/
theorem wit_MatrixStore : imaged.dm.wf ∧ (imaged.getM 1).rows ≠ 0 ∧ (imaged.getM 1).wf imaged.cfg.maxdim ∧
    0x1f0 = 16 * (0x1F : BitVec 20).toNat ∧
    0x1f0 + (8 + (imaged.getM 1).rows.toNat * (((imaged.getM 1).cols.toNat + 7) / 8)) ≤ imaged.cfg.memsize ∧
    0x1f0 = (indexedEA (imaged.getV 2) 0xF).toNat ∧ 0x1f0 % 16 = 0 ∧
    16 * (0x1F : BitVec 20).toNat + 16 ≤ imaged.cfg.memsize := by
  decide +kernel

end Sys2Proof.Tests
end

-- The invariant of the machine is kept by every step and by every action of the host.
section
/-!
PROOFS. The invariant of Safety.lean: one lemma per update of the state, then every command, the step, and every
action of the host by those lemmas.
-/

namespace Sys2Proof.Safety

open Sys2Proof.Machine

/-! ## Memories within their bounds -/

/-- A memory in canonical form within `n` locations stays so when one of them is written. -/
theorem write_wf_bound {w n a : Nat} {m : Store w} (h : Store.wf m ∧ ∀ e ∈ m, e.1 < n) (ha : a < n)
    (x : BitVec w) : Store.wf (m.write a x) ∧ ∀ e ∈ m.write a x, e.1 < n := by
  obtain ⟨hwf, hbound⟩ := h
  refine ⟨write_wf hwf a x, fun e he => ?_⟩
  rcases mem_write he with he | rfl
  · exact hbound e he
  · exact ha

/-- A data memory in canonical form within `n` bytes stays so when bytes within that bound are stored. -/
theorem writeBytes_wf_bound {dm : Memory} {n a : Nat} {bs : List Byte} (h : dm.wf ∧ ∀ e ∈ dm, e.1 < n)
    (hn : a + bs.length ≤ n) : (writeBytes dm a bs).wf ∧ ∀ e ∈ writeBytes dm a bs, e.1 < n :=
  ⟨writeBytes_wf h.1 a bs, writeBytes_bound h.2 hn⟩

/-- The write set of a block store lies within the data memory (R65, R66). -/
theorem blockWriteSet_le (s : State) (ea : DWord) :
    (blockWriteSet s ea).1 + (blockWriteSet s ea).2 ≤ s.cfg.memsize := by
  unfold blockWriteSet
  split
  · exact Nat.zero_le _
  · next hf => exact (blockFault_none.1 hf).2

/-- The write set of a matrix store lies within the data memory (R66, R238). -/
theorem matrixWriteSet_le (s : State) (rd : MReg) (ea : DWord) :
    (matrixWriteSet s rd ea).1 + (matrixWriteSet s rd ea).2 ≤ s.cfg.memsize := by
  unfold matrixWriteSet
  split
  · exact Nat.zero_le _
  · next hf =>
    obtain ⟨-, -, hrange⟩ := matrixStoreFault_none.1 hf
    exact hrange

/-- The write set of every command lies within the data memory (R66). -/
theorem writeSet_le (i : Instr) (s : State) : (writeSet i s).1 + (writeSet i s).2 ≤ s.cfg.memsize := by
  cases i with
  | stb rd imm20 => exact blockWriteSet_le s _
  | stbx rd ra imm12 => exact blockWriteSet_le s _
  | gst rd imm20 => exact matrixWriteSet_le s rd _
  | gstx rd ra imm12 => exact matrixWriteSet_le s rd _
  | _ => exact Nat.zero_le _

/-! ## The updates of the state -/

variable {s t : State}

/-- Outside `FAULTED` no cause is recorded (R39). -/
theorem Invariant.cause_none (hi : Invariant s) (hs : s.st ≠ .faulted) : s.cause = none := by
  have hc : ¬ s.cause.isSome = true := fun h => hs (hi.cause.2 h)
  simpa using hc

theorem Invariant.setV (hi : Invariant s) (rd : VReg) (x : Block) : Invariant (s.setV rd x) :=
  { hi with }

theorem Invariant.setM (hi : Invariant s) (rd : MReg) {x : Matrix} (hx : x.wf s.cfg.maxdim) :
    Invariant (s.setM rd x) :=
  { hi with
    matrices := fun j => by
      rw [getM_setM]
      split
      · exact hx
      · exact hi.matrices j }

/-- A new key makes the schedule invalid, so nothing is left to say of the round keys (R26). -/
theorem Invariant.setKey (hi : Invariant s) (k : Block) : Invariant (s.setKey k) :=
  { hi with schedule := nofun }

theorem Invariant.setSchedule (hi : Invariant s) : Invariant (s.setSchedule (keyExpansion s.key)) :=
  { hi with schedule := fun _ => rfl }

theorem Invariant.setHw (hi : Invariant s) {b : Bool} (hb : b = true → s.cfg.hwcap = true) :
    Invariant (s.setHw b) :=
  { hi with mode := hb }

theorem Invariant.setDm (hi : Invariant s) {d : Memory} (hd : d.wf ∧ ∀ e ∈ d, e.1 < s.cfg.memsize) :
    Invariant (s.setDm d) :=
  { hi with dm := hd }

theorem Invariant.setCm (hi : Invariant s) {c : CmdMemory} (hc : Store.wf c ∧ ∀ e ∈ c, e.1 < s.cfg.cmsize) :
    Invariant { s with cm := c } :=
  { hi with cm := hc }

theorem Invariant.setCp (hi : Invariant s) (w : Word) : Invariant { s with cp := w } :=
  { hi with }

theorem Invariant.advance (hi : Invariant s) : Invariant s.advance :=
  hi.setCp _

/-- Halting needs a sequencer that has not faulted: `CAUSE` is left as it is (R241). -/
theorem Invariant.halt (hi : Invariant s) (hs : s.st ≠ .faulted) : Invariant s.halt :=
  { hi with cause := by simp [hi.cause_none hs] }

theorem Invariant.takeFault (hi : Invariant s) (c : Cause) (info : DWord) : Invariant (s.takeFault c info) :=
  { hi with cause := by simp }

theorem Invariant.started (hi : Invariant s) : Invariant s.started :=
  { hi with cause := by simp }

/-- An empty matrix register is one R34 allows. -/
theorem matrixEmpty_wf (n : Nat) : Matrix.empty.wf n := by simp [Matrix.empty]

/-- Reset establishes the invariant, whatever the memories hold within their bounds (R300, R302). -/
theorem invariant_afterReset {c : Config} {dm : Memory} {cm : CmdMemory} (hc : c.wf)
    (hdm : dm.wf ∧ ∀ e ∈ dm, e.1 < c.memsize) (hcm : Store.wf cm ∧ ∀ e ∈ cm, e.1 < c.cmsize) :
    Invariant (State.afterReset c dm cm) where
  cfg := hc
  dm := hdm
  cm := hcm
  matrices i := by
    rw [afterReset_getM]
    exact matrixEmpty_wf _
  schedule := nofun
  mode := id
  cause := by simp [State.afterReset]

theorem Invariant.resetNow (hi : Invariant s) : Invariant s.resetNow :=
  invariant_afterReset hi.cfg hi.dm hi.cm

/-! ## Commands and steps -/

/-- Every effect a command of a running sequencer can have keeps the invariant. -/
theorem Invariant.of_effect {i : Instr} (hi : Invariant s) (hs : s.st = .run) (he : Effect i s t) :
    Invariant t := by
  cases he with
  | fault c info => exact hi.takeFault c info
  | halt _ => exact hi.halt (by simp [hs])
  | nop _ => exact hi.advance
  | block rd x _ _ => exact (hi.setV rd x).advance
  | matrix rd x _ hx => exact (hi.setM rd (hx hi.matrices)).advance
  | store bs hlen hrange => exact (hi.setDm (writeBytes_wf_bound hi.dm (by rwa [hlen]))).advance
  | mode rd m _ hcap => exact ((hi.setV rd _).setHw hcap).advance
  | key ra _ => exact (hi.setKey _).advance
  | schedule _ => exact hi.setSchedule.advance

theorem Invariant.of_step (hi : Invariant s) (h : step s = .next t) : Invariant t := by
  by_cases hs : s.st = .run
  · rcases step_run h hs with ⟨c, info, rfl⟩ | ⟨i, -, -, hexec⟩
    · exact hi.takeFault c info
    · exact hi.of_effect hs (exec_effect hexec)
  · rw [step_stopped hs] at h
    cases h
    exact hi

/-- Settles O15: a running sequencer takes a fault or executes a command, whose effect is one of those of
`Effect`; a stopped one stays as it is. -/
theorem stepKeepsInvariant : Obligations.StepKeepsInvariant :=
  fun _ _ hi h => hi.of_step h

/-! ## The host -/

/-- A command cut by a reset leaves the data memory within its bounds: the bytes it loses are of its write set
(R301). -/
theorem cutMemory_wf_bound (hi : Invariant s) (bytes : List Byte) :
    (cutMemory bytes s).wf ∧ ∀ e ∈ cutMemory bytes s, e.1 < s.cfg.memsize := by
  unfold cutMemory
  split
  · exact hi.dm
  · split
    · exact hi.dm
    · next i _ => exact writeBytes_wf_bound hi.dm (by simpa using writeSet_le i s)

theorem Invariant.resetCutting (hi : Invariant s) (bytes : List Byte) : Invariant (resetCutting bytes s) := by
  unfold Machine.resetCutting
  split
  · exact invariant_afterReset hi.cfg (cutMemory_wf_bound hi bytes) hi.cm
  · exact hi.resetNow

theorem Invariant.writeCtrl (hi : Invariant s) (w : Word) : Invariant (writeCtrl w s) := by
  unfold Machine.writeCtrl
  split
  · exact hi
  · split
    · exact hi.resetNow
    · split
      · exact hi.started
      · exact hi

/-- A write of `CP` is ignored while the sequencer runs (R37, R280). -/
theorem hostWriteReg_cp (w : Word) (s : State) :
    hostWriteReg .cp w s = if s.st = .run then s else { s with cp := w } := rfl

theorem Invariant.hostWriteReg (hi : Invariant s) (r : HostReg) (w : Word) :
    Invariant (hostWriteReg r w s) := by
  cases r with
  | ctrl => exact hi.writeCtrl w
  | cp =>
    rw [hostWriteReg_cp]
    split
    · exact hi
    · exact hi.setCp w
  | status | cause | fcp | finfoLow | finfoHigh => exact hi

/-- A write of a host register that is answered is of a register of R37. -/
theorem hostAct_writeReg_next {offset : Nat} {w : Word} (h : hostAct (.writeReg offset w) s = .next t) :
    ∃ r, hostRegAt offset = some r ∧ t = hostWriteReg r w s := by
  simp only [hostAct] at h
  split at h
  · next r hr =>
    cases h
    exact ⟨r, hr, rfl⟩
  · cases h

/-- A write of `DM` that is answered is ignored, or is of a byte the instance has (R280). -/
theorem hostAct_writeDm_next {a : Nat} {b : Byte} (h : hostAct (.writeDm a b) s = .next t) :
    (s.st = .run ∧ t = s) ∨ (s.st ≠ .run ∧ a < s.cfg.memsize ∧ t = s.setDm (s.dm.write a b)) := by
  simp only [hostAct] at h
  split at h
  · next hs =>
    cases h
    exact .inl ⟨hs, rfl⟩
  · next hs =>
    split at h
    · next ha =>
      cases h
      exact .inr ⟨hs, ha, rfl⟩
    · cases h

/-- A write of `CM` that is answered is ignored, or is of a word the instance has (R280). -/
theorem hostAct_writeCm_next {j : Nat} {w : Word} (h : hostAct (.writeCm j w) s = .next t) :
    (s.st = .run ∧ t = s) ∨ (s.st ≠ .run ∧ j < s.cfg.cmsize ∧ t = { s with cm := s.cm.write j w }) := by
  simp only [hostAct] at h
  split at h
  · next hs =>
    cases h
    exact .inl ⟨hs, rfl⟩
  · next hs =>
    split at h
    · next hj =>
      cases h
      exact .inr ⟨hs, hj, rfl⟩
    · cases h

theorem Invariant.of_hostAct {a : HostAction} (hi : Invariant s) (h : hostAct a s = .next t) :
    Invariant t := by
  cases a with
  | resetInput =>
    cases h
    exact hi.resetNow
  | resetMidCommand bytes =>
    cases h
    exact hi.resetCutting bytes
  | writeReg offset w =>
    obtain ⟨r, -, rfl⟩ := hostAct_writeReg_next h
    exact hi.hostWriteReg r w
  | writeDm a b =>
    rcases hostAct_writeDm_next h with ⟨-, rfl⟩ | ⟨-, ha, rfl⟩
    · exact hi
    · exact hi.setDm (write_wf_bound hi.dm ha b)
  | writeCm j w =>
    rcases hostAct_writeCm_next h with ⟨-, rfl⟩ | ⟨-, hj, rfl⟩
    · exact hi
    · exact hi.setCm (write_wf_bound hi.cm hj w)

/-- Settles O16: each action is a reset, a start, or a write of `CP` or of one location of a memory within its
bound, or does nothing. -/
theorem hostKeepsInvariant : Obligations.HostKeepsInvariant :=
  fun _ _ _ hi h => hi.of_hostAct h

end Sys2Proof.Safety
end

-- The frame of every command, and what it does to `cp`.
section
/-!
PROOFS. What a command leaves unchanged, by the effects of `Effect`: one lemma per piece of the state, which names the
effects that write it. Then `cp` after a command (R28).
-/

namespace Sys2Proof.Safety

open Sys2Proof.Machine

variable {i : Instr} {s t : State}

/-! ## Taking a fault -/

/-- A fault taken touches no data (R262). -/
theorem keepsData_takeFault (s : State) (c : Cause) (info : DWord) : KeepsData s (s.takeFault c info) :=
  ⟨fun _ => rfl, fun _ => rfl, ⟨rfl, rfl, rfl⟩, rfl, fun _ => rfl, rfl, rfl⟩

/-- The state `takeFault` leads to is the one that R262 describes. -/
theorem takesFault_takeFault (s : State) (c : Cause) (info : DWord) :
    TakesFault c info s (s.takeFault c info) :=
  ⟨rfl, rfl, rfl, rfl, rfl, by simp [faultOutput], keepsData_takeFault s c info⟩

/-! ## Each piece of the state, and the effects that write it -/

/-- Block registers change by a block result or by `SETHW`, in the register named (R22). -/
theorem getV_of_effect (he : Effect i s t) {r : VReg} (hr : destinationBlock i ≠ some r) :
    t.getV r = s.getV r := by
  cases he with
  | block rd x hd _ => exact getV_setV_ne s rd r x fun h => hr (h ▸ hd)
  | mode rd m hi _ => exact getV_setV_ne s rd r _ fun h => hr (by rw [hi, h]; rfl)
  | _ => rfl

/-- Matrix registers change by a matrix result, in the register named (R34). -/
theorem getM_of_effect (he : Effect i s t) {r : MReg} (hr : destinationMatrix i ≠ some r) :
    t.getM r = s.getM r := by
  cases he with
  | matrix rd x hd _ => exact getM_setM_ne s rd r x fun h => hr (h ▸ hd)
  | _ => rfl

/-- The data memory changes by a store, in the command's write set (R42, R66). -/
theorem keepsMemoryOutside_of_effect (he : Effect i s t) :
    KeepsMemoryOutside (writeSet i s).1 (writeSet i s).2 s t := by
  intro a ha
  cases he with
  | store bs hlen _ => exact read_writeBytes_outside s.dm _ bs (by rwa [hlen])
  | _ => rfl

/-- `KEY` changes by `SETKEY` (R24). -/
theorem key_of_effect (he : Effect i s t) (hk : ∀ ra, i ≠ .setkey ra) : t.key = s.key := by
  cases he with
  | key ra hi => exact absurd hi (hk ra)
  | _ => rfl

/-- The round keys change by `KEYEXP` (R25). -/
theorem rk_of_effect (he : Effect i s t) (hk : i ≠ .keyexp) : t.rk = s.rk := by
  cases he with
  | schedule hi => exact absurd hi hk
  | _ => rfl

/-- `KSV` changes by `SETKEY` and by `KEYEXP` (R26). -/
theorem ksv_of_effect (he : Effect i s t) (hs : ∀ ra, i ≠ .setkey ra) (hk : i ≠ .keyexp) : t.ksv = s.ksv := by
  cases he with
  | key ra hi => exact absurd hi (hs ra)
  | schedule hi => exact absurd hi hk
  | _ => rfl

/-- `MODE.HW` changes by `SETHW` (R30). -/
theorem hw_of_effect (he : Effect i s t) (hm : ∀ rd mode, i ≠ .sethw rd mode) : t.hw = s.hw := by
  cases he with
  | mode rd m hi _ => exact absurd hi (hm rd m)
  | _ => rfl

/-- No command writes a parameter of the instance or the command memory (R8, R43). -/
theorem keepsInstance_of_effect (he : Effect i s t) : KeepsInstance s t := by
  cases he <;> exact ⟨rfl, rfl⟩

/-- The registers of the run change by a fault, and `STATE` by `HALT` (R38, R39). -/
theorem runState_of_effect (he : Effect i s t) :
    (t.cause = s.cause ∧ t.fcp = s.fcp ∧ t.finfo = s.finfo ∧ (i ≠ .halt → t.st = s.st)) ∨
      ∃ c info, TakesFault c info s t := by
  cases he with
  | fault c info => exact .inr ⟨c, info, takesFault_takeFault s c info⟩
  | halt hi => exact .inl ⟨rfl, rfl, rfl, fun h => absurd hi h⟩
  | _ => exact .inl ⟨rfl, rfl, rfl, fun _ => rfl⟩

/-- Settles O12: the frame of each effect, for the effects that `exec` can have. -/
theorem onlyDestinationsChange : Obligations.OnlyDestinationsChange := by
  intro i s t h
  have he := exec_effect h
  exact ⟨fun _ => getV_of_effect he, fun _ => getM_of_effect he, keepsMemoryOutside_of_effect he,
    key_of_effect he, rk_of_effect he, ksv_of_effect he, hw_of_effect he, keepsInstance_of_effect he,
    runState_of_effect he⟩

/-! ## The command pointer -/

/-- A command other than `HALT` faults, or goes on to the next command in the same `STATE` (R28). -/
theorem cp_of_effect (he : Effect i s t) (hi : i ≠ .halt) :
    (t.st = .faulted ∧ t.cp = s.cp) ∨ (t.st = s.st ∧ t.cp = s.cp + 1) := by
  cases he with
  | fault c info => exact .inl ⟨rfl, rfl⟩
  | halt h => exact absurd h hi
  | _ => exact .inr ⟨rfl, rfl⟩

theorem exec_halt (s : State) : exec .halt s = .next s.halt := rfl

/-- Settles O11: `HALT` has one next state, and any other command faults or advances. -/
theorem commandPointerAdvances : Obligations.CommandPointerAdvances := by
  intro i s t hs h
  by_cases hi : i = .halt
  · subst hi
    rw [exec_halt] at h
    cases h
    exact .inr (.inl ⟨rfl, rfl, rfl⟩)
  · rcases cp_of_effect (exec_effect h) hi with ⟨hst, hcp⟩ | ⟨hst, hcp⟩
    · exact .inr (.inr ⟨hi, hst, hcp⟩)
    · exact .inl ⟨hi, hst.trans hs, hcp⟩

end Sys2Proof.Safety
end

-- The reachable states have the invariant, and what `KSV` says of their round keys.
section
/-!
PROOFS. Reset, every step and every host action keep the invariant, so every reachable state has it; `KSV = 1` then
says that the round keys are those of the present key (R26).
-/

namespace Sys2Proof.Safety

open Sys2Proof.Machine

variable {s : State}

/-- The empty memory is in canonical form and within any bound. -/
theorem store_wf_nil_bound {w : Nat} (n : Nat) : Store.wf ([] : Store w) ∧ ∀ e ∈ ([] : Store w), e.1 < n :=
  ⟨⟨.nil, nofun⟩, nofun⟩

/-- Settles O17: the memories of `State.reset` list nothing, and any others are within their bounds by hypothesis. -/
theorem resetSatisfiesInvariant : Obligations.ResetSatisfiesInvariant :=
  ⟨invariant_afterReset (by decide) (store_wf_nil_bound _) (store_wf_nil_bound _),
    fun _ _ _ hc hdm hcm => invariant_afterReset hc hdm hcm⟩

/-- The invariant along every history of steps and host actions from power-up. -/
theorem Reachable.invariant (h : Reachable s) : Invariant s := by
  induction h with
  | powerUp c dm cm hc hdm hcm => exact invariant_afterReset hc hdm hcm
  | step _ hs ih => exact ih.of_step hs
  | host a _ hs ih => exact ih.of_hostAct hs

/-- Settles O19, by induction on how the state was reached. -/
theorem reachableStatesSatisfyInvariant : Obligations.ReachableStatesSatisfyInvariant :=
  fun _ h => h.invariant

/-! ## The key schedule -/

theorem exec_keyexp (s : State) : exec .keyexp s = .next (s.setSchedule (keyExpansion s.key)).advance := rfl

theorem exec_setkey (ra : VReg) (s : State) : exec (.setkey ra) s = .next (s.setKey (s.getV ra)).advance := rfl

theorem exec_aesgen (rd ra : VReg) (s : State) :
    exec (.aesgen rd ra) s = withSchedule rd (aes128 s.rk (s.getV ra)) s := rfl

/-- `GETRK` of a legal index is a command that needs the schedule (R168). -/
theorem exec_getrk (rd : VReg) {k : BitVec 4} (s : State) (hk : k.toNat ≤ 10) :
    exec (.getrk rd k) s = withSchedule rd (roundKeyAt s k.toNat hk) s :=
  dif_pos hk

/-- A command that needs the schedule faults while `KSV = 0` (R26, R266). -/
theorem withSchedule_takesFault (rd : VReg) (x : Block) (h : s.ksv = false) :
    ∃ t, withSchedule rd x s = .next t ∧ TakesFault .keyScheduleInvalid 0 s t := by
  rcases withSchedule_cases rd x s with ⟨hvalid, -⟩ | ⟨-, hfault⟩
  · simp [h] at hvalid
  · exact ⟨_, hfault, takesFault_takeFault s _ _⟩

/-- Settles O18: the invariant of reachable states, and what each command does to `KSV` or needs of it. -/
theorem reachableScheduleIsOfTheKey : Obligations.ReachableScheduleIsOfTheKey := by
  refine ⟨fun s hs hksv k hk => ?_, fun s => ⟨_, exec_keyexp s, rfl⟩,
    fun ra s => ⟨_, exec_setkey ra s, rfl⟩, fun _ => rfl, fun rd ra s h => ?_, fun rd k s hk h => ?_⟩
  · simp only [hs.invariant.schedule hksv]
  · rw [exec_aesgen]
    exact withSchedule_takesFault rd _ h
  · rw [exec_getrk rd s hk]
    exact withSchedule_takesFault rd _ h

end Sys2Proof.Safety
end

-- Reset, and what the host writes and reads.
section
/-!
PROOFS. The host's port: what a write of `CTRL`, of `CP` and of a memory comes to, and the fields of the registers it
reads (10_state.md R37 to R40, 60_exceptions.md R280 to R282).
-/

namespace Sys2Proof.Machine

/-- Bits above the last lane of a packed value are 0. -/
theorem pack_getLsbD_of_ge {w n : Nat} (xs : List (BitVec w)) {j : Nat} (h : w * xs.length ≤ j) :
    (pack n xs).getLsbD j = false := by
  induction xs generalizing j with
  | nil => simp [pack]
  | cons x xs ih =>
    have hw : w ≤ j ∧ w * xs.length ≤ j - w := by
      rw [List.length_cons, Nat.mul_succ] at h
      omega
    simp [pack, ih hw.2, BitVec.getLsbD_of_ge x j hw.1]

end Sys2Proof.Machine

namespace Sys2Proof.Safety

open Sys2Proof.Machine

variable {s : State}

/-! ## Writes -/

theorem hostAct_writeCtrl (w : Word) (s : State) : hostAct (.writeReg 0x00 w) s = .next (writeCtrl w s) := rfl

theorem hostAct_cpAction (w : Word) (s : State) :
    hostAct (cpAction w) s = .next (if s.st = .run then s else { s with cp := w }) := rfl

/-- `CTRL` with a reserved bit set is ignored as a whole (R37). -/
theorem writeCtrl_reserved {w : Word} (h : w.extractLsb' 2 30 ≠ 0) : writeCtrl w s = s := if_pos h

/-- `CTRL` with `RESET` and no reserved bit resets, whatever `START` and `STATE` are (R40). -/
theorem writeCtrl_reset {w : Word} (h0 : w.extractLsb' 2 30 = 0) (h1 : w.getLsbD 1 = true) :
    writeCtrl w s = s.resetNow := by
  simp [writeCtrl, h0, h1]

/-- A word whose bits 31:1 read as 1 has `RESET` set and no reserved bit (R37). -/
theorem reset_bits {w : Word} (h : w.extractLsb' 1 31 = 1) : w.extractLsb' 2 30 = 0 ∧ w.getLsbD 1 = true := by
  have bit : ∀ j, j < 31 → w.getLsbD (1 + j) = (1#31).getLsbD j := fun j hj => by
    simpa [hj] using congrArg (·.getLsbD j) h
  refine ⟨?_, by simpa using bit 0 (by omega)⟩
  ext j hj
  have := bit (j + 1) (by omega)
  simpa [show 1 + (j + 1) = 2 + j by omega] using this

/-- `START` on a running sequencer is ignored (R38, R283). -/
theorem hostAct_startAction_run (hs : s.st = .run) : hostAct startAction s = .next s := by
  rw [startAction, hostAct_writeCtrl]
  simp [writeCtrl, hs]

theorem hostAct_writeDm_run (hs : s.st = .run) (a : Nat) (b : Byte) : hostAct (.writeDm a b) s = .next s :=
  if_pos hs

theorem hostAct_writeCm_run (hs : s.st = .run) (j : Nat) (w : Word) : hostAct (.writeCm j w) s = .next s :=
  if_pos hs

theorem hostAct_writeDm_stopped (hs : s.st ≠ .run) {a : Nat} (ha : a < s.cfg.memsize) (b : Byte) :
    hostAct (.writeDm a b) s = .next (s.setDm (s.dm.write a b)) := by
  simp [hostAct, hs, ha]

theorem hostAct_writeCm_stopped (hs : s.st ≠ .run) {j : Nat} (hj : j < s.cfg.cmsize) (w : Word) :
    hostAct (.writeCm j w) s = .next { s with cm := s.cm.write j w } := by
  simp [hostAct, hs, hj]

theorem hostReadDm_stopped (hs : s.st ≠ .run) {a : Nat} (ha : a < s.cfg.memsize) :
    hostReadDm a s = .next (s.dm.read a) := by
  simp [hostReadDm, hs, ha]

theorem hostReadCm_stopped (hs : s.st ≠ .run) {j : Nat} (hj : j < s.cfg.cmsize) :
    hostReadCm j s = .next (s.cm.read j) := by
  simp [hostReadCm, hs, hj]

/-- A write of a read-only register has no effect (R37, log 7). -/
theorem hostAct_writeReg_readOnly {offset : Nat} (h : offset ∈ [0x04, 0x08, 0x10, 0x18, 0x1C]) (w : Word)
    (s : State) : hostAct (.writeReg offset w) s = .next s := by
  simp only [List.mem_cons, List.not_mem_nil, or_false] at h
  rcases h with rfl | rfl | rfl | rfl | rfl <;> rfl

/-- On a stopped sequencer a write of `CP` changes `cp` and nothing else (R37, R282). -/
theorem cpAction_stopped (hs : s.st ≠ .run) (w : Word) :
    ∃ t, hostAct (cpAction w) s = .next t ∧ t.cp = w ∧ KeepsData s t ∧ KeepsRunState s t := by
  refine ⟨{ s with cp := w }, ?_, rfl, ?_, rfl, rfl, rfl, rfl⟩
  · rw [hostAct_cpAction, if_neg hs]
  · exact ⟨fun _ => rfl, fun _ => rfl, ⟨rfl, rfl, rfl⟩, rfl, fun _ => rfl, rfl, rfl⟩

/-- While the sequencer runs, the host's `START` and writes of `CP`, `DM` and `CM` are ignored, and a read of a memory
is refused (R280). -/
theorem host_running (hs : s.st = .run) (a : Nat) (b : Byte) (w : Word) :
    hostAct startAction s = .next s ∧ hostAct (cpAction w) s = .next s ∧
    hostAct (.writeDm a b) s = .next s ∧ hostAct (.writeCm a w) s = .next s ∧
    hostReadDm a s = .refused .hostReadWhileRunning ∧ hostReadCm a s = .refused .hostReadWhileRunning := by
  refine ⟨hostAct_startAction_run hs, ?_, hostAct_writeDm_run hs a b, hostAct_writeCm_run hs a w, if_pos hs,
    if_pos hs⟩
  rw [hostAct_cpAction, if_pos hs]

/-- A write of `DM[a]` is read back, and is the one change to the data memory (R62, R280). -/
theorem hostReadDm_write (hs : s.st ≠ .run) {a : Nat} (ha : a < s.cfg.memsize) (hdm : s.dm.wf) (b : Byte) :
    hostReadDm a (s.setDm (s.dm.write a b)) = .next b ∧
      KeepsMemoryOutside a 1 s (s.setDm (s.dm.write a b)) := by
  refine ⟨?_, fun c hc => read_write_ne b (by omega)⟩
  have hread := hostReadDm_stopped (s := s.setDm (s.dm.write a b)) hs ha
  rwa [setDm_dm, read_write_same hdm] at hread

/-- A write of `CM[j]` is read back (R280). -/
theorem hostReadCm_write (hs : s.st ≠ .run) {j : Nat} (hj : j < s.cfg.cmsize) (hcm : Store.wf s.cm) (w : Word) :
    hostReadCm j { s with cm := s.cm.write j w } = .next w := by
  have hread := hostReadCm_stopped (s := { s with cm := s.cm.write j w }) hs hj
  rwa [read_write_same hcm] at hread

/-- Settles O23: a write of `CTRL` by its bits, the writes while `STATE = RUN`, and the one location that a write
changes on a stopped sequencer. -/
theorem hostWrites : Obligations.HostWrites := by
  refine ⟨fun s w hw => ?reserved, fun _ => rfl, fun s w hw => ?reset,
    fun s offset w h => hostAct_writeReg_readOnly h w s, fun s a b w hs => host_running hs a b w,
    fun s w hs => cpAction_stopped hs w, fun s a b hs ha hdm => ?dm, fun s j w hs hj hcm => ?cm⟩
  case reserved => rw [hostAct_writeCtrl, writeCtrl_reserved hw]
  case reset =>
    obtain ⟨hreserved, hreset⟩ := reset_bits hw
    rw [hostAct_writeCtrl, writeCtrl_reset hreserved hreset]
  case dm =>
    obtain ⟨hread, hkeeps⟩ := hostReadDm_write hs ha hdm b
    exact ⟨_, hostAct_writeDm_stopped hs ha b, hread, hkeeps, fun _ => rfl, fun _ => rfl, ⟨rfl, rfl, rfl⟩, rfl, rfl,
      ⟨rfl, rfl, rfl, rfl⟩, rfl, rfl⟩
  case cm =>
    exact ⟨_, hostAct_writeCm_stopped hs hj w, hostReadCm_write hs hj hcm w, fun k hk => read_write_ne w hk,
      fun _ => rfl, fun _ => rfl, ⟨rfl, rfl, rfl⟩, rfl, fun _ => rfl, rfl, ⟨rfl, rfl, rfl, rfl⟩, rfl⟩

/-! ## Reset -/

/-- Settles O20: the reset input and `CTRL.RESET` both lead to `resetNow`, whose fields are those of R46. -/
theorem resetValues : Obligations.ResetValues := by
  intro s
  refine ⟨s.resetNow, rfl, ?_, afterReset_getV _ _ _, rfl, fun k hk => Vector.getElem_replicate hk, rfl, rfl,
    afterReset_getM _ _ _, rfl, rfl, rfl, rfl, rfl, rfl, rfl, rfl, rfl, rfl⟩
  rw [resetAction, hostAct_writeCtrl, writeCtrl_reset (by decide) (by decide)]

/-! ## Reads -/

/-- The three flags of `STATUS` (R37). -/
def statusFlags (s : State) : BitVec 4 :=
  pack 4 [BitVec.ofBool s.hw, BitVec.ofBool s.cfg.hwcap, BitVec.ofBool s.ksv]

theorem statusWord_eq (s : State) : statusWord s = pack 32 [(stateCode s.st).setWidth 4, statusFlags s] := rfl

/-- Bits 3:0 of `STATUS` are the code of `STATE`. -/
theorem statusWord_low (s : State) {j : Nat} (hj : j < 4) :
    (statusWord s).getLsbD j = (stateCode s.st).getLsbD j := by
  rw [statusWord_eq, pack_getLsbD_zero _ _ j hj (by omega)]
  simp [hj]

/-- Bits 7:4 of `STATUS` are the flags. -/
theorem statusWord_high (s : State) {j : Nat} (hj : j < 4) :
    (statusWord s).getLsbD (4 + j) = (statusFlags s).getLsbD j := by
  rw [statusWord_eq, pack_getLsbD_succ _ _ j (by omega), pack_getLsbD_zero _ _ j hj (by omega)]

/-- Flag `k` of `STATUS`. -/
theorem statusFlags_getLsbD (s : State) {k : Nat} (hk : k < 3) :
    (statusFlags s).getLsbD k = [s.hw, s.cfg.hwcap, s.ksv][k] := by
  have h := pack_getLsbD (n := 4) ([s.hw, s.cfg.hwcap, s.ksv].map BitVec.ofBool) k 0 (by omega) (by omega)
    (by simpa using hk)
  rw [List.getElem_map] at h
  simpa [statusFlags] using h

/-- The bits of `STATUS` that hold no field are 0 (R37). -/
theorem statusWord_unused (s : State) {j : Nat} (hj : j = 2 ∨ j = 3 ∨ 7 ≤ j) :
    (statusWord s).getLsbD j = false := by
  by_cases h4 : j < 4
  · rw [statusWord_low s h4]
    exact BitVec.getLsbD_of_ge _ j (by omega)
  by_cases h8 : j < 8
  · obtain rfl : j = 4 + 3 := by omega
    rw [statusWord_high s (by omega)]
    exact pack_getLsbD_of_ge _ (by simp)
  · rw [statusWord_eq]
    exact pack_getLsbD_of_ge _ (by simpa using h8)

/-- The field `STATE` of `STATUS` (R37, R38). -/
theorem statusWord_state (s : State) : (statusWord s).extractLsb' 0 2 = stateCode s.st := by
  ext j hj
  simpa [hj] using statusWord_low s (j := j) (by omega)

/-- What the host reads as `STATUS`, field by field (R37). -/
theorem hostReadReg_status (s : State) :
    ∃ w, hostReadReg 0x04 s = .next w ∧ w.extractLsb' 0 2 = stateCode s.st ∧ w.getLsbD 4 = s.hw ∧
      w.getLsbD 5 = s.cfg.hwcap ∧ w.getLsbD 6 = s.ksv ∧
      ∀ j, j = 2 ∨ j = 3 ∨ 7 ≤ j → w.getLsbD j = false := by
  have flag : ∀ k (hk : k < 3), (statusWord s).getLsbD (4 + k) = [s.hw, s.cfg.hwcap, s.ksv][k] := fun k hk => by
    rw [statusWord_high s (by omega), statusFlags_getLsbD s hk]
  exact ⟨statusWord s, rfl, statusWord_state s, flag 0 (by omega), flag 1 (by omega), flag 2 (by omega),
    fun _ => statusWord_unused s⟩

/-- What the host reads as `CAUSE`: the code in the low four bits (R37, R39). -/
theorem hostReadReg_cause (s : State) :
    ∃ w, hostReadReg 0x08 s = .next w ∧ w.extractLsb' 0 4 = causeField s.cause ∧
      ∀ j, 4 ≤ j → w.getLsbD j = false := by
  refine ⟨(causeField s.cause).setWidth 32, rfl, ?_, fun j hj => ?_⟩
  · ext j hj
    simp [hj, show j < 32 by omega]
  · simp [BitVec.getLsbD_of_ge _ j hj]

/-- The two words of `FINFO` are its halves (R37). -/
theorem finfo_halves (x : DWord) : x.extractLsb' 32 32 ++ x.extractLsb' 0 32 = x := by
  rw [BitVec.extractLsb'_append_extractLsb'_eq_extractLsb' (by omega)]
  exact BitVec.extractLsb'_eq_self

/-- Settles O24: the codes by definition, `STATUS` and `CAUSE` by their fields, `FINFO` by its halves. -/
theorem hostRegistersRead : Obligations.HostRegistersRead :=
  ⟨⟨rfl, rfl, rfl, rfl⟩, ⟨rfl, rfl, rfl, rfl, rfl, rfl, rfl, rfl, rfl, rfl⟩,
    fun s => ⟨rfl, hostReadReg_status s, hostReadReg_cause s, rfl, rfl, _, _, rfl, rfl, finfo_halves s.finfo⟩⟩

end Sys2Proof.Safety
end

-- What a stored block and a stored image read as, and which images a load accepts.
section
/-!
PROOFS. The data memory after a block store and after a matrix store, byte by byte and bit by bit (20_memory.md R62,
R72, R73); the checks of a load as a statement about the image that stands there (R74); and the faults of the matrix
transfers, each with its condition (44_memory_system.md R236 to R239).
-/

namespace Sys2Proof.Machine

open Sys2Proof.Safety

variable {dm : Memory} {s : State}

/-! ## Bytes stored -/

/-- A byte stored reads back (R62), by the list's own lookup. -/
theorem read_writeBytes_of_getElem? (hdm : dm.wf) (a : Nat) {bs : List Byte} {k : Nat} {b : Byte}
    (h : bs[k]? = some b) : (writeBytes dm a bs).read (a + k) = b := by
  obtain ⟨hk, rfl⟩ := List.getElem?_eq_some_iff.1 h
  exact read_writeBytes_inside hdm a bs hk

theorem bytesOf_getElem? {w n i : Nat} (x : BitVec w) (hi : i < n) :
    (bytesOf n x)[i]? = some (x.extractLsb' (8 * i) 8) := by
  simp [bytesOf, hi]

/-- Byte `i` of a stored block stands at `a + i` (R62). -/
theorem read_writeBlock (hdm : dm.wf) (a : Nat) (x : Block) {i : Nat} (hi : i < 16) :
    (writeBlock dm a x).read (a + i) = byteB x i :=
  read_writeBytes_of_getElem? hdm a (bytesOf_getElem? x hi)

/-- A block store leaves the bytes outside its sixteen alone (R62). -/
theorem read_writeBlock_outside (a : Nat) (x : Block) {b : Nat} (hb : b < a ∨ a + 16 ≤ b) :
    (writeBlock dm a x).read b = dm.read b :=
  read_writeBytes_outside dm a _ (by simpa using hb)

/-- A matrix store leaves the bytes outside its image alone (R72, R73). -/
theorem read_matWrite_outside (a : Nat) (x : Matrix) {b : Nat}
    (hb : b < a ∨ a + imgLen x.rows.toNat x.cols.toNat ≤ b) : (matWrite dm a x).read b = dm.read b :=
  read_writeBytes_outside dm a _ (by rwa [imageBytes_length])

/-! ## The bytes of an image -/

/-- Entry `j` of row `r` of a table written row after row. -/
theorem getElem?_flatMap_range {α : Type} (f : Nat → Nat → α) (n m : Nat) {r j : Nat} (hr : r < n) (hj : j < m) :
    ((List.range n).flatMap fun r => (List.range m).map (f r))[r * m + j]? = some (f r j) := by
  induction n with
  | zero => omega
  | succ n ih =>
    have hlen : ((List.range n).flatMap fun r => (List.range m).map (f r)).length = n * m := by
      simp [List.length_flatMap]
    rw [List.range_succ, List.flatMap_append]
    by_cases hrn : r < n
    · have hlt : r * m + j < n * m := by
        have := Nat.mul_le_mul_right m (Nat.succ_le_of_lt hrn)
        rw [Nat.succ_mul] at this
        omega
      rw [List.getElem?_append_left (by rwa [hlen]), ih hrn]
    · obtain rfl : r = n := by omega
      rw [List.getElem?_append_right (by omega), hlen]
      simp [hj]

/-- The first four bytes of an image are the row count (R72). -/
theorem imageBytes_rows (x : Matrix) {i : Nat} (hi : i < 4) :
    (imageBytes x)[i]? = some (x.rows.extractLsb' (8 * i) 8) := by
  rw [imageBytes, List.append_assoc, List.getElem?_append_left (by simpa), bytesOf_getElem? _ hi]

/-- The next four are the column count (R72). -/
theorem imageBytes_cols (x : Matrix) {i : Nat} (hi : i < 4) :
    (imageBytes x)[4 + i]? = some (x.cols.extractLsb' (8 * i) 8) := by
  rw [imageBytes, List.append_assoc, List.getElem?_append_right (by simp), bytesOf_length, Nat.add_sub_cancel_left,
    List.getElem?_append_left (by simpa), bytesOf_getElem? _ hi]

/-- Byte `j` of packed row `r` of an image (R72). -/
theorem imageBytes_row (x : Matrix) {r j : Nat} (hr : r < x.rows.toNat) (hj : j < rowBytes x.cols.toNat) :
    (imageBytes x)[8 + (r * rowBytes x.cols.toNat + j)]? = some (rowByte x r j) := by
  rw [imageBytes, List.getElem?_append_right (by simp), List.length_append, bytesOf_length, bytesOf_length,
    Nat.add_sub_cancel_left]
  exact getElem?_flatMap_range (rowByte x) _ _ hr hj

/-- Bit `k` of byte `j` of a packed row: an entry, or 0 past the last column (R72, R73). -/
theorem rowByte_getLsbD (x : Matrix) (r j : Nat) {k : Nat} (hk : k < 8) :
    (rowByte x r j).getLsbD k = (decide (8 * j + k < x.cols.toNat) && x.bit r (8 * j + k)) := by
  have h := pack_getLsbD (n := 8) ((List.range 8).map fun k =>
    BitVec.ofBool (decide (8 * j + k < x.cols.toNat) && x.bit r (8 * j + k))) k 0 (by omega) (by omega) (by simpa)
  simpa [rowByte] using h

/-- After a matrix store the image of the matrix stands at the address (R72, R73). -/
theorem holdsImage_matWrite (hdm : dm.wf) (a : Nat) (x : Matrix) : HoldsImage (matWrite dm a x) a x := by
  refine ⟨fun i hi => ⟨?rows, ?cols⟩, fun r c hr hc => ?entry⟩
  case rows => exact read_writeBytes_of_getElem? hdm a (imageBytes_rows x hi)
  case cols =>
    rw [Nat.add_assoc]
    exact read_writeBytes_of_getElem? hdm a (imageBytes_cols x hi)
  case entry =>
    have hbyte : (matWrite dm a x).read (a + (8 + (r * rowBytes x.cols.toNat + c / 8))) = rowByte x r (c / 8) :=
      read_writeBytes_of_getElem? hdm a (imageBytes_row x hr (by rw [rowBytes]; omega))
    rw [← rowBytes, Nat.add_assoc, Nat.add_assoc, hbyte, rowByte_getLsbD x r _ (by omega), Nat.div_add_mod]

/-! ## Images a load accepts -/

/-- At most one matrix that a register can hold has its image at an address (R72). -/
theorem holdsImage_unique {ea n : Nat} {x y : Matrix} (hx : HoldsImage dm ea x) (hy : HoldsImage dm ea y)
    (hxwf : x.wf n) (hywf : y.wf n) : x = y := by
  obtain ⟨hxhead, hxbits⟩ := hx
  obtain ⟨hyhead, hybits⟩ := hy
  obtain ⟨hxr, hxc⟩ := holdsHeader_iff.1 hxhead
  obtain ⟨hyr, hyc⟩ := holdsHeader_iff.1 hyhead
  have hrows : x.rows = y.rows := hxr.symm.trans hyr
  have hcols : x.cols = y.cols := hxc.symm.trans hyc
  refine matrix_ext hxwf hywf hrows hcols fun r c hr hc => ?_
  have hxbit := hxbits r c hr (by omega)
  have hybit := hybits r c (by rwa [← hrows]) (by rw [← hcols]; omega)
  rw [← hcols, hxbit] at hybit
  simpa [hc] using hybit

/-- The header of the image at an address is the two words that stand there (R72). -/
theorem badImage_iff {ea : Nat} :
    BadImage s ea ↔ BadImageOf s ea (readWord s.dm ea).toNat (readWord s.dm (ea + 4)).toNat := by
  constructor
  · rintro ⟨rows, cols, hhead, hbad⟩
    obtain ⟨rfl, rfl⟩ := holdsHeader_iff.1 hhead
    exact hbad
  · exact fun hbad => ⟨_, _, holdsHeader_iff.2 ⟨rfl, rfl⟩, hbad⟩

/-- Check (d) of R74: no padding bit is set. -/
theorem paddingClear_iff {ea rows cols : Nat} :
    paddingClear dm ea rows cols = true ↔
      ∀ r c, r < rows → cols ≤ c → c < 8 * rowBytes cols → imageBit dm ea cols r c = false := by
  simp only [paddingClear, List.all_eq_true, List.mem_range, Bool.not_eq_true']
  constructor
  · intro h r c hr hge hlt
    simpa [Nat.add_sub_cancel' hge] using h r hr (c - cols) (by omega)
  · intro h r hr k hk
    exact h r (cols + k) hr (by omega) (by omega)

/-- Checks (a) to (d) of R74, with the names the model computes them by. -/
theorem badImageOf_iff {ea rows cols : Nat} :
    BadImageOf s ea rows cols ↔ rows = 0 ∨ cols = 0 ∨ s.cfg.maxdim < rows ∨ s.cfg.maxdim < cols ∨
      s.cfg.memsize < ea + imgLen rows cols ∨ paddingClear s.dm ea rows cols = false := by
  rw [← Bool.not_eq_true, paddingClear_iff]
  simp [BadImageOf, imgLen, rowBytes, imageBit]

/-- The checks of a load fail exactly on the images that R74 rules out. -/
theorem imageValid_iff {ea : Nat} : imageValid s ea = true ↔ ¬ BadImage s ea := by
  rw [badImage_iff, badImageOf_iff]
  simp [imageValid, and_assoc]

/-- The image of a non-empty matrix that fits the register and the memory passes the checks of a load (R74, R76). -/
theorem not_badImage_of_holdsImage {ea : Nat} {x : Matrix} (h : HoldsImage s.dm ea x) (hx : x.wf s.cfg.maxdim)
    (h0 : x.rows ≠ 0) (hfit : ea + imgLen x.rows.toNat x.cols.toNat ≤ s.cfg.memsize) : ¬ BadImage s ea := by
  obtain ⟨hhead, hbits⟩ := h
  obtain ⟨hr, hc⟩ := holdsHeader_iff.1 hhead
  obtain ⟨hrmax, hcmax, hzero, -, -⟩ := hx
  rw [badImage_iff, hr, hc]
  rintro (hrow | hcol | hrow | hcol | hlong | ⟨r, c, hrlt, hge, hlt, hset⟩)
  · exact h0 (BitVec.eq_of_toNat_eq hrow)
  · exact h0 (hzero.2 (BitVec.eq_of_toNat_eq hcol))
  · omega
  · omega
  · exact absurd hfit (Nat.not_le.2 hlong)
  · rw [hbits r c hrlt hlt] at hset
    simp [Nat.not_lt.2 hge] at hset

/-- The padding bits of an image that a load accepts are 0 (R74). -/
theorem imageBit_padding {ea r c : Nat} (h : ¬ BadImage s ea) (hr : r < (readWord s.dm ea).toNat)
    (hge : (readWord s.dm (ea + 4)).toNat ≤ c) (hlt : c < 8 * rowBytes (readWord s.dm (ea + 4)).toNat) :
    imageBit s.dm ea (readWord s.dm (ea + 4)).toNat r c = false := by
  rw [badImage_iff, badImageOf_iff] at h
  simp only [not_or, Bool.not_eq_false] at h
  obtain ⟨-, -, -, -, -, hclear⟩ := h
  exact paddingClear_iff.1 hclear r c hr hge hlt

/-- The matrix a load reads is the one whose image stands there (R73), if the padding bits are 0 (R74). -/
theorem holdsImage_matRead {ea : Nat} (h : ¬ BadImage s ea) : HoldsImage s.dm ea (matRead s.dm ea) := by
  refine ⟨holdsHeader_iff.2 ⟨rfl, rfl⟩, fun r c hr hc => ?_⟩
  have hrow : r < (readWord s.dm ea).toNat := hr
  rw [matRead, matrixOf_bit]
  by_cases hcols : c < (readWord s.dm (ea + 4)).toNat
  · simp [hrow, hcols, imageBit, rowBytes]
  · have hclear := imageBit_padding h hr (Nat.not_lt.1 hcols) hc
    simpa [hcols, imageBit, rowBytes] using hclear

/-! ## Faults of the matrix transfers -/

/-- Which fault a matrix load reports (R236, R237, R274). -/
theorem matrixLoadFault_some {ea : DWord} {c : Cause} :
    matrixLoadFault s ea = some c ↔ (ea.toNat % 16 ≠ 0 ∧ c = .misaligned) ∨
      (ea.toNat % 16 = 0 ∧ s.cfg.memsize < ea.toNat + 8 ∧ c = .memAccess) ∨
      (ea.toNat % 16 = 0 ∧ ea.toNat + 8 ≤ s.cfg.memsize ∧ BadImage s ea.toNat ∧ c = .matrixFormat) := by
  have hbad : BadImage s ea.toNat ↔ imageValid s ea.toNat = false := by
    rw [← Bool.not_eq_true, imageValid_iff, not_not]
  rw [hbad]
  unfold matrixLoadFault
  split_ifs with halign hrange hvalid
  · simp [halign, eq_comm (a := c)]
  · simp_all [eq_comm (a := c)]
  · simp_all [eq_comm (a := c)]
  · simp_all

/-- Which fault a matrix store reports, and with which information (R238, R239, R274). -/
theorem matrixStoreFault_some {rd : MReg} {ea : DWord} {c : Cause} {info : DWord} :
    matrixStoreFault s rd ea = some (c, info) ↔
      ((s.getM rd).rows = 0 ∧ c = .matrixEmpty ∧ info = emptyInfo rd) ∨
      ((s.getM rd).rows ≠ 0 ∧ ea.toNat % 16 ≠ 0 ∧ c = .misaligned ∧ info = ea) ∨
      ((s.getM rd).rows ≠ 0 ∧ ea.toNat % 16 = 0 ∧
        s.cfg.memsize < ea.toNat + imgLen (s.getM rd).rows.toNat (s.getM rd).cols.toNat ∧
        c = .memAccess ∧ info = ea) := by
  unfold matrixStoreFault
  dsimp only
  split_ifs with hempty halign hrange
  · simp_all [eq_comm (a := c), eq_comm (a := info)]
  · simp_all [eq_comm (a := c), eq_comm (a := info)]
  · simp_all [eq_comm (a := c), eq_comm (a := info)]
  · simp_all

end Sys2Proof.Machine
end

-- Loads, stores and matrix transfers.
section
/-!
PROOFS. A load or store at an address, whichever form the address came from; then each command by the equation that
says which transfer it is and at which address (44_memory_system.md R230 to R239).
-/

namespace Sys2Proof.Safety

open Sys2Proof.Machine

variable {s : State}

/-! ## Frames of the updates -/

theorem writesBlock_setV_advance (rd : VReg) (x : Block) (s : State) :
    WritesBlock rd x s (s.setV rd x).advance :=
  ⟨getV_setV_same s rd x, rfl, fun r hr => getV_setV_ne s rd r x hr, fun _ => rfl, ⟨rfl, rfl, rfl⟩, rfl,
    fun _ => rfl, ⟨rfl, rfl, rfl, rfl⟩, rfl, rfl⟩

theorem writesMatrix_setM_advance (rd : MReg) (x : Matrix) (s : State) :
    WritesMatrix rd x s (s.setM rd x).advance :=
  ⟨getM_setM_same s rd x, rfl, fun r hr => getM_setM_ne s rd r x hr, fun _ => rfl, ⟨rfl, rfl, rfl⟩, rfl,
    fun _ => rfl, ⟨rfl, rfl, rfl, rfl⟩, rfl, rfl⟩

/-- A new data memory that differs only where the bytes `f` now stand. -/
theorem writesMemory_setDm_advance {lo n : Nat} {f : Nat → Byte} {dm : Memory}
    (hin : ∀ k, k < n → dm.read (lo + k) = f k) (hout : ∀ b, b < lo ∨ lo + n ≤ b → dm.read b = s.dm.read b) :
    WritesMemory lo n f s (s.setDm dm).advance :=
  ⟨hin, rfl, hout, fun _ => rfl, fun _ => rfl, ⟨rfl, rfl, rfl⟩, rfl, ⟨rfl, rfl, rfl, rfl⟩, rfl, rfl⟩

/-! ## Transfers at an address -/

section
variable {ea : DWord} {a : Nat} (hea : ea.toNat = a)
include hea

/-- A block load in range and aligned (R232, R233). -/
theorem loadBlock_loads (rd : VReg) (halign : a % 16 = 0) (hrange : a + 16 ≤ s.cfg.memsize) :
    ∃ t, loadBlock rd ea s = .next t ∧ WritesBlock rd (t.getV rd) s t ∧
      ∀ i, i < 16 → byteB (t.getV rd) i = s.dm.read (a + i) := by
  subst hea
  rcases loadBlock_cases rd ea s with ⟨c, hfault, -⟩ | ⟨-, hnext⟩
  · simp [blockFault_none.2 ⟨halign, hrange⟩] at hfault
  · have hv : ((s.setV rd (readBlock s.dm ea.toNat)).advance).getV rd = readBlock s.dm ea.toNat :=
      getV_setV_same s rd _
    refine ⟨_, hnext, ?_, fun i hi => ?_⟩ <;> rw [hv]
    · exact writesBlock_setV_advance rd _ s
    · exact byteB_readBlock s.dm _ i hi

/-- A block store in range and aligned (R234, R235). -/
theorem storeBlock_stores (rd : VReg) (hdm : s.dm.wf) (halign : a % 16 = 0) (hrange : a + 16 ≤ s.cfg.memsize) :
    ∃ t, storeBlock rd ea s = .next t ∧ WritesMemory a 16 (byteB (s.getV rd)) s t := by
  subst hea
  rcases storeBlock_cases rd ea s with ⟨c, hfault, -⟩ | ⟨-, hnext⟩
  · simp [blockFault_none.2 ⟨halign, hrange⟩] at hfault
  · refine ⟨_, hnext, writesMemory_setDm_advance (fun k hk => ?_) fun b hb => ?_⟩
    · exact read_writeBlock hdm _ _ hk
    · exact read_writeBlock_outside _ _ hb

/-- A matrix load of a valid image, aligned (R236, R237). -/
theorem loadMatrix_loads (rd : MReg) (halign : a % 16 = 0) (hrange : a + 8 ≤ s.cfg.memsize)
    (himage : ¬ BadImage s a) :
    ∃ t, loadMatrix rd ea s = .next t ∧ WritesMatrix rd (t.getM rd) s t ∧
      HoldsImage s.dm a (t.getM rd) ∧ (t.getM rd).wf s.cfg.maxdim := by
  subst hea
  have hvalid := imageValid_iff.2 himage
  rcases loadMatrix_cases rd ea s with ⟨c, hfault, -⟩ | ⟨-, hnext⟩
  · simp [matrixLoadFault_none.2 ⟨halign, hrange, hvalid⟩] at hfault
  · have hm : ((s.setM rd (matRead s.dm ea.toNat)).advance).getM rd = matRead s.dm ea.toNat :=
      getM_setM_same s rd _
    refine ⟨_, hnext, ?_, ?_⟩ <;> rw [hm]
    · exact writesMatrix_setM_advance rd _ s
    · exact ⟨holdsImage_matRead himage, matRead_wf hvalid⟩

/-- A matrix store of a non-empty register whose image fits, aligned (R238, R239). -/
theorem storeMatrix_stores (rd : MReg) (hdm : s.dm.wf) (h0 : (s.getM rd).rows ≠ 0) (halign : a % 16 = 0)
    (hrange : a + imgLen (s.getM rd).rows.toNat (s.getM rd).cols.toNat ≤ s.cfg.memsize) :
    ∃ t, storeMatrix rd ea s = .next t ∧
      WritesMemory a (imgLen (s.getM rd).rows.toNat (s.getM rd).cols.toNat) (fun k => t.dm.read (a + k)) s t ∧
      HoldsImage t.dm a (s.getM rd) := by
  subst hea
  rcases storeMatrix_cases rd ea s with ⟨c, info, hfault, -⟩ | ⟨-, hnext⟩
  · simp [matrixStoreFault_none.2 ⟨h0, halign, hrange⟩] at hfault
  · refine ⟨_, hnext, writesMemory_setDm_advance (fun _ _ => rfl) fun b hb => ?_, ?_⟩
    · exact read_matWrite_outside _ _ hb
    · exact holdsImage_matWrite hdm _ _

end

/-- A matrix load has a next state, and it is the faulted one where the load's checks report a fault. -/
theorem loadMatrix_next (rd : MReg) (ea : DWord) (s : State) :
    ∃ t, loadMatrix rd ea s = .next t ∧ ∀ c, matrixLoadFault s ea = some c → TakesFault c ea s t := by
  rcases loadMatrix_cases rd ea s with ⟨c, hfault, hnext⟩ | ⟨hnone, hnext⟩
  · refine ⟨_, hnext, fun c' hc' => ?_⟩
    obtain rfl : c = c' := Option.some.inj (hfault.symm.trans hc')
    exact takesFault_takeFault s c ea
  · exact ⟨_, hnext, fun c hc => by simp [hnone] at hc⟩

/-- A matrix store has a next state, and it is the faulted one where the store's checks report a fault. -/
theorem storeMatrix_next (rd : MReg) (ea : DWord) (s : State) :
    ∃ t, storeMatrix rd ea s = .next t ∧
      ∀ c info, matrixStoreFault s rd ea = some (c, info) → TakesFault c info s t := by
  rcases storeMatrix_cases rd ea s with ⟨c, info, hfault, hnext⟩ | ⟨hnone, hnext⟩
  · refine ⟨_, hnext, fun c' info' hc' => ?_⟩
    obtain ⟨rfl, rfl⟩ := Prod.mk.inj (Option.some.inj (hfault.symm.trans hc'))
    exact takesFault_takeFault s c info
  · exact ⟨_, hnext, fun c info hc => by simp [hnone] at hc⟩

/-- Where a matrix load faults: alignment, then header range, then the image (R236, R237, R274). -/
theorem loadMatrix_faults (rd : MReg) (ea : DWord) (s : State) :
    ∃ t, loadMatrix rd ea s = .next t ∧
      (ea.toNat % 16 ≠ 0 → TakesFault .misaligned ea s t) ∧
      (ea.toNat % 16 = 0 → s.cfg.memsize < ea.toNat + 8 → TakesFault .memAccess ea s t) ∧
      (ea.toNat % 16 = 0 → ea.toNat + 8 ≤ s.cfg.memsize → BadImage s ea.toNat →
        TakesFault .matrixFormat ea s t) := by
  obtain ⟨t, hnext, hfault⟩ := loadMatrix_next rd ea s
  refine ⟨t, hnext, fun halign => ?_, fun halign hrange => ?_, fun halign hrange himage => ?_⟩
  · exact hfault _ (matrixLoadFault_some.2 (.inl ⟨halign, rfl⟩))
  · exact hfault _ (matrixLoadFault_some.2 (.inr (.inl ⟨halign, hrange, rfl⟩)))
  · exact hfault _ (matrixLoadFault_some.2 (.inr (.inr ⟨halign, hrange, himage, rfl⟩)))

/-- Where a matrix store faults: empty register, then alignment, then range (R238, R239, R274). -/
theorem storeMatrix_faults (rd : MReg) (ea : DWord) (s : State) :
    ∃ t, storeMatrix rd ea s = .next t ∧
      ((s.getM rd).rows = 0 → TakesFault .matrixEmpty (emptyInfo rd) s t) ∧
      ((s.getM rd).rows ≠ 0 → ea.toNat % 16 ≠ 0 → TakesFault .misaligned ea s t) ∧
      ((s.getM rd).rows ≠ 0 → ea.toNat % 16 = 0 →
        s.cfg.memsize < ea.toNat + imgLen (s.getM rd).rows.toNat (s.getM rd).cols.toNat →
        TakesFault .memAccess ea s t) := by
  obtain ⟨t, hnext, hfault⟩ := storeMatrix_next rd ea s
  refine ⟨t, hnext, fun h0 => ?_, fun h0 halign => ?_, fun h0 halign hrange => ?_⟩
  · exact hfault _ _ (matrixStoreFault_some.2 (.inl ⟨h0, rfl, rfl⟩))
  · exact hfault _ _ (matrixStoreFault_some.2 (.inr (.inl ⟨h0, halign, rfl, rfl⟩)))
  · exact hfault _ _ (matrixStoreFault_some.2 (.inr (.inr ⟨h0, halign, hrange, rfl, rfl⟩)))

/-! ## A store, then a load from there -/

/-- A block stored is the block loaded from there, and the store changes no base register. -/
theorem storeBlock_loadBlock {ea : DWord} {a : Nat} (hea : ea.toNat = a) (vs vd : VReg) (hdm : s.dm.wf)
    (halign : a % 16 = 0) (hrange : a + 16 ≤ s.cfg.memsize) :
    ∃ t u, storeBlock vs ea s = .next t ∧ KeepsBlocks s t ∧ loadBlock vd ea t = .next u ∧
      u.getV vd = s.getV vs := by
  obtain ⟨t, hstore, hbytes, -, -, hblocks, -, -, -, -, hcfg, -⟩ := storeBlock_stores hea vs hdm halign hrange
  obtain ⟨u, hload, -, hloaded⟩ := loadBlock_loads (s := t) hea vd halign (by rwa [hcfg])
  refine ⟨t, u, hstore, hblocks, hload, block_ext_bytes fun i hi => ?_⟩
  rw [hloaded i hi, hbytes i hi]

/-- The image that a store wrote passes the checks of a load from there and gives the matrix back (R73, R76); the store
changes no base register. -/
theorem storeMatrix_loadMatrix {ea : DWord} {a : Nat} (hea : ea.toNat = a) (ms md : MReg) (hdm : s.dm.wf)
    (hm : (s.getM ms).wf s.cfg.maxdim) (h0 : (s.getM ms).rows ≠ 0) (halign : a % 16 = 0)
    (hrange : a + imgLen (s.getM ms).rows.toNat (s.getM ms).cols.toNat ≤ s.cfg.memsize) :
    ∃ t u, storeMatrix ms ea s = .next t ∧ KeepsBlocks s t ∧ loadMatrix md ea t = .next u ∧
      u.getM md = s.getM ms ∧ u.st = s.st := by
  obtain ⟨t, hstore, ⟨-, -, -, hblocks, -, -, -, ⟨hst, -⟩, hcfg, -⟩, himage⟩ :=
    storeMatrix_stores hea ms hdm h0 halign hrange
  have hheader : a + 8 ≤ t.cfg.memsize := by
    rw [hcfg]
    exact le_trans (Nat.add_le_add_left (Nat.le_add_right 8 _) a) hrange
  rw [← hcfg] at hm hrange
  obtain ⟨u, hload, ⟨-, -, -, -, -, -, -, ⟨hst', -⟩, -⟩, himage', hwf⟩ :=
    loadMatrix_loads hea md halign hheader (not_badImage_of_holdsImage himage hm h0 hrange)
  exact ⟨t, u, hstore, hblocks, hload, holdsImage_unique himage' himage hwf hm, hst'.trans hst⟩

/-! ## The commands -/

theorem exec_ldb (rd : VReg) (imm20 : BitVec 20) (s : State) :
    exec (.ldb rd imm20) s = loadBlock rd (absoluteEA imm20) s := rfl

theorem exec_ldbx (rd ra : VReg) (imm12 : BitVec 12) (s : State) :
    exec (.ldbx rd ra imm12) s = loadBlock rd (indexedEA (s.getV ra) imm12) s := rfl

theorem exec_stb (rd : VReg) (imm20 : BitVec 20) (s : State) :
    exec (.stb rd imm20) s = storeBlock rd (absoluteEA imm20) s := rfl

theorem exec_stbx (rd ra : VReg) (imm12 : BitVec 12) (s : State) :
    exec (.stbx rd ra imm12) s = storeBlock rd (indexedEA (s.getV ra) imm12) s := rfl

theorem exec_gld (rd : MReg) (imm20 : BitVec 20) (s : State) :
    exec (.gld rd imm20) s = loadMatrix rd (absoluteEA imm20) s := rfl

theorem exec_gldx (rd : MReg) (ra : VReg) (imm12 : BitVec 12) (s : State) :
    exec (.gldx rd ra imm12) s = loadMatrix rd (indexedEA (s.getV ra) imm12) s := rfl

theorem exec_gst (rd : MReg) (imm20 : BitVec 20) (s : State) :
    exec (.gst rd imm20) s = storeMatrix rd (absoluteEA imm20) s := rfl

theorem exec_gstx (rd : MReg) (ra : VReg) (imm12 : BitVec 12) (s : State) :
    exec (.gstx rd ra imm12) s = storeMatrix rd (indexedEA (s.getV ra) imm12) s := rfl

/-- An absolute address is aligned (R230). -/
theorem absoluteEA_aligned (imm20 : BitVec 20) : (absoluteEA imm20).toNat % 16 = 0 := by
  rw [absoluteEA_toNat]
  exact Nat.mul_mod_right 16 _

/-- Settles O54: both commands are block loads, of an address that is aligned by its form or by hypothesis. -/
theorem blockLoad : Obligations.BlockLoad := by
  refine ⟨fun rd imm20 s hrange => ?_, fun rd ra imm12 s ea hea halign hrange => ?_⟩
  · rw [exec_ldb]
    exact loadBlock_loads (absoluteEA_toNat imm20) rd (Nat.mul_mod_right 16 _) hrange
  · rw [exec_ldbx]
    exact loadBlock_loads hea.symm rd halign hrange

/-- Settles O55: both commands are block stores. -/
theorem blockStore : Obligations.BlockStore := by
  refine ⟨fun rd imm20 s hdm hrange => ?_, fun rd ra imm12 s ea hdm hea halign hrange => ?_⟩
  · rw [exec_stb]
    exact storeBlock_stores (absoluteEA_toNat imm20) rd hdm (Nat.mul_mod_right 16 _) hrange
  · rw [exec_stbx]
    exact storeBlock_stores hea.symm rd hdm halign hrange

/-- Settles O57: both commands are matrix loads. -/
theorem matrixLoad : Obligations.MatrixLoad := by
  refine ⟨fun rd imm20 s ea hea hrange himage => ?_, fun rd ra imm12 s ea hea halign hrange himage => ?_⟩
  · subst hea
    rw [exec_gld]
    exact loadMatrix_loads (absoluteEA_toNat imm20) rd (Nat.mul_mod_right 16 _) hrange himage
  · rw [exec_gldx]
    exact loadMatrix_loads hea.symm rd halign hrange himage

/-- Settles O58: where a matrix load and a matrix store fault, at an address that an absolute form never misaligns. -/
theorem matrixTransferFaults : Obligations.MatrixTransferFaults := by
  refine ⟨fun rd ra imm12 s ea n hea hn => ?indexed, fun rd imm20 s ea n hea hn => ?absolute⟩
  case indexed =>
    subst hea hn
    rw [exec_gldx, exec_gstx]
    obtain ⟨t, hload, hloadFaults⟩ := loadMatrix_faults rd (indexedEA (s.getV ra) imm12) s
    obtain ⟨u, hstore, hstoreFaults⟩ := storeMatrix_faults rd (indexedEA (s.getV ra) imm12) s
    obtain ⟨hmisaligned, hheader, himage⟩ := hloadFaults
    exact ⟨t, u, hload, hstore, hmisaligned, hheader, himage, hstoreFaults⟩
  case absolute =>
    subst hea hn
    rw [exec_gld, exec_gst]
    have halign := absoluteEA_aligned imm20
    obtain ⟨t, hload, -, hheader, himage⟩ := loadMatrix_faults rd (absoluteEA imm20) s
    obtain ⟨u, hstore, hempty, -, hrange⟩ := storeMatrix_faults rd (absoluteEA imm20) s
    exact ⟨t, u, hload, hstore, hheader halign, himage halign, hempty, fun h0 => hrange h0 halign⟩

/-- Settles O59: both commands are matrix stores. -/
theorem matrixStore : Obligations.MatrixStore := by
  refine ⟨fun rd imm20 s ea n hdm h0 hea hn hrange => ?_, fun rd ra imm12 s ea n hdm h0 hea halign hn hrange => ?_⟩
  · subst hea hn
    rw [exec_gst]
    exact storeMatrix_stores (absoluteEA_toNat imm20) rd hdm h0 (Nat.mul_mod_right 16 _) hrange
  · subst hn
    rw [exec_gstx]
    exact storeMatrix_stores hea.symm rd hdm h0 halign hrange

/-- Two commands, each of which has a next state, lead to the second one's. -/
theorem execAll_pair {i j : Instr} {t u : State} (hi : exec i s = .next t) (hj : exec j t = .next u) :
    execAll [i, j] s = some u := by
  simp [execAll, hi, hj]

/-- Settles O60: a store and then a load at one address, which the store does not move. -/
theorem storedValuesLoadBack : Obligations.StoredValuesLoadBack := by
  refine ⟨fun vs vd imm20 s hdm hrange => ?block, fun vs vd va imm12 s ea hdm hea halign hrange => ?blockIndexed,
    fun ms md imm20 s hdm hm h0 hrange => ?matrix,
    fun ms md va imm12 s ea hdm hm h0 hea halign hrange => ?matrixIndexed⟩
  case block =>
    obtain ⟨t, u, hstore, -, hload, hback⟩ :=
      storeBlock_loadBlock (absoluteEA_toNat imm20) vs vd hdm (Nat.mul_mod_right 16 _) hrange
    exact ⟨u, execAll_pair ((exec_stb vs imm20 s).trans hstore) ((exec_ldb vd imm20 t).trans hload), hback⟩
  case blockIndexed =>
    obtain ⟨t, u, hstore, hbase, hload, hback⟩ := storeBlock_loadBlock hea.symm vs vd hdm halign hrange
    refine ⟨u, execAll_pair ((exec_stbx vs va imm12 s).trans hstore) ?_, hback⟩
    rwa [exec_ldbx, hbase va]
  case matrix =>
    obtain ⟨t, u, hstore, -, hload, hback⟩ :=
      storeMatrix_loadMatrix (absoluteEA_toNat imm20) ms md hdm hm h0 (Nat.mul_mod_right 16 _) hrange
    exact ⟨u, execAll_pair ((exec_gst ms imm20 s).trans hstore) ((exec_gld md imm20 t).trans hload), hback⟩
  case matrixIndexed =>
    obtain ⟨t, u, hstore, hbase, hload, hback⟩ := storeMatrix_loadMatrix hea.symm ms md hdm hm h0 halign hrange
    refine ⟨u, execAll_pair ((exec_gstx ms va imm12 s).trans hstore) ?_, hback⟩
    rwa [exec_gldx, hbase va]

end Sys2Proof.Safety
end

-- Command words: the decoder, the encoder and the table; the two forms of an effective address.
section
/-!
PROOFS. A word is the fields of either layout (30_encoding.md R91, R92), so an equation of words is one of fields; by
that, the round trips of the decoder and the encoder, and each row of the match and mask table read as the checks that
the decoder makes for the row's opcode (R98, R99). Then the two forms of an effective address (R94, R95).
-/

namespace Sys2Proof

open Sys2Proof.Machine Sys2Proof.Laws

/-! ## A word is its fields -/

/-- A word is its three fields of layout A (R92). -/
theorem word_ext_layoutA {w u : Word} (hop : fieldOp w = fieldOp u) (hrd : fieldRd w = fieldRd u)
    (himm : fieldImm20 w = fieldImm20 u) : w = u := by
  simp only [fieldOp, fieldRd, fieldImm20, ← BitVec.toNat_inj, BitVec.extractLsb'_toNat,
    Nat.shiftRight_eq_div_pow] at *
  omega

/-- A word is its five fields of layout F (R91). -/
theorem word_ext_layoutF {w u : Word} (hop : fieldOp w = fieldOp u) (hrd : fieldRd w = fieldRd u)
    (hra : fieldRa w = fieldRa u) (hrb : fieldRb w = fieldRb u) (himm : fieldImm12 w = fieldImm12 u) : w = u := by
  simp only [fieldOp, fieldRd, fieldRa, fieldRb, fieldImm12, ← BitVec.toNat_inj, BitVec.extractLsb'_toNat,
    Nat.shiftRight_eq_div_pow] at *
  omega

theorem wordF_eq_iff {op : BitVec 8} {rd ra rb : BitVec 4} {imm : BitVec 12} {w : Word} :
    wordF op rd ra rb imm = w ↔
      fieldOp w = op ∧ fieldRd w = rd ∧ fieldRa w = ra ∧ fieldRb w = rb ∧ fieldImm12 w = imm := by
  constructor
  · rintro rfl
    simp
  · rintro ⟨rfl, rfl, rfl, rfl, rfl⟩
    apply word_ext_layoutF <;> simp

theorem wordA_eq_iff {op : BitVec 8} {rd : BitVec 4} {imm20 : BitVec 20} {w : Word} :
    wordA op rd imm20 = w ↔ fieldOp w = op ∧ fieldRd w = rd ∧ fieldImm20 w = imm20 := by
  constructor
  · rintro rfl
    simp
  · rintro ⟨rfl, rfl, rfl⟩
    apply word_ext_layoutA <;> simp

/-- A masked comparison of words is one masked comparison per field (R98). -/
theorem and_mask_eq_iff {w m p : Word} : w &&& m = p ↔
    fieldOp w &&& fieldOp m = fieldOp p ∧ fieldRd w &&& fieldRd m = fieldRd p ∧
      fieldRa w &&& fieldRa m = fieldRa p ∧ fieldRb w &&& fieldRb m = fieldRb p ∧
      fieldImm12 w &&& fieldImm12 m = fieldImm12 p := by
  simp only [fieldOp, fieldRd, fieldRa, fieldRb, fieldImm12, ← BitVec.extractLsb'_and]
  exact ⟨by rintro rfl; simp, fun ⟨hop, hrd, hra, hrb, himm⟩ => word_ext_layoutF hop hrd hra hrb himm⟩

/-! ## Parts of a field -/

section
variable {n k m : Nat}

/-- The part of an immediate that a command uses is its operand, and the rest is zero (R91, R96). -/
theorem extractLsb'_low_setWidth (x : BitVec k) (h : k ≤ n) : (x.setWidth n).extractLsb' 0 k = x := by
  rw [← BitVec.setWidth_eq_extractLsb' h, BitVec.setWidth_setWidth_of_le x h, BitVec.setWidth_eq]

theorem extractLsb'_high_setWidth (x : BitVec k) : (x.setWidth n).extractLsb' k m = 0 := by
  ext j hj
  simp

theorem getLsbD_of_high_eq_zero {f : BitVec n} (h : f.extractLsb' k m = 0) {j : Nat} (hk : k ≤ j)
    (hj : j < k + m) : f.getLsbD j = false := by
  simpa [show k + (j - k) = j by omega, show j - k < m by omega] using congrArg (BitVec.getLsbD · (j - k)) h

/-- A field is its low part when its high part is zero. -/
theorem setWidth_low_of_high_eq_zero {f : BitVec n} (hn : n ≤ k + m) (h : f.extractLsb' k m = 0) :
    (f.extractLsb' 0 k).setWidth n = f := by
  ext j hj
  by_cases hk : j < k
  · simp [hk, hj]
  · simp [hk, ← BitVec.getLsbD_eq_getElem, getLsbD_of_high_eq_zero h (not_lt.1 hk) (by omega)]

/-- A mask over the bits of a field from `k` up asks that these bits are zero. -/
theorem and_high_ones_eq_zero_iff (f : BitVec n) (hn : n = k + m) :
    f &&& BitVec.allOnes n <<< k = 0 ↔ f.extractLsb' k m = 0 := by
  subst hn
  constructor <;> intro h <;> ext j hj
  · simpa [hj] using congrArg (BitVec.getLsbD · (k + j)) h
  · by_cases hk : j < k
    · simp [hk]
    · simp [← BitVec.getLsbD_eq_getElem, getLsbD_of_high_eq_zero h (not_lt.1 hk) hj]

end

theorem ofBool_getLsbD_zero {n : Nat} (f : BitVec n) : BitVec.ofBool (f.getLsbD 0) = f.extractLsb' 0 1 := by
  ext j hj
  obtain rfl : j = 0 := by omega
  simp

/-- A part of `imm12` from bit 0 is that part of the word (R91, R96). -/
theorem extractLsb'_low_fieldImm12 (w : Word) {n : Nat} (h : n ≤ 12) :
    (fieldImm12 w).extractLsb' 0 n = w.extractLsb' 0 n := by
  ext j hj
  simp [fieldImm12, show j < 12 by omega]

/-- A legal matrix register field is the field of the register it names (R93, R104). -/
theorem mfield_mreg : ∀ {f : BitVec 4}, isMatrix f = true → mfield (mreg f) = f := by
  decide

/-! ## The round trips -/

/-- The decoder on a word whose opcode is known. -/
theorem decode_of_fieldOp {w : Word} {op : BitVec 8} (hop : fieldOp w = op) :
    decode w = decodeOp op (fieldRd w) (fieldRa w) (fieldRb w) (fieldImm12 w) (fieldImm20 w) := by
  rw [decode, hop]

theorem decode_wordF (op : BitVec 8) (rd ra rb : BitVec 4) (imm : BitVec 12) :
    decode (wordF op rd ra rb imm) = decodeOp op rd ra rb imm (fieldImm20 (wordF op rd ra rb imm)) := by
  simp [decode]

theorem decode_wordA (op : BitVec 8) (rd : BitVec 4) (imm20 : BitVec 20) :
    decode (wordA op rd imm20) = decodeOp op rd (fieldRa (wordA op rd imm20)) (fieldRb (wordA op rd imm20))
      (fieldImm12 (wordA op rd imm20)) imm20 := by
  simp [decode]

/-- Settles O2: the fields of the word are the operands, so the decoder's checks pass; only `GETRK` and `ARSGEN` have
a check of a value, which is their well-formedness. -/
theorem decodeOfEncode : Obligations.DecodeOfEncode := by
  intro i hwf
  cases i with
  | sethw rd mode => cases mode <;> simp [encode, decode_wordF, decodeOp, checked_ok]
  | aeskga rd ra rcon =>
    simp [encode, decode_wordF, decodeOp, checked_ok, extractLsb'_low_setWidth, extractLsb'_high_setWidth]
  | gpow rd ra rb rc =>
    simp [encode, decode_wordF, decodeOp, checked_ok, extractLsb'_low_setWidth, extractLsb'_high_setWidth]
  | getrk rd i =>
    have hi : i.toNat ≤ 10 := of_decide_eq_true hwf
    rw [encode, decode_wordF]
    refine checked_ok.2 ⟨by simp [extractLsb'_high_setWidth], rfl, ?_, ?_⟩ <;>
      rw [extractLsb'_low_setWidth i (by decide)]
    exact if_neg (not_lt.2 hi)
  | arsgen rd ra r =>
    have hr : r ≠ 0 := of_decide_eq_true hwf
    rw [encode, decode_wordF]
    refine checked_ok.2 ⟨by simp [extractLsb'_high_setWidth], rfl, ?_, ?_⟩ <;>
      rw [extractLsb'_low_setWidth r (by decide)]
    exact if_neg hr
  | ldb | stb | gld | gst => simp [encode, decode_wordA, decodeOp, checked_ok]
  | _ => simp [encode, decode_wordF, decodeOp, checked_ok]

/-- Settles O3: the checks the decoder made say that the fields it dropped are zero and that the parts it kept are the
whole field, so the word is that of the command field by field. -/
theorem encodeOfDecode : Obligations.EncodeOfDecode := by
  intro w i h
  unfold decode decodeOp at h
  split at h
  case h_33 => cases h
  all_goals
    rename_i hop
    obtain ⟨hz, hm, hv, rfl⟩ := checked_ok.1 h
    simp only [Bool.and_eq_true, beq_iff_eq, and_assoc] at hz hm
  case h_3 => -- SETHW
    obtain ⟨hra, hrb, himm⟩ := hz
    refine ⟨wordF_eq_iff.2 ⟨hop, rfl, hra, hrb, ?_⟩, rfl⟩
    rw [ofBool_getLsbD_zero, setWidth_low_of_high_eq_zero (by decide) himm]
  case h_9 => -- AESKGA
    obtain ⟨hrb, himm⟩ := hz
    exact ⟨wordF_eq_iff.2 ⟨hop, rfl, rfl, hrb, (setWidth_low_of_high_eq_zero (by decide) himm).symm⟩, rfl⟩
  case h_19 => -- GETRK
    obtain ⟨hra, hrb, himm⟩ := hz
    refine ⟨wordF_eq_iff.2 ⟨hop, rfl, hra, hrb, (setWidth_low_of_high_eq_zero (by decide) himm).symm⟩, ?_⟩
    simpa [Instr.wellFormed] using hv
  case h_20 => -- ARSGEN
    obtain ⟨hrb, himm⟩ := hz
    refine ⟨wordF_eq_iff.2 ⟨hop, rfl, rfl, hrb, (setWidth_low_of_high_eq_zero (by decide) himm).symm⟩, ?_⟩
    simpa [Instr.wellFormed] using hv
  case h_23 => -- GPOW
    obtain ⟨hrd, hra, hrb⟩ := hm
    exact ⟨wordF_eq_iff.2 ⟨hop, (mfield_mreg hrd).symm, (mfield_mreg hra).symm, (mfield_mreg hrb).symm,
      (setWidth_low_of_high_eq_zero (by decide) hz).symm⟩, rfl⟩
  case h_25 | h_27 | h_29 | h_31 => -- LDB, STB, GLD, GST: layout A
    simp [encode, Instr.wellFormed, wordA_eq_iff, hop, hm, mfield_mreg]
  all_goals simp [encode, Instr.wellFormed, wordF_eq_iff, hop, hz, hm, mfield_mreg]

/-- A word that decodes has the opcode of its command (R90, R97). -/
theorem fieldOp_of_decode {w : Word} {i : Instr} (h : decode w = .ok i) : fieldOp w = opcodeOf i := by
  obtain ⟨rfl, -⟩ := encodeOfDecode w i h
  cases i <;> simp [encode, opcodeOf]

/-! ## The match and mask table -/

/-- What R98 says of a row: the words it accepts are those of its opcode that decode to a command of its name. -/
def RowAgrees (row : OpcodeRow) : Prop :=
  ∀ w : Word, row.accepts w = true ↔
    fieldOp w = fieldOp row.pattern ∧ ∃ i, decode w = .ok i ∧ asmMnemonic i = row.mnemonic

/-- Every row fixes all of `op` (R98). -/
theorem fieldOp_mask : ∀ row ∈ opcodeRows, fieldOp row.mask = BitVec.allOnes 8 := by
  decide

theorem fieldOp_patterns_nodup : (opcodeRows.map fun row => fieldOp row.pattern).Nodup := by
  decide

/-- The fields below `op` match the row, and its value check passes (R98). -/
def OtherFieldsPass (row : OpcodeRow) (w : Word) : Prop :=
  (fieldRd w &&& fieldRd row.mask = fieldRd row.pattern ∧ fieldRa w &&& fieldRa row.mask = fieldRa row.pattern ∧
    fieldRb w &&& fieldRb row.mask = fieldRb row.pattern ∧
    fieldImm12 w &&& fieldImm12 row.mask = fieldImm12 row.pattern) ∧ row.check.passes w = true

theorem accepts_iff {row : OpcodeRow} (hmask : fieldOp row.mask = BitVec.allOnes 8) (w : Word) :
    row.accepts w = true ↔ fieldOp w = fieldOp row.pattern ∧ OtherFieldsPass row w := by
  rw [OpcodeRow.accepts, Bool.and_eq_true, decide_eq_true_iff, and_mask_eq_iff, hmask, BitVec.and_allOnes, and_assoc,
    OtherFieldsPass]

/-- A row agrees with the decoder when, of the words of its opcode, the other fields under the mask and the value check
let through those that the decoder's checks let through. -/
theorem rowAgrees_of_checks {row : OpcodeRow} (hmask : fieldOp row.mask = BitVec.allOnes 8)
    (hchecks : ∀ w, OtherFieldsPass row w ↔ ∃ i, decodeOp (fieldOp row.pattern) (fieldRd w) (fieldRa w) (fieldRb w)
      (fieldImm12 w) (fieldImm20 w) = .ok i ∧ asmMnemonic i = row.mnemonic) : RowAgrees row := by
  intro w
  rw [accepts_iff hmask]
  refine and_congr_right fun hop => ?_
  rw [decode_of_fieldOp hop]
  exact hchecks w

/-- The fields of a literal word, for `simp` to compute. -/
theorem fields_ofNat (n : Nat) :
    fieldOp (BitVec.ofNat 32 n) = (BitVec.ofNat 32 n).extractLsb' 24 8 ∧
    fieldRd (BitVec.ofNat 32 n) = (BitVec.ofNat 32 n).extractLsb' 20 4 ∧
    fieldRa (BitVec.ofNat 32 n) = (BitVec.ofNat 32 n).extractLsb' 16 4 ∧
    fieldRb (BitVec.ofNat 32 n) = (BitVec.ofNat 32 n).extractLsb' 12 4 ∧
    fieldImm12 (BitVec.ofNat 32 n) = (BitVec.ofNat 32 n).extractLsb' 0 12 :=
  ⟨rfl, rfl, rfl, rfl, rfl⟩

/-- The mask of a must-be-zero register field (R98). -/
theorem and_register_mask (f : BitVec 4) : f &&& 0xF#4 = f := BitVec.and_allOnes

/-- The mask of a must-be-zero `imm12` (R98). -/
theorem and_imm12_mask (f : BitVec 12) : f &&& 0xFFF#12 = f := BitVec.and_allOnes

/-- The mask of a matrix register field (R98, R104). -/
theorem and_matrix_mask_eq_zero_iff : ∀ {f : BitVec 4}, f &&& 0xC#4 = 0#4 ↔ isMatrix f = true := by
  decide

/-- The masks of the rows whose immediate is the low 1, 4 or 8 bits of `imm12` (R96, R98). -/
theorem and_imm12_mask_eq_zero_iff (f : BitVec 12) :
    (f &&& 0xFFE#12 = 0#12 ↔ f.extractLsb' 1 11 = 0#11) ∧ (f &&& 0xFF0#12 = 0#12 ↔ f.extractLsb' 4 8 = 0#8) ∧
    (f &&& 0xF00#12 = 0#12 ↔ f.extractLsb' 8 4 = 0#4) :=
  ⟨and_high_ones_eq_zero_iff (k := 1) f rfl, and_high_ones_eq_zero_iff (k := 4) f rfl,
    and_high_ones_eq_zero_iff (k := 8) f rfl⟩

/-- A checked command that also has a property. -/
theorem exists_checked_ok_iff {zeros matrices : Bool} {value : Option DecodeError} {i : Instr} {P : Instr → Prop} :
    (∃ j, checked zeros matrices value i = .ok j ∧ P j) ↔
      (zeros = true ∧ matrices = true ∧ value = none) ∧ P i := by
  simp only [checked_ok]
  constructor
  · rintro ⟨j, ⟨hz, hm, hv, rfl⟩, hP⟩
    exact ⟨⟨hz, hm, hv⟩, hP⟩
  · rintro ⟨⟨hz, hm, hv⟩, hP⟩
    exact ⟨i, ⟨hz, hm, hv, rfl⟩, hP⟩

/-- Each row's masks, computed field by field, are the decoder's checks for its opcode, in another order. -/
theorem rowAgrees_of_mem : ∀ row ∈ opcodeRows, RowAgrees row := by
  simp only [opcodeRows, List.cons_append, List.nil_append, List.forall_mem_cons, List.not_mem_nil, false_imp_iff,
    implies_true, and_true]
  and_intros
  all_goals
    refine rowAgrees_of_checks rfl fun w => ?_
    simp [OtherFieldsPass, fields_ofNat, and_register_mask, and_imm12_mask, and_matrix_mask_eq_zero_iff,
      and_imm12_mask_eq_zero_iff, ValueCheck.passes, extractLsb'_low_fieldImm12, decodeOp, exists_checked_ok_iff,
      asmMnemonic, and_assoc, and_comm, and_left_comm]

/-- The table has a row with the opcode and the name of every command (R97). -/
theorem exists_row (i : Instr) :
    ∃ row ∈ opcodeRows, fieldOp row.pattern = opcodeOf i ∧ row.mnemonic = asmMnemonic i := by
  cases i <;> (simp only [opcodeOf, asmMnemonic]; decide)

theorem fieldOp_of_matches {row : OpcodeRow} (hrow : row ∈ opcodeRows) {w : Word}
    (h : w &&& row.mask = row.pattern) : fieldOp w = fieldOp row.pattern := by
  obtain ⟨hop, -⟩ := and_mask_eq_iff.1 h
  rwa [fieldOp_mask row hrow, BitVec.and_allOnes] at hop

/-- Rows with different opcodes share no word, because every mask fixes `op` (R98). -/
theorem rows_disjoint : opcodeRows.Pairwise fun a b =>
    ∀ w : Word, ¬ (w &&& a.mask = a.pattern ∧ w &&& b.mask = b.pattern) := by
  refine (List.pairwise_map.1 fieldOp_patterns_nodup).imp_of_mem fun {a b} ha hb hne w ⟨hwa, hwb⟩ => hne ?_
  rw [← fieldOp_of_matches ha hwa, fieldOp_of_matches hb hwb]

/-- Settles O4: a command's row agrees with the decoder, and every row is such a row. -/
theorem decodeAgreesWithOpcodeTable : Obligations.DecodeAgreesWithOpcodeTable := by
  refine ⟨fun w i h => ?_, fun w row hrow h => ?_, rows_disjoint⟩
  · obtain ⟨row, hrow, hop, hname⟩ := exists_row i
    exact ⟨row, hrow, (rowAgrees_of_mem row hrow w).2 ⟨(fieldOp_of_decode h).trans hop.symm, i, h, hname.symm⟩, hname⟩
  · exact ((rowAgrees_of_mem row hrow w).1 h).2

/-- Settles O1, by evaluation of the decoder. -/
theorem specWordsDecode : Obligations.SpecWordsDecode :=
  ⟨rfl, rfl, rfl, rfl, rfl, rfl, rfl, rfl, rfl, rfl, rfl, rfl, rfl, rfl⟩

/-! ## Effective addresses -/

/-- The indexed address is the sum of integers, cut to 64 bits: a sign-extended displacement is its own value
modulo `2^64` (R95, R231). -/
theorem indexedEA_eq_ofInt (base : Block) (imm12 : BitVec 12) :
    indexedEA base imm12 = BitVec.ofInt 64 ((laneQ base 0).toNat + imm12.toInt * 16) := by
  rw [BitVec.ofInt_add, BitVec.ofInt_mul, BitVec.ofInt_natCast, BitVec.ofNat_toNat, BitVec.setWidth_eq]
  rfl

/-- Settles O53. -/
theorem effectiveAddresses : Obligations.EffectiveAddresses := by
  refine ⟨fun imm20 => ?_, fun base imm12 => ?_, by decide⟩
  · have hlt := imm20.isLt
    rw [absoluteEA_toNat]
    omega
  · rw [indexedEA_eq_ofInt, BitVec.toNat_ofInt]
    exact Int.toNat_of_nonneg (Int.emod_nonneg _ (by decide))

end Sys2Proof
end

-- The mode and the capability change no result.
section
/-!
PROOFS. `MODE.HW` and `HWCAP` as a change of the state that every meaning but those of `SETHW` and `GETST` commutes with
(40_block_primitives.md R121, 00_scope.md R8): first each shared operation, then each command.
-/

namespace Sys2Proof.Safety

open Sys2Proof.Machine

/-- The state with other values of `MODE.HW` and `HWCAP` (R8, R30). -/
def withMode (hw cap : Bool) (s : State) : State := { s with hw := hw, cfg := { s.cfg with hwcap := cap } }

/-- The answer whose next state has other values of `MODE.HW` and `HWCAP`. -/
def answerWithMode (hw cap : Bool) :
    Host.Outcome State Fault Refusal → Host.Outcome State Fault Refusal
  | .next t => .next (withMode hw cap t)
  | .fault r => .fault r
  | .refused r => .refused r

variable (hw cap : Bool) (s : State)

/-! ## What the checks read -/

theorem blockFault_withMode (ea : DWord) : blockFault (withMode hw cap s) ea = blockFault s ea := rfl

theorem matrixLoadFault_withMode (ea : DWord) :
    matrixLoadFault (withMode hw cap s) ea = matrixLoadFault s ea := rfl

/-! ## The shared operations -/

theorem complete_withMode : complete (withMode hw cap s) = answerWithMode hw cap (complete s) := rfl

theorem raise_withMode (c : Cause) (info : DWord) :
    raise c info (withMode hw cap s) = answerWithMode hw cap (raise c info s) := rfl

/-- A choice between two answers, made by a condition that does not see the mode. -/
theorem ite_withMode {p : Prop} [Decidable p] {a b a' b' : Host.Outcome State Fault Refusal}
    (ha : a' = answerWithMode hw cap a) (hb : b' = answerWithMode hw cap b) :
    (if p then a' else b') = answerWithMode hw cap (if p then a else b) := by
  rw [ha, hb, apply_ite (answerWithMode hw cap)]

/-- A fault that the checks found, or else the state `t`. -/
theorem faultOr_withMode (fault : Option (Cause × DWord)) (t : State) :
    (match fault with
      | some (c, info) => raise c info (withMode hw cap s)
      | none => complete (withMode hw cap t)) =
    answerWithMode hw cap (match fault with
      | some (c, info) => raise c info s
      | none => complete t) := by
  cases fault <;> rfl

theorem withSchedule_withMode (rd : VReg) (x : Block) :
    withSchedule rd x (withMode hw cap s) = answerWithMode hw cap (withSchedule rd x s) :=
  ite_withMode hw cap (complete_withMode hw cap (s.setV rd x)) (raise_withMode hw cap s _ _)

theorem loadBlock_withMode (rd : VReg) (ea : DWord) :
    loadBlock rd ea (withMode hw cap s) = answerWithMode hw cap (loadBlock rd ea s) := by
  rw [loadBlock, loadBlock, blockFault_withMode]
  cases blockFault s ea <;> rfl

theorem storeBlock_withMode (rd : VReg) (ea : DWord) :
    storeBlock rd ea (withMode hw cap s) = answerWithMode hw cap (storeBlock rd ea s) := by
  rw [storeBlock, storeBlock, blockFault_withMode]
  cases blockFault s ea <;> rfl

theorem loadMatrix_withMode (rd : MReg) (ea : DWord) :
    loadMatrix rd ea (withMode hw cap s) = answerWithMode hw cap (loadMatrix rd ea s) := by
  rw [loadMatrix, loadMatrix, matrixLoadFault_withMode]
  cases matrixLoadFault s ea <;> rfl

theorem storeMatrix_withMode (rd : MReg) (ea : DWord) :
    storeMatrix rd ea (withMode hw cap s) = answerWithMode hw cap (storeMatrix rd ea s) :=
  faultOr_withMode hw cap s (matrixStoreFault s rd ea) (s.setDm (matWrite s.dm ea.toNat (s.getM rd)))

/-! ## The commands with checks of their own -/

theorem execGetrk_withMode (rd : VReg) (k : BitVec 4) :
    execGetrk rd k (withMode hw cap s) = answerWithMode hw cap (execGetrk rd k s) := by
  rw [execGetrk, execGetrk]
  split
  · exact withSchedule_withMode hw cap s rd _
  · exact raise_withMode hw cap s _ _

theorem execArsgen_withMode (rd ra : VReg) (r : Byte) :
    execArsgen rd ra r (withMode hw cap s) = answerWithMode hw cap (execArsgen rd ra r s) :=
  ite_withMode hw cap (raise_withMode hw cap s _ _) (complete_withMode hw cap (s.setV rd _))

theorem execGmul_withMode (rd ra rb : MReg) :
    execGmul rd ra rb (withMode hw cap s) = answerWithMode hw cap (execGmul rd ra rb s) :=
  faultOr_withMode hw cap s (operandFault s ra rb _) (s.setM rd _)

theorem execGapply_withMode (rd ra rb : MReg) :
    execGapply rd ra rb (withMode hw cap s) = answerWithMode hw cap (execGapply rd ra rb s) :=
  faultOr_withMode hw cap s (operandFault s ra rb _) (s.setM rd _)

theorem execGpow_withMode (rd ra rb : MReg) (rc : VReg) :
    execGpow rd ra rb rc (withMode hw cap s) = answerWithMode hw cap (execGpow rd ra rb rc s) :=
  ite_withMode hw cap (raise_withMode hw cap s _ _)
    (ite_withMode hw cap (raise_withMode hw cap s _ _) (complete_withMode hw cap (s.setM rd _)))

/-- Every command but `SETHW` and `GETST` answers alike whatever `MODE.HW` and `HWCAP` are. -/
theorem exec_withMode {i : Instr} (hset : ∀ rd mode, i ≠ .sethw rd mode) (hget : ∀ rd, i ≠ .getst rd) :
    exec i (withMode hw cap s) = answerWithMode hw cap (exec i s) := by
  cases i with
  | sethw rd mode => exact absurd rfl (hset rd mode)
  | getst rd => exact absurd rfl (hget rd)
  | aesgen rd ra => exact withSchedule_withMode hw cap s rd _
  | getrk rd k => exact execGetrk_withMode hw cap s rd k
  | arsgen rd ra r => exact execArsgen_withMode hw cap s rd ra r
  | gmul rd ra rb => exact execGmul_withMode hw cap s rd ra rb
  | gapply rd ra rb => exact execGapply_withMode hw cap s rd ra rb
  | gpow rd ra rb rc => exact execGpow_withMode hw cap s rd ra rb rc
  | ldb | ldbx => exact loadBlock_withMode hw cap s _ _
  | stb | stbx => exact storeBlock_withMode hw cap s _ _
  | gld | gldx => exact loadMatrix_withMode hw cap s _ _
  | gst | gstx => exact storeMatrix_withMode hw cap s _ _
  | _ => rfl

/-- Settles O13: the change of `MODE.HW` and `HWCAP` commutes with `exec`. -/
theorem modeChangesNoResult : Obligations.ModeChangesNoResult := by
  intro i s t hw cap hset hget h
  change exec i (withMode hw cap s) = answerWithMode hw cap (.next t)
  rw [exec_withMode hw cap s hset hget, h]

end Sys2Proof.Safety
end

-- The block primitives.
section
/-!
PROOFS. The block primitives (40_block_primitives.md): the bytes and lanes of the functions of the AES round unit, the
commands that write their results, and the S-box as the affine map of the inverse in GF(2^8).
-/

namespace Sys2Proof.Machine

/-! ## Bytes of words and lanes -/

/-- Byte `i` of a value of any width (R11). -/
def byteAt {w : Nat} (x : BitVec w) (i : Nat) : Byte := x.extractLsb' (8 * i) 8

/-- Bit `8 * i + j` of a value is bit `j` of its byte `i` (R11). -/
theorem getLsbD_byteAt {w : Nat} (x : BitVec w) (i : Nat) {j : Nat} (hj : j < 8) :
    (byteAt x i).getLsbD j = x.getLsbD (8 * i + j) := by
  simp [byteAt, hj]

theorem byteAt_xor {w : Nat} (x y : BitVec w) (i : Nat) : byteAt (x ^^^ y) i = byteAt x i ^^^ byteAt y i := by
  ext j hj
  simp [byteAt]

/-- Byte `r` of column `c` of a block, in the lane `q[c / 2]` that holds the column (R12, R13). -/
theorem byteB_column (b : Block) (c : Nat) {r : Nat} (hr : r < 4) :
    byteB b (4 * c + r) = byteAt (laneQ b (c / 2)) (4 * (c % 2) + r) := by
  ext j hj
  have hpos : 64 * (c / 2) + (8 * (4 * (c % 2) + r) + j) = 8 * (4 * c + r) + j := by omega
  have hlane : 8 * (4 * (c % 2) + r) + j < 64 := by omega
  simp [byteB, byteAt, laneQ, hpos, hlane]

/-- Byte `4 * c + r` of a value packed from words is byte `r` of word `c` (R13). -/
theorem byteAt_pack {n : Nat} (xs : List Word) {c r : Nat} (hr : r < 4) (h : 32 * (c + 1) ≤ n) (hc : c < xs.length) :
    byteAt (pack n xs) (4 * c + r) = byteAt xs[c] r := by
  apply BitVec.eq_of_getLsbD_eq
  intro j hj
  have hpos : 8 * (4 * c + r) + j = 32 * c + (8 * r + j) := by ring
  rw [getLsbD_byteAt _ _ hj, getLsbD_byteAt _ _ hj, hpos, pack_getLsbD xs _ _ (by omega) h hc]

/-- A word rotated by one byte: byte `i` takes the value of byte `(i + 1) mod 4` (R128, R141). -/
theorem byteAt_rotateRight (w : Word) {i : Nat} (hi : i < 4) :
    byteAt (w.rotateRight 8) i = byteAt w ((i + 1) % 4) := by
  apply BitVec.eq_of_getLsbD_eq
  intro j hj
  rw [getLsbD_byteAt _ _ hj, getLsbD_byteAt _ _ hj, BitVec.getLsbD_rotateRight]
  by_cases h3 : i = 3
  · subst h3
    simp [show 24 + j < 32 by omega]
  · have hlow : 8 * i + j < 24 := by omega
    have hpos : 8 * ((i + 1) % 4) + j = 8 + (8 * i + j) := by omega
    simp [hlow, hpos]

/-- R141's formula for `RotWord` is a rotation by one byte. -/
theorem rotWord_eq_rotateRight (w : Word) : rotWord w = w.rotateRight 8 := by
  have hmask : ∀ k, k < 8 → (0xff#32).getLsbD k = true := by decide
  have hhigh : (w &&& 0xff#32) <<< 24 = w <<< 24 := by
    apply BitVec.eq_of_getLsbD_eq
    intro j hj
    rw [BitVec.getLsbD_shiftLeft, BitVec.getLsbD_shiftLeft, BitVec.getLsbD_and]
    by_cases h : j < 24
    · simp [h]
    · rw [hmask (j - 24) (by omega), Bool.and_true]
  rw [rotWord, BitVec.rotateRight_def]
  exact congrArg (w >>> 8 ||| ·) hhigh

/-! ## Doubling eight bytes at once -/

/-- The mask of R128 that keeps all but the top bit of each byte. -/
theorem getLsbD_and_0x7f (x : DWord) {n : Nat} (hn : n < 64) :
    (x &&& 0x7f7f7f7f7f7f7f7f#64).getLsbD n = (x.getLsbD n && decide (n % 8 ≠ 7)) := by
  have hmask : ∀ n, n < 64 → (0x7f7f7f7f7f7f7f7f#64).getLsbD n = decide (n % 8 ≠ 7) := by decide
  rw [BitVec.getLsbD_and, hmask n hn]

/-- The mask of R128 that keeps the lowest bit of each byte. -/
theorem getLsbD_and_0x01 (x : DWord) {n : Nat} (hn : n < 64) :
    (x &&& 0x0101010101010101#64).getLsbD n = (x.getLsbD n && decide (n % 8 = 0)) := by
  have hmask : ∀ n, n < 64 → (0x0101010101010101#64).getLsbD n = decide (n % 8 = 0) := by decide
  rw [BitVec.getLsbD_and, hmask n hn]

/-- A lane whose bytes are 0 or 1. -/
def BytesAreBits (m : DWord) : Prop := ∀ n, n % 8 ≠ 0 → m.getLsbD n = false

/-- Such a lane moved up by less than a byte: bit `n` is the bit of its byte, at one place of the byte. -/
theorem BytesAreBits.getLsbD_shiftLeft {m : DWord} (hm : BytesAreBits m) {k n : Nat} (hk : k < 8) (hn : n < 64) :
    (m <<< k).getLsbD n = (decide (n % 8 = k) && m.getLsbD (8 * (n / 8))) := by
  by_cases h : n % 8 = k
  · have hpos : n - k = 8 * (n / 8) := by omega
    have hkn : ¬ n < k := by omega
    rw [BitVec.getLsbD_shiftLeft, hpos]
    simp only [hn, hkn, h, decide_true, decide_false, Bool.not_false, Bool.true_and]
  · by_cases hkn : n < k
    · simp [h, hkn]
    · simp [h, hm (n - k) (by omega)]

/-- Copies of such a lane moved by different distances below a byte have no bit in common. -/
theorem BytesAreBits.shiftLeft_and_shiftLeft {m : DWord} (hm : BytesAreBits m) {j k : Nat} (hj : j < 8) (hk : k < j) :
    m <<< j &&& m <<< k = 0#64 := by
  apply BitVec.eq_of_getLsbD_eq
  intro n hn
  rw [BitVec.getLsbD_and, hm.getLsbD_shiftLeft hj hn, hm.getLsbD_shiftLeft (hk.trans hj) hn]
  by_cases h : n % 8 = j
  · simp [show n % 8 ≠ k by omega]
  · simp [h]

/-- No carry crosses a byte, nor arises within one, when bytes 0 or 1 are multiplied by the reduction constant. -/
theorem BytesAreBits.mul_0x1b {m : DWord} (hm : BytesAreBits m) :
    m * 0x1b#64 = m <<< 4 ||| m <<< 3 ||| (m <<< 1 ||| m <<< 0) := by
  have hsum : m * 0x1b#64 = (m <<< 4 + m <<< 3) + (m <<< 1 + m <<< 0) := by bv_omega
  have hand {j k : Nat} (hj : j < 8) (hk : k < j) := hm.shiftLeft_and_shiftLeft hj hk
  rw [hsum, BitVec.add_eq_or_of_and_eq_zero (m <<< 4) _ (hand (by decide) (by decide)),
    BitVec.add_eq_or_of_and_eq_zero (m <<< 1) _ (hand (by decide) (by decide)), BitVec.add_eq_or_of_and_eq_zero]
  simp only [BitVec.and_or_distrib_left, BitVec.and_or_distrib_right, hand, Nat.reduceLT, BitVec.or_self]

/-- The reduction constant in each byte whose bit is set. -/
theorem BytesAreBits.byteAt_mul_0x1b {m : DWord} (hm : BytesAreBits m) {i : Nat} (hi : i < 8) :
    byteAt (m * 0x1b#64) i = if m.getLsbD (8 * i) then 0x1b else 0x00 := by
  have hbits : ∀ j, j < 8 → (decide (j = 4) || decide (j = 3) || (decide (j = 1) || decide (j = 0))) =
      (0x1b#8).getLsbD j := by decide
  apply BitVec.eq_of_getLsbD_eq
  intro j hj
  have hn : 8 * i + j < 64 := by omega
  have hplace : (8 * i + j) % 8 = j := by omega
  have hbyte : (8 * i + j) / 8 = i := by omega
  rw [getLsbD_byteAt _ _ hj, hm.mul_0x1b]
  simp only [BitVec.getLsbD_or, hm.getLsbD_shiftLeft _ hn, Nat.reduceLT, hplace, hbyte]
  rw [← Bool.and_or_distrib_right, ← Bool.and_or_distrib_right, ← Bool.and_or_distrib_right, hbits j hj]
  cases m.getLsbD (8 * i) <;> simp

/-- The top bits of the bytes of a lane, each at the bottom of its byte (R128). -/
theorem bytesAreBits_topBits (x : DWord) : BytesAreBits (x >>> 7 &&& 0x0101010101010101#64) := by
  intro n hn
  by_cases h : n < 64
  · simp [getLsbD_and_0x01 _ h, hn]
  · exact BitVec.getLsbD_of_ge _ _ (not_lt.1 h)

/-- `xtime` on each byte (R128). -/
theorem byteAt_xtime8 (x : DWord) {i : Nat} (hi : i < 8) : byteAt (xtime8 x) i = xtime (byteAt x i) := by
  have hdouble : byteAt ((x &&& 0x7f7f7f7f7f7f7f7f#64) <<< 1) i = byteAt x i <<< 1 := by
    apply BitVec.eq_of_getLsbD_eq
    intro j hj
    rw [getLsbD_byteAt _ _ hj, BitVec.getLsbD_shiftLeft, getLsbD_and_0x7f _ (by omega), BitVec.getLsbD_shiftLeft]
    cases j with
    | zero =>
      have hclear : i = 0 ∨ (8 * i - 1) % 8 = 7 := by omega
      rcases hclear with rfl | hclear
      · simp
      · simp [hclear]
    | succ j =>
      have hin : 8 * i + j + 1 < 64 := by omega
      have hkept : j % 8 ≠ 7 := by omega
      simp [← Nat.add_assoc, hin, hj, hkept, getLsbD_byteAt x i (show j < 8 by omega)]
  have htop : (x >>> 7 &&& 0x0101010101010101#64).getLsbD (8 * i) = (byteAt x i).getLsbD 7 := by
    rw [getLsbD_and_0x01 _ (by omega), getLsbD_byteAt x i (by decide)]
    simp [Nat.add_comm]
  rw [xtime, ← hdouble, ← htop, ← (bytesAreBits_topBits x).byteAt_mul_0x1b hi, ← byteAt_xor]
  rfl

/-! ## MixColumns on packed columns -/

/-- `rotColumns` moves byte `r + 1` of each column to byte `r` (R128). -/
theorem byteAt_rotColumns (x : DWord) {c r : Nat} (hc : c < 2) (hr : r < 4) :
    byteAt (rotColumns x) (4 * c + r) = byteAt x (4 * c + (r + 1) % 4) := by
  have hcolumn {k : Nat} (hk : k < 4) : byteAt (x.extractLsb' (32 * c) 32) k = byteAt x (4 * c + k) := by
    apply BitVec.eq_of_getLsbD_eq
    intro j hj
    have hpos : 32 * c + (8 * k + j) = 8 * (4 * c + k) + j := by ring
    rw [getLsbD_byteAt _ _ hj, getLsbD_byteAt _ _ hj, BitVec.getLsbD_extractLsb', hpos,
      decide_eq_true (show 8 * k + j < 32 by omega), Bool.true_and]
  rw [rotColumns, byteAt_pack _ hr (by omega) (by simpa using hc), ← hcolumn (Nat.mod_lt _ (by decide)),
    ← byteAt_rotateRight _ hr]
  obtain rfl | rfl : c = 0 ∨ c = 1 := by omega
  all_goals rfl

/-- One lane of the packed form is two columns of R127. -/
theorem byteAt_mixLane (x : DWord) {c r : Nat} (hc : c < 2) (hr : r < 4) :
    byteAt (mixLane x) (4 * c + r) = mixRow r (byteAt x (4 * c)) (byteAt x (4 * c + 1)) (byteAt x (4 * c + 2))
      (byteAt x (4 * c + 3)) := by
  have hmod (k : Nat) : k % 4 < 4 := Nat.mod_lt k (by decide)
  have hlt {k : Nat} (hk : k < 4) : 4 * c + k < 8 := by omega
  simp only [mixLane, byteAt_xor, byteAt_rotColumns _ hc hr, byteAt_rotColumns _ hc (hmod _),
    byteAt_xtime8 x (hlt hr), byteAt_xtime8 x (hlt (hmod _))]
  obtain rfl | rfl | rfl | rfl : r = 0 ∨ r = 1 ∨ r = 2 ∨ r = 3 := by omega
  all_goals simp only [mixRow, Nat.reduceAdd, Nat.reduceMod, Nat.add_zero]
  all_goals ac_rfl

/-- Byte `r` of column `c` (R127). -/
theorem byteB_mixColumns_column (b : Block) {c r : Nat} (hc : c < 4) (hr : r < 4) :
    byteB (mixColumns b) (4 * c + r) =
      mixRow r (byteB b (4 * c)) (byteB b (4 * c + 1)) (byteB b (4 * c + 2)) (byteB b (4 * c + 3)) := by
  have hrow : (4 * c + r) % 4 = r := by omega
  have hcol : (4 * c + r) / 4 = c := by omega
  rw [byteB_mixColumns b (by omega), hrow, hcol]

/-- The packed form of a block is the columns of R127 in both its lanes (R128). -/
theorem mixColumnsPacked_eq (b : Block) : mixColumnsPacked b = mixColumns b := by
  refine block_ext_bytes fun i hi => ?_
  obtain ⟨c, r, hr, rfl⟩ : ∃ c r, r < 4 ∧ i = 4 * c + r := ⟨i / 4, i % 4, by omega, by omega⟩
  have hcolumn {k : Nat} (hk : k < 4) := byteB_column b c hk
  rw [byteB_column _ c hr, mixColumnsPacked, laneQ_blockOfQ _ _ (by omega),
    byteAt_mixLane _ (Nat.mod_lt c (by decide)) hr, byteB_mixColumns_column b (by omega) hr,
    hcolumn (k := 1) (by decide), hcolumn (k := 2) (by decide), hcolumn (k := 3) (by decide)]
  exact congrArg (mixRow r · _ _ _) (hcolumn (k := 0) (by decide)).symm

/-- Settles O36, by the bytes of the packed form and of its doubling. -/
theorem packedMixColumnsAgrees : Obligations.PackedMixColumnsAgrees :=
  ⟨mixColumnsPacked_eq, fun x _ hi => byteAt_xtime8 x hi⟩

/-! ## The stages -/

/-- Settles O37: SubBytes acts on each byte's value, ShiftRows on byte positions. -/
theorem stagesCommute : Obligations.StagesCommute := by
  refine fun b => block_ext_bytes fun i hi => ?_
  have hsource : i % 4 + 4 * ((i / 4 + i % 4) % 4) < 16 := by omega
  rw [byteB_shiftRows _ hi, byteB_subBytes _ hsource, byteB_subBytes _ hi, byteB_shiftRows _ hi]

/-! ## The S-box -/

/-- The inverse of the affine map of R123, whose own constant is 0x05. -/
def sboxAffineInv (x : Byte) : Byte := x.rotateLeft 1 ^^^ x.rotateLeft 3 ^^^ x.rotateLeft 6 ^^^ 0x05

theorem sboxAffine_sboxAffineInv : ∀ x : Byte, sboxAffine (sboxAffineInv x) = x := by decide

/-- The element whose affine image the S-box holds for `a`: by `gfMul_gfInv`, the inverse of `a` (R123). -/
def gfInv (a : Byte) : Byte := sboxAffineInv (sbox a)

theorem sbox_eq_sboxAffine_gfInv (a : Byte) : sbox a = sboxAffine (gfInv a) :=
  (sboxAffine_sboxAffineInv (sbox a)).symm

/-- Every entry of the table comes from the inverse of its index (R123). -/
theorem gfMul_gfInv : ∀ a : Byte, if a = 0 then gfInv a = 0 else gfMul a (gfInv a) = 1 := by decide

theorem gfInv_involutive : ∀ a : Byte, gfInv (gfInv a) = a := by decide

/-- The S-box determines the inverse of its argument, and that determines the argument. -/
theorem sbox_injective : Function.Injective sbox := by
  have hinv : Function.Injective (sboxAffineInv ∘ sbox) := Function.Involutive.injective gfInv_involutive
  exact hinv.of_comp

/-- Settles O35: the affine map of the inverse, entry by entry; an injection of a finite type into itself is a
bijection. -/
theorem sboxIsAffineOfInverse : Obligations.SboxIsAffineOfInverse :=
  ⟨fun a => ⟨gfInv a, gfMul_gfInv a, sbox_eq_sboxAffine_gfInv a⟩,
    Finite.injective_iff_bijective.1 sbox_injective⟩

/-! ## Words of the key schedule -/

/-- `SubWord` is the S-box on each byte (R141). -/
theorem byteAt_subWord (w : Word) {i : Nat} (hi : i < 4) : byteAt (subWord w) i = sbox (byteAt w i) := by
  have hlane := pack_lane (n := 32) ((List.range 4).map fun k => sbox (byteAt w k)) i (by omega) (by simpa using hi)
  rw [List.getElem_map, List.getElem_range] at hlane
  exact hlane

/-- `RotWord` moves byte `i + 1` to byte `i` (R141). -/
theorem byteAt_rotWord (w : Word) {i : Nat} (hi : i < 4) : byteAt (rotWord w) i = byteAt w ((i + 1) % 4) := by
  rw [rotWord_eq_rotateRight, byteAt_rotateRight w hi]

/-! ## Shifted lanes -/

/-- The lowest lane after the shift is empty (R135). -/
theorem laneD_shiftLeft4_zero (b : Block) : laneD (shiftLeft4 b) 0 = 0 := by
  ext j hj
  simp [laneD, shiftLeft4, hj]

/-- The shift moves each lane up by one (R135). -/
theorem laneD_shiftLeft4_succ (b : Block) {j : Nat} (hj : j < 3) : laneD (shiftLeft4 b) (j + 1) = laneD b j := by
  apply BitVec.eq_of_getLsbD_eq
  intro n hn
  have hpos : 32 * (j + 1) + n = 32 + (32 * j + n) := by ring
  have hin : 32 + (32 * j + n) < 128 := by omega
  simp [laneD, shiftLeft4, hn, hpos, hin, -BitVec.getLsbD_eq_getElem]

end Sys2Proof.Machine

namespace Sys2Proof.Safety

open Sys2Proof.Machine

/-! ## The commands -/

theorem exec_xor (rd ra rb : VReg) (s : State) :
    exec (.xor rd ra rb) s = .next (s.setV rd (s.getV ra ^^^ s.getV rb)).advance := rfl

theorem exec_addq (rd ra rb : VReg) (s : State) :
    exec (.addq rd ra rb) s = .next (s.setV rd (addQ (s.getV ra) (s.getV rb))).advance := rfl

theorem exec_aesenc (rd ra rb : VReg) (s : State) :
    exec (.aesenc rd ra rb) s = .next (s.setV rd (aesRound (s.getV ra) (s.getV rb))).advance := rfl

theorem exec_aesenclast (rd ra rb : VReg) (s : State) :
    exec (.aesenclast rd ra rb) s = .next (s.setV rd (aesLastRound (s.getV ra) (s.getV rb))).advance := rfl

theorem exec_aeskga (rd ra : VReg) (rcon : Byte) (s : State) :
    exec (.aeskga rd ra rcon) s = .next (s.setV rd (aesKeyGenAssist (s.getV ra) rcon)).advance := rfl

theorem exec_slldq4 (rd ra : VReg) (s : State) :
    exec (.slldq4 rd ra) s = .next (s.setV rd (shiftLeft4 (s.getV ra))).advance := rfl

theorem exec_bcast3 (rd ra : VReg) (s : State) :
    exec (.bcast3 rd ra) s = .next (s.setV rd (broadcast3 (s.getV ra))).advance := rfl

theorem exec_mov (rd ra : VReg) (s : State) : exec (.mov rd ra) s = .next (s.setV rd (s.getV ra)).advance := rfl

theorem exec_subb (rd ra : VReg) (s : State) :
    exec (.subb rd ra) s = .next (s.setV rd (subBytes (s.getV ra))).advance := rfl

theorem exec_shrow (rd ra : VReg) (s : State) :
    exec (.shrow rd ra) s = .next (s.setV rd (shiftRows (s.getV ra))).advance := rfl

theorem exec_mixc (rd ra : VReg) (s : State) :
    exec (.mixc rd ra) s = .next (s.setV rd (mixColumns (s.getV ra))).advance := rfl

/-- A block result is what its register holds after the command (R144). -/
theorem getV_setV_advance (rd : VReg) (x : Block) (s : State) : ((s.setV rd x).advance).getV rd = x :=
  getV_setV_same s rd x

/-- Settles O29: the results of `XOR` and `MOV` are named in the statement, that of `ADDQ` is known by its lanes. -/
theorem xorMovAndAddq : Obligations.XorMovAndAddq := by
  refine fun rd ra rb s => ⟨⟨_, exec_xor rd ra rb s, writesBlock_setV_advance ..⟩,
    ⟨_, exec_mov rd ra s, writesBlock_setV_advance ..⟩, ⟨_, exec_addq rd ra rb s, ?_, fun k hk => ?_⟩⟩
  all_goals rw [getV_setV_advance]
  · exact writesBlock_setV_advance ..
  · rw [laneQ_addQ _ _ hk, BitVec.toNat_add]

/-- Settles O30: the result of each command, lane by lane; then the two functions, byte by byte. -/
theorem laneCommands : Obligations.LaneCommands := by
  refine ⟨fun rd ra rcon s => ⟨_, exec_aeskga rd ra rcon s, ?_⟩, fun rd ra s => ⟨_, exec_slldq4 rd ra s, ?_⟩,
    fun rd ra s => ⟨_, exec_bcast3 rd ra s, ?_⟩, fun w i hi => ⟨byteAt_subWord w hi, byteAt_rotWord w hi⟩⟩
  all_goals
    rw [getV_setV_advance]
    refine ⟨writesBlock_setV_advance .., ?_⟩
  · refine ⟨?_, ?_, ?_, ?_⟩ <;> exact laneD_pack _ _ (by decide) (by simp)
  · exact ⟨laneD_shiftLeft4_zero _, fun j hj => laneD_shiftLeft4_succ _ hj⟩
  · exact fun j hj => laneD_broadcast3 _ hj

/-- Settles O31: the results byte by byte, those of `SHROW` by row and column. -/
theorem subbAndShrow : Obligations.SubbAndShrow := by
  refine fun rd ra s => ⟨⟨_, exec_subb rd ra s, ?_⟩, ⟨_, exec_shrow rd ra s, ?_⟩⟩
  all_goals
    rw [getV_setV_advance]
    refine ⟨writesBlock_setV_advance .., ?_⟩
  · exact fun i hi => byteB_subBytes _ hi
  · intro r c hr hc
    have hrow : (r + 4 * c) % 4 = r := by omega
    have hcol : (r + 4 * c) / 4 = c := by omega
    rw [byteB_shiftRows _ (by omega), hrow, hcol]

/-- Settles O32: the four rows of the matrix, which are the cases of `mixRow`. -/
theorem mixcColumns : Obligations.MixcColumns := by
  refine fun rd ra s => ⟨_, exec_mixc rd ra s, ?_⟩
  rw [getV_setV_advance]
  refine ⟨writesBlock_setV_advance .., fun c hc => ?_⟩
  have hcolumn {r : Nat} (hr : r < 4) := byteB_mixColumns_column (s.getV ra) hc hr
  exact ⟨hcolumn (r := 0) (by decide), hcolumn (r := 1) (by decide), hcolumn (r := 2) (by decide),
    hcolumn (r := 3) (by decide)⟩

/-- Settles O33: the rounds are defined as these stages and the key. -/
theorem aesencAndAesenclast : Obligations.AesencAndAesenclast :=
  fun rd ra rb s => ⟨⟨_, exec_aesenc rd ra rb s, writesBlock_setV_advance ..⟩,
    ⟨_, exec_aesenclast rd ra rb s, writesBlock_setV_advance ..⟩⟩

/-- Settles O34: the scratch register carries the block through the stages, the key register is untouched, and the two
orders agree because the stages commute. -/
theorem stageCommandsCompose : Obligations.StageCommandsCompose := by
  intro vd vt vs vk s hkey
  have hkeep (u : State) (x : Block) : (u.setV vt x).getV vk = u.getV vk := getV_setV_ne u vt vk x hkey.symm
  refine ⟨⟨_, _, _, rfl, rfl, rfl, ?_, ?_⟩, ⟨_, _, _, rfl, rfl, rfl, ?_, ?_⟩⟩
  all_goals simp only [advance_getV, getV_setV_same, hkeep, aesRound, aesLastRound, stagesCommute (s.getV vs)]

end Sys2Proof.Safety
end

-- The key schedule, and the generators as sequences of AES rounds.
section
/-!
PROOFS. The AES generator (41_aes_cbrng.md): each round key is the next four words of the recurrence (R162), and so is
what the helper primitives compute (R164); both generators, this and the one of 42_ars_cbrng.md, are a sequence of AES
rounds under some keys, and every stage of a round is a bijection on blocks (R165, R184).
-/

namespace Sys2Proof.Machine

/-! ## Exclusive or -/

/-- With `BitVec.xor_comm`, the order of terms in which equal ones meet and cancel. -/
theorem xor_left_comm {w : Nat} (x y z : BitVec w) : x ^^^ (y ^^^ z) = y ^^^ (x ^^^ z) := by ac_rfl

/-- The words of an exclusive or. -/
theorem laneD_xor (a b : Block) (j : Nat) : laneD (a ^^^ b) j = laneD a j ^^^ laneD b j := by
  ext n hn
  simp [laneD]

/-! ## The key schedule -/

/-- A word is its four bytes. -/
theorem word_ext_bytes {x y : Word} (h : ∀ i, i < 4 → byteAt x i = byteAt y i) : x = y := by
  apply BitVec.eq_of_getLsbD_eq
  intro n hn
  have hpos : 8 * (n / 8) + n % 8 = n := by omega
  have hbit : n % 8 < 8 := by omega
  rw [← hpos, ← getLsbD_byteAt x _ hbit, ← getLsbD_byteAt y _ hbit, h _ (by omega)]

/-- `SubWord` acts on each byte's value, `RotWord` on byte positions (R141). -/
theorem subWord_rotWord (x : Word) : subWord (rotWord x) = rotWord (subWord x) := by
  refine word_ext_bytes fun i hi => ?_
  rw [byteAt_subWord _ hi, byteAt_rotWord _ hi, byteAt_rotWord _ hi, byteAt_subWord _ (Nat.mod_lt _ (by decide))]

/-- The first word of a round key (R162). -/
theorem laneD_nextRoundKey_zero (rk : Block) (rc : Byte) :
    laneD (nextRoundKey rk rc) 0 = laneD rk 0 ^^^ subWord (rotWord (laneD rk 3)) ^^^ rc.setWidth 32 :=
  laneD_pack _ 0 (by decide) (by simp)

/-- The other words of a round key (R162). -/
theorem laneD_nextRoundKey_succ (rk : Block) (rc : Byte) {c : Nat} (hc : c < 3) :
    laneD (nextRoundKey rk rc) (c + 1) = laneD rk (c + 1) ^^^ laneD (nextRoundKey rk rc) c := by
  obtain rfl | rfl | rfl : c = 0 ∨ c = 1 ∨ c = 2 := by omega
  all_goals simp [nextRoundKey, laneD_pack]

theorem roundKeysFrom_getElem_zero (rk : Block) (rcs : List Byte) :
    (roundKeysFrom rk rcs)[0]'(by simp [roundKeysFrom_length]) = rk := by
  cases rcs <;> rfl

/-- Each round key comes from the one before, by the round constant of its position (R162). -/
theorem roundKeysFrom_getElem_succ (rk : Block) (rcs : List Byte) {j : Nat} (hj : j < rcs.length) :
    (roundKeysFrom rk rcs)[j + 1]'(by simp [roundKeysFrom_length, hj]) =
      nextRoundKey ((roundKeysFrom rk rcs)[j]'(by rw [roundKeysFrom_length]; omega)) rcs[j] := by
  induction rcs generalizing rk j with
  | nil => simp at hj
  | cons rc rcs ih =>
    cases j with
    | zero => exact roundKeysFrom_getElem_zero (nextRoundKey rk rc) rcs
    | succ j => exact ih (nextRoundKey rk rc) (Nat.lt_of_succ_lt_succ hj)

theorem keyExpansion_zero (key : Block) : (keyExpansion key)[0] = key := rfl

theorem keyExpansion_succ (key : Block) {j : Nat} (hj : j < 10) :
    (keyExpansion key)[j + 1] = nextRoundKey (keyExpansion key)[j] (rconList.getD j 0) := by
  have hrcon : rconList.getD j 0 = rconList[j]'hj := List.getD_eq_getElem rconList 0 hj
  rw [hrcon]
  exact roundKeysFrom_getElem_succ key rconList hj

/-- The schedule `rk` as a sequence of keys. -/
def scheduleKey (rk : Vector Block 11) (i : Nat) : Block := rk.toList.getD i 0

theorem scheduleKey_eq (rk : Vector Block 11) {i : Nat} (hi : i < 11) : scheduleKey rk i = rk[i] := by
  rw [scheduleKey, List.getD_eq_getElem rk.toList 0 (by simpa using hi), Vector.getElem_toList]

/-- `w[i]`, word `i mod 4` of round key `i / 4` (R162). -/
def scheduleWord (key : Block) (i : Nat) : Word := laneD (scheduleKey (keyExpansion key) (i / 4)) (i % 4)

theorem scheduleWord_eq (key : Block) {j c : Nat} (hj : j < 11) (hc : c < 4) :
    scheduleWord key (4 * j + c) = laneD (keyExpansion key)[j] c := by
  have hkey : (4 * j + c) / 4 = j := by omega
  have hlane : (4 * j + c) % 4 = c := by omega
  rw [scheduleWord, hkey, hlane, scheduleKey_eq _ hj]

/-- The recurrence of R162 for the words whose number is a multiple of 4. -/
theorem scheduleWord_first (key : Block) {j : Nat} (hj : j < 10) :
    scheduleWord key (4 * (j + 1)) = scheduleWord key (4 * j) ^^^
      subWord (rotWord (scheduleWord key (4 * j + 3))) ^^^ (rconList.getD j 0).setWidth 32 := by
  have hlow {k : Nat} (hk : k < 11) : scheduleWord key (4 * k) = laneD (keyExpansion key)[k] 0 :=
    scheduleWord_eq key (c := 0) hk (by decide)
  rw [hlow (k := j + 1) (by omega), hlow (k := j) (by omega), scheduleWord_eq key (by omega) (by decide),
    keyExpansion_succ key hj, laneD_nextRoundKey_zero]

/-- The recurrence of R162 for the other words. -/
theorem scheduleWord_other (key : Block) {i : Nat} (hlow : 5 ≤ i) (hhigh : i ≤ 43) (hmod : i % 4 ≠ 0) :
    scheduleWord key i = scheduleWord key (i - 4) ^^^ scheduleWord key (i - 1) := by
  obtain ⟨j, c, hj, hc, rfl⟩ : ∃ j c, j < 10 ∧ c < 3 ∧ i = 4 * (j + 1) + (c + 1) :=
    ⟨i / 4 - 1, i % 4 - 1, by omega, by omega, by omega⟩
  have hfour : 4 * (j + 1) + (c + 1) - 4 = 4 * j + (c + 1) := by omega
  have hone : 4 * (j + 1) + (c + 1) - 1 = 4 * (j + 1) + c := by omega
  rw [hfour, hone, scheduleWord_eq key (by omega) (by omega), scheduleWord_eq key (by omega) (by omega),
    scheduleWord_eq key (by omega) (by omega), keyExpansion_succ key hj, laneD_nextRoundKey_succ _ _ hc]

/-! ## The round keys by the helper primitives -/

/-- A block and its shift by one lane, added: the step that R164 takes three times. -/
def addShifted (b : Block) : Block := b ^^^ shiftLeft4 b

theorem laneD_addShifted_zero (b : Block) : laneD (addShifted b) 0 = laneD b 0 := by
  rw [addShifted, laneD_xor, laneD_shiftLeft4_zero, xor_zero]

theorem laneD_addShifted_succ (b : Block) {j : Nat} (hj : j < 3) :
    laneD (addShifted b) (j + 1) = laneD b (j + 1) ^^^ laneD b j := by
  rw [addShifted, laneD_xor, laneD_shiftLeft4_succ b hj]

/-- Three such steps leave in each lane the sum of the lanes up to it: `(1 + x)^3 = 1 + x + x^2 + x^3` over GF(2). -/
theorem laneD_addShifted_three (b : Block) :
    laneD (addShifted (addShifted (addShifted b))) 0 = laneD b 0 ∧
    ∀ j, j < 3 → laneD (addShifted (addShifted (addShifted b))) (j + 1) =
      laneD b (j + 1) ^^^ laneD (addShifted (addShifted (addShifted b))) j := by
  refine ⟨by simp only [laneD_addShifted_zero], fun j hj => ?_⟩
  obtain rfl | rfl | rfl : j = 0 ∨ j = 1 ∨ j = 2 := by omega
  all_goals
    simp [laneD_addShifted_zero, laneD_addShifted_succ, BitVec.xor_assoc, BitVec.xor_comm, xor_left_comm]

/-- Lane 3 of the helper's result is what the first word of the next round key adds (R134, R162). -/
theorem laneD_aesKeyGenAssist_three (b : Block) (rcon : Byte) :
    laneD (aesKeyGenAssist b rcon) 3 = subWord (rotWord (laneD b 3)) ^^^ rcon.setWidth 32 := by
  rw [subWord_rotWord]
  exact laneD_pack _ 3 (by decide) (by simp)

/-- The idiom of R164 computes the recurrence of R162, one round key at a time. -/
theorem nextRoundKey_eq (rk : Block) (rc : Byte) :
    nextRoundKey rk rc = addShifted (addShifted (addShifted rk)) ^^^ broadcast3 (aesKeyGenAssist rk rc) := by
  obtain ⟨hzero, hsucc⟩ := laneD_addShifted_three rk
  refine block_ext_words fun j hj => ?_
  rw [laneD_xor, laneD_broadcast3 _ hj, laneD_aesKeyGenAssist_three]
  induction j with
  | zero => rw [laneD_nextRoundKey_zero, hzero, BitVec.xor_assoc]
  | succ j ih =>
    have hprev : j < 3 := Nat.lt_of_succ_lt_succ hj
    rw [laneD_nextRoundKey_succ rk rc hprev, ih (by omega), hsucc j hprev, BitVec.xor_assoc]

/-! ## Each stage is a bijection -/

theorem subBytes_injective : Function.Injective subBytes := by
  refine fun a b h => block_ext_bytes fun i hi => sbox_injective ?_
  rw [← byteB_subBytes a hi, ← byteB_subBytes b hi, h]

/-- The byte at which `ShiftRows` leaves byte `i` has `i` as its source (R125). -/
theorem shiftRows_injective : Function.Injective shiftRows := by
  refine fun a b h => block_ext_bytes fun i hi => ?_
  have hread (x : Block) : byteB x i = byteB (shiftRows x) (i % 4 + 4 * ((i / 4 + 4 - i % 4) % 4)) := by
    rw [byteB_shiftRows x (by omega)]
    congr 1
    omega
  rw [hread a, hread b, h]

/-- `xtime` is linear: each bit of its result is a sum of bits of its argument (R122). -/
theorem xtime_xor (a b : Byte) : xtime (a ^^^ b) = xtime a ^^^ xtime b := by
  have hreduce : ∀ p q : Bool, (if (p ^^ q) then 0x1b else 0x00 : Byte) =
      (if p then 0x1b else 0x00) ^^^ (if q then 0x1b else 0x00) := by decide
  simp only [xtime, BitVec.getLsbD_xor, BitVec.shiftLeft_xor_distrib]
  rw [hreduce]
  ac_rfl

/-- The rows of R127 are one row, rotated. -/
theorem mixRow_eq (a : Nat → Byte) {r : Nat} (hr : r < 4) :
    mixRow r (a 0) (a 1) (a 2) (a 3) =
      xtime (a r ^^^ a ((r + 1) % 4)) ^^^ a ((r + 1) % 4) ^^^ a ((r + 2) % 4) ^^^ a ((r + 3) % 4) := by
  rw [xtime_xor]
  obtain rfl | rfl | rfl | rfl : r = 0 ∨ r = 1 ∨ r = 2 ∨ r = 3 := by omega
  all_goals
    simp only [mixRow, Nat.reduceAdd, Nat.reduceMod]
    ac_rfl

/-- Two passes of MixColumns add to a byte four times its sum with the byte two rows away: the square of the matrix
of R127 is the circulant matrix of 5, 0, 4, 0. -/
theorem mixRow_mixRow (a : Nat → Byte) {r : Nat} (hr : r < 4) :
    mixRow r (mixRow 0 (a 0) (a 1) (a 2) (a 3)) (mixRow 1 (a 0) (a 1) (a 2) (a 3))
      (mixRow 2 (a 0) (a 1) (a 2) (a 3)) (mixRow 3 (a 0) (a 1) (a 2) (a 3)) =
      a r ^^^ xtime (xtime (a r ^^^ a ((r + 2) % 4))) := by
  have hmod (k : Nat) : k % 4 < 4 := Nat.mod_lt k (by decide)
  have hfour : (r + 4) % 4 = r := by omega
  have hfive : (r + 5) % 4 = (r + 1) % 4 := by omega
  have hsix : (r + 6) % 4 = (r + 2) % 4 := by omega
  rw [mixRow_eq (fun k => mixRow k (a 0) (a 1) (a 2) (a 3)) hr]
  simp only [mixRow_eq a hr, mixRow_eq a (hmod _), Nat.mod_add_mod, Nat.add_assoc, Nat.reduceAdd, hfour, hfive, hsix]
  generalize a r = p, a ((r + 1) % 4) = q, a ((r + 2) % 4) = u, a ((r + 3) % 4) = v
  simp only [xtime_xor, BitVec.xor_assoc, BitVec.xor_comm, xor_left_comm, xor_cancel_left]

theorem byteB_mixColumns_twice (b : Block) {c r : Nat} (hc : c < 4) (hr : r < 4) :
    byteB (mixColumns (mixColumns b)) (4 * c + r) =
      byteB b (4 * c + r) ^^^ xtime (xtime (byteB b (4 * c + r) ^^^ byteB b (4 * c + (r + 2) % 4))) := by
  have hcolumn {k : Nat} (hk : k < 4) := byteB_mixColumns_column b hc hk
  have h0 := hcolumn (k := 0) (by decide)
  rw [byteB_mixColumns_column _ hc hr, hcolumn (k := 1) (by decide), hcolumn (k := 2) (by decide),
    hcolumn (k := 3) (by decide), ← mixRow_mixRow (fun k => byteB b (4 * c + k)) hr]
  exact congrArg (mixRow r · _ _ _) h0

/-- The matrix of R127 has order four. -/
theorem mixColumns_four (b : Block) : mixColumns (mixColumns (mixColumns (mixColumns b))) = b := by
  refine block_ext_bytes fun i hi => ?_
  obtain ⟨c, r, hr, rfl⟩ : ∃ c r, r < 4 ∧ i = 4 * c + r := ⟨i / 4, i % 4, by omega, by omega⟩
  have hc : c < 4 := by omega
  have hopp : (r + 2) % 4 < 4 := Nat.mod_lt _ (by decide)
  have hback : ((r + 2) % 4 + 2) % 4 = r := by omega
  rw [byteB_mixColumns_twice _ hc hr, byteB_mixColumns_twice b hc hr, byteB_mixColumns_twice b hc hopp, hback]
  simp [xtime_xor, BitVec.xor_comm, xor_left_comm]

theorem mixColumns_injective : Function.Injective mixColumns :=
  Function.LeftInverse.injective (g := fun b => mixColumns (mixColumns (mixColumns b))) mixColumns_four

theorem aesRound_injective (k : Block) : Function.Injective (aesRound · k) :=
  (xor_left_involutive k).injective.comp (mixColumns_injective.comp (shiftRows_injective.comp subBytes_injective))

theorem aesLastRound_injective (k : Block) : Function.Injective (aesLastRound · k) :=
  (xor_left_involutive k).injective.comp (shiftRows_injective.comp subBytes_injective)

/-! ## A generator is a sequence of rounds -/

/-- The block after `n` full rounds under the keys `k`, key 0 being the one added at the start (R165, R182). -/
def roundState (k : Nat → Block) (c : Block) : Nat → Block
  | 0 => c ^^^ k 0
  | n + 1 => aesRound (roundState k c n) (k (n + 1))

theorem roundState_injective (k : Nat → Block) (n : Nat) : Function.Injective (roundState k · n) := by
  induction n with
  | zero => exact (xor_left_involutive (k 0)).injective
  | succ n ih => exact (aesRound_injective (k (n + 1))).comp ih

/-- For fixed keys, full rounds and a last round are a bijection: an injection of a finite type into itself. -/
theorem rounds_bijective (k : Nat → Block) (n : Nat) (last : Block) :
    Function.Bijective fun c => aesLastRound (roundState k c n) last :=
  Finite.injective_iff_bijective.1 ((aesLastRound_injective last).comp (roundState_injective k n))

/-- R165, the nine full rounds as a sequence. -/
theorem aes128_eq (rk : Vector Block 11) (c : Block) :
    aes128 rk c = aesLastRound (roundState (scheduleKey rk) c 9) rk[10] := by
  have hkey {i : Nat} (hi : i < 11) := scheduleKey_eq rk hi
  simp [aes128, roundState, hkey]

/-- The running key of ARS after `i` increments (R182). -/
def arsKey (key : Block) : Nat → Block
  | 0 => key
  | i + 1 => addQ (arsKey key i) weyl

/-- `n` more full rounds, from the state and the key after `i` of them (R182). -/
theorem arsRounds_roundState (key c : Block) (n i : Nat) :
    arsRounds n (arsKey key i) (roundState (arsKey key) c i) =
      (arsKey key (i + n), roundState (arsKey key) c (i + n)) := by
  induction n generalizing i with
  | zero => rfl
  | succ n ih =>
    rw [show i + (n + 1) = i + 1 + n by omega]
    exact ih (i + 1)

/-- R182, the full rounds as a sequence. -/
theorem ars_eq (key c : Block) (r : Nat) :
    ars key c r = aesLastRound (roundState (arsKey key) c (r - 1)) (arsKey key (r - 1 + 1)) := by
  have hrounds : arsRounds (r - 1) key (c ^^^ key) = (arsKey key (r - 1), roundState (arsKey key) c (r - 1)) := by
    simpa [arsKey, roundState] using arsRounds_roundState key c (r - 1) 0
  simp only [ars, hrounds, arsKey]

end Sys2Proof.Machine

namespace Sys2Proof.Safety

open Sys2Proof.Machine

/-- Settles O38: the words are those of `scheduleWord`, and each round key is `nextRoundKey` of the one before. -/
theorem keyExpansionRecurrence : Obligations.KeyExpansionRecurrence := by
  refine ⟨rfl, subWord_rotWord, by decide, fun key => ⟨keyExpansion_zero key, scheduleWord key, fun i hi => ?_,
    fun j hj => scheduleWord_first key hj, fun i => scheduleWord_other key,
    fun j c hj hc => (scheduleWord_eq key hj hc).symm⟩⟩
  simpa [keyExpansion_zero] using scheduleWord_eq key (j := 0) (by decide) hi

/-- Settles O39: `addShifted` three times, and the helper's lane 3 broadcast. -/
theorem keyExpansionByHelper : Obligations.KeyExpansionByHelper :=
  fun key _ hj => (keyExpansion_succ key hj).trans (nextRoundKey_eq _ _)

/-- A command that needs the schedule writes its result while `KSV = 1` (R26). -/
theorem withSchedule_writesBlock {s : State} (rd : VReg) (x : Block) (h : s.ksv = true) :
    ∃ t, withSchedule rd x s = .next t ∧ WritesBlock rd x s t := by
  rcases withSchedule_cases rd x s with ⟨-, hwrite⟩ | ⟨hinvalid, -⟩
  · exact ⟨_, hwrite, writesBlock_setV_advance rd x s⟩
  · simp [h] at hinvalid

/-- Settles O41: the sequence is `roundState` under the keys of the schedule. -/
theorem aesgenEncrypts : Obligations.AesgenEncrypts := by
  intro rd ra s hksv
  obtain ⟨t, hexec, hwrites⟩ := withSchedule_writesBlock rd (aes128 s.rk (s.getV ra)) hksv
  have hresult : t.getV rd = aes128 s.rk (s.getV ra) := hwrites.left
  refine ⟨t, (exec_aesgen rd ra s).trans hexec, hresult ▸ hwrites, roundState (scheduleKey s.rk) (s.getV ra),
    ?_, fun i hi => ?_, ?_⟩
  · rw [roundState, scheduleKey_eq _ (by decide)]
  · rw [roundState, scheduleKey_eq _ (by omega)]
  · rw [hresult, aes128_eq]

/-- Settles O45: both generators are full rounds and a last round under keys that do not depend on the counter. -/
theorem generatorsAreBijections : Obligations.GeneratorsAreBijections := by
  refine ⟨fun rk => ?_, fun key r _ => ?_⟩
  · rw [funext (aes128_eq rk)]
    exact rounds_bijective _ 9 _
  · rw [funext (ars_eq key · r)]
    exact rounds_bijective _ (r - 1) _

/-- Settles O40: each command is one update of the state, and `cp`. -/
theorem setkeyAndKeyexp : Obligations.SetkeyAndKeyexp :=
  ⟨fun ra s => ⟨_, exec_setkey ra s, rfl, rfl, rfl, rfl, fun _ => rfl, fun _ => rfl, rfl, fun _ => rfl,
      ⟨rfl, rfl, rfl, rfl⟩, rfl, rfl⟩,
    fun s => ⟨_, exec_keyexp s, rfl, rfl, rfl, rfl, fun _ => rfl, fun _ => rfl, rfl, fun _ => rfl,
      ⟨rfl, rfl, rfl, rfl⟩, rfl, rfl⟩⟩

/-- Settles O43: an index below 11 is legal, and `KSV = 1` lets the command write. -/
theorem getrkReadsRoundKey : Obligations.GetrkReadsRoundKey := by
  intro rd i s hi hksv
  rw [exec_getrk rd s (Nat.le_of_lt_succ hi)]
  exact withSchedule_writesBlock rd _ hksv

end Sys2Proof.Safety
end

-- The counter-based generator in closed form.
section
/-!
PROOFS. The ARS generator (42_ars_cbrng.md): the running key is `KEY + i * WEYL` in each lane (R180, R182), and `ARSGEN`
writes the rounds under those keys, whatever `KSV` is (R181).
-/

namespace Sys2Proof.Machine

/-! ## The running key of ARS -/

/-- Each lane of the running key counts up by that lane of `WEYL`, modulo `2^64` (R131, R182). -/
theorem laneQ_arsKey_toNat (key : Block) (i : Nat) {k : Nat} (hk : k < 2) :
    (laneQ (arsKey key i) k).toNat = ((laneQ key k).toNat + i * (laneQ weyl k).toNat) % 2 ^ 64 := by
  induction i with
  | zero => simp [arsKey, Nat.mod_eq_of_lt (laneQ key k).isLt]
  | succ i ih =>
    rw [arsKey, laneQ_addQ _ _ hk, BitVec.toNat_add, ih, Nat.mod_add_mod, Nat.add_assoc, Nat.succ_mul]

/-- `W0` of R180. -/
theorem laneQ_weyl_zero : (laneQ weyl 0).toNat = 0x9E3779B97F4A7C15 := by decide

/-- `W1` of R180. -/
theorem laneQ_weyl_one : (laneQ weyl 1).toNat = 0xBB67AE8584CAA73B := by decide

end Sys2Proof.Machine

namespace Sys2Proof.Safety

open Sys2Proof.Machine

/-- `ARSGEN` of a legal round count writes the generator's block, with no condition on the state (R181). -/
theorem exec_arsgen (rd ra : VReg) {r : Byte} (s : State) (hr : r ≠ 0) :
    exec (.arsgen rd ra r) s = .next (s.setV rd (ars s.key (s.getV ra) r.toNat)).advance := if_neg hr

/-- Settles O44: the keys are those of `arsKey`, and the sequence is `roundState` under them. -/
theorem arsgenEncrypts : Obligations.ArsgenEncrypts := by
  intro rd ra r s hr
  have hpos : r.toNat ≠ 0 := fun h => hr (BitVec.eq_of_toNat_eq h)
  have hlast : r.toNat - 1 + 1 = r.toNat := Nat.succ_pred hpos
  refine ⟨_, exec_arsgen rd ra s hr, ?_⟩
  rw [getV_setV_advance]
  refine ⟨writesBlock_setV_advance .., arsKey s.key, roundState (arsKey s.key) (s.getV ra), fun i => ⟨?_, ?_⟩, rfl,
    fun _ _ => rfl, ?_⟩
  · rw [laneQ_arsKey_toNat _ _ (by decide), laneQ_weyl_zero]
  · rw [laneQ_arsKey_toNat _ _ (by decide), laneQ_weyl_one]
  · rw [ars_eq, hlast]

end Sys2Proof.Safety
end

-- The matrix unit.
section
/-!
PROOFS. The GF(2) matrix unit (43_gf2_matrix.md). Sums over GF(2) are linear and may be exchanged, so the product is
associative and an application of a product is two applications. The power of R192, which halves its exponent, is then
the product of as many copies, and the laws of the exponent are those of counting copies. Each command has one equation
for the case that its checks pass and one for each fault.
-/

namespace Sys2Proof.Machine

/-! ## Sums over GF(2) -/

/-- The sum is 1 exactly if an odd number of its terms are (R191). -/
theorem xorSum_eq_oddCount (n : Nat) (f : Nat → Bool) : xorSum n f = Safety.oddCount n f := by
  induction n with
  | zero => rfl
  | succ n ih =>
    rw [xorSum, ih]
    simp only [Safety.oddCount, List.range_succ, List.countP_append, List.countP_singleton]
    cases f n with
    | false => simp
    | true => by_cases h : (List.range n).countP f % 2 = 1 <;> simp [h] <;> omega

@[simp] theorem xorSum_false (n : Nat) : (xorSum n fun _ => false) = false := by
  induction n with
  | zero => rfl
  | succ n ih => rw [xorSum, ih]; rfl

theorem xorSum_xor (n : Nat) (f g : Nat → Bool) : (xorSum n fun k => f k ^^ g k) = (xorSum n f ^^ xorSum n g) := by
  induction n with
  | zero => rfl
  | succ n ih => simp only [xorSum, ih, Bool.xor_assoc, Bool.xor_left_comm (xorSum n g)]

theorem and_xorSum (n : Nat) (b : Bool) (f : Nat → Bool) : (b && xorSum n f) = xorSum n fun k => b && f k := by
  cases b <;> simp

theorem xorSum_and (n : Nat) (f : Nat → Bool) (b : Bool) : (xorSum n f && b) = xorSum n fun k => f k && b := by
  cases b <;> simp

/-- Sums may be exchanged. -/
theorem xorSum_comm (m n : Nat) (f : Nat → Nat → Bool) :
    (xorSum m fun j => xorSum n fun k => f j k) = xorSum n fun k => xorSum m fun j => f j k := by
  induction m with
  | zero => simp [xorSum]
  | succ m ih => simp only [xorSum, xorSum_xor, ih]

/-- The sum of products `f * (g * h)` may be taken over either inner index first: what makes the product associative. -/
theorem xorSum_and_assoc (m n : Nat) (f : Nat → Bool) (g : Nat → Nat → Bool) (h : Nat → Bool) :
    (xorSum n fun k => xorSum m (fun j => f j && g j k) && h k) =
      xorSum m fun j => f j && xorSum n fun k => g j k && h k := by
  simp only [xorSum_and, and_xorSum, Bool.and_assoc]
  exact xorSum_comm n m _

/-- Of a sum with one selected term, that term is left. -/
theorem xorSum_select {n i : Nat} (f : Nat → Bool) (hi : i < n) :
    (xorSum n fun k => decide (i = k) && f k) = f i := by
  induction n with
  | zero => omega
  | succ n ih =>
    rw [xorSum]
    by_cases h : i = n
    · subst h
      rw [xorSum_congr (g := fun _ => false) fun k hk => by simp [Nat.ne_of_gt hk]]
      simp
    · simp [ih (by omega), h]

/-! ## The product and the application -/

/-- A matrix built from a function is given by the values within its shape. -/
theorem matrixOf_congr {rows cols : Word} {f g : Nat → Nat → Bool}
    (h : ∀ r c, r < rows.toNat → c < cols.toNat → f r c = g r c) :
    matrixOf rows cols f = matrixOf rows cols g := by
  unfold matrixOf
  congr 1
  refine List.map_congr_left fun r hr => List.map_congr_left fun c hc => h r c ?_ ?_
  · exact List.mem_range.1 hr
  · exact List.mem_range.1 hc

/-- The product is associative (R191). -/
theorem matMul_assoc {a b : Matrix} (c : Matrix) (hab : a.cols = b.rows) :
    matMul (matMul a b) c = matMul a (matMul b c) := by
  refine matrixOf_congr fun i j hi hj => ?_
  calc xorSum b.cols.toNat (fun k => (matMul a b).bit i k && c.bit k j)
    _ = xorSum b.cols.toNat fun k => xorSum a.cols.toNat (fun l => a.bit i l && b.bit l k) && c.bit k j :=
      xorSum_congr fun k hk => by simp [matMul_bit, show i < a.rows.toNat from hi, hk]
    _ = xorSum a.cols.toNat fun l => a.bit i l && xorSum b.cols.toNat fun k => b.bit l k && c.bit k j :=
      xorSum_and_assoc ..
    _ = xorSum a.cols.toNat fun l => a.bit i l && (matMul b c).bit l j :=
      xorSum_congr fun l hl => by
        have hl' : l < b.rows.toNat := hab ▸ hl
        simp [matMul_bit, hl', show j < c.cols.toNat from hj]

/-- An application of a product is two applications (R194). -/
theorem matApply_matMul {a b : Matrix} (v : Matrix) (hab : a.cols = b.rows) :
    matApply (matMul a b) v = matApply a (matApply b v) := by
  refine matrixOf_congr fun _ i _ hi => ?_
  calc xorSum b.cols.toNat (fun k => (matMul a b).bit i k && v.bit 0 k)
    _ = xorSum b.cols.toNat fun k => xorSum a.cols.toNat (fun l => a.bit i l && b.bit l k) && v.bit 0 k :=
      xorSum_congr fun k hk => by simp [matMul_bit, show i < a.rows.toNat from hi, hk]
    _ = xorSum a.cols.toNat fun l => a.bit i l && xorSum b.cols.toNat fun k => b.bit l k && v.bit 0 k :=
      xorSum_and_assoc ..
    _ = xorSum a.cols.toNat fun l => a.bit i l && (matApply b v).bit 0 l :=
      xorSum_congr fun l hl => by
        have hl' : l < b.rows.toNat := hab ▸ hl
        simp [matApply_bit, hl']

/-- The identity on the left (R192). -/
theorem matIdent_matMul {n : Nat} {a : Matrix} (ha : a.wf n) : matMul (matIdent a.rows) a = a := by
  have ⟨hrows, hcols, hempty, _⟩ := ha
  refine matrix_ext (matrixOf_wf _ hrows hcols hempty) ha rfl rfl fun i j hi hj => ?_
  calc (matMul (matIdent a.rows) a).bit i j
    _ = xorSum a.rows.toNat fun k => decide (i = k) && a.bit k j := by
      rw [matMul_bit]
      simp only [matMul_rows, matMul_cols, matIdent_rows, matIdent_cols] at hi hj ⊢
      simp only [hi, hj, decide_true, Bool.true_and]
      exact xorSum_congr fun k hk => by simp [matIdent_bit, hi, hk]
    _ = a.bit i j := xorSum_select _ hi

/-- The identity on the right (R192). -/
theorem matMul_matIdent {n : Nat} {a : Matrix} (ha : a.wf n) : matMul a (matIdent a.cols) = a := by
  have ⟨hrows, hcols, hempty, _⟩ := ha
  refine matrix_ext (matrixOf_wf _ hrows hcols hempty) ha rfl rfl fun i j hi hj => ?_
  calc (matMul a (matIdent a.cols)).bit i j
    _ = xorSum a.cols.toNat fun k => decide (j = k) && a.bit i k := by
      rw [matMul_bit]
      simp only [matMul_rows, matMul_cols, matIdent_cols] at hi hj ⊢
      simp only [hi, hj, decide_true, Bool.true_and]
      exact xorSum_congr fun k hk => by simp [matIdent_bit, hj, hk, Bool.and_comm, eq_comm]
    _ = a.bit i j := xorSum_select _ hj

/-- Applying the identity (R192, R194). -/
theorem matApply_matIdent {n : Nat} {v : Matrix} (hv : v.wf n) (hrow : v.rows = 1) :
    matApply (matIdent v.cols) v = v := by
  have ⟨hrows, hcols, hempty, _⟩ := hv
  refine matrix_ext (matrixOf_wf _ (hrow ▸ hrows) hcols (hrow ▸ hempty)) hv hrow.symm rfl fun i j hi hj => ?_
  obtain rfl : i = 0 := by simpa using hi
  calc (matApply (matIdent v.cols) v).bit 0 j
    _ = xorSum v.cols.toNat fun k => decide (j = k) && v.bit 0 k := by
      rw [matApply_bit]
      simp only [matApply_cols, matIdent_rows, matIdent_cols] at hj ⊢
      simp only [hj, decide_true, Bool.true_and]
      exact xorSum_congr fun k hk => by simp [matIdent_bit, hj, hk]
    _ = v.bit 0 j := xorSum_select _ hj

/-! ## The product of copies -/

open Safety (productOfCopies)

@[simp] theorem productOfCopies_rows (x : Matrix) (e : Nat) : (productOfCopies x e).rows = x.rows := by
  induction e with
  | zero => rfl
  | succ e ih => exact ih

section
variable {x : Matrix} (hx : x.rows = x.cols)
include hx

theorem productOfCopies_cols (e : Nat) : (productOfCopies x e).cols = x.cols := by
  cases e with
  | zero => exact hx
  | succ e => rfl

/-- A product of copies is one a register can hold, whatever entries are listed for `x`. -/
theorem productOfCopies_wf (e : Nat) : (productOfCopies x e).wf x.rows.toNat := by
  cases e with
  | zero => exact matIdent_wf le_rfl
  | succ e =>
    refine matrixOf_wf _ ?_ ?_ ?_
    · rw [productOfCopies_rows]
    · rw [hx]
    · rw [productOfCopies_rows, hx]

/-- `p + q` copies are `p` copies times `q` copies. -/
theorem productOfCopies_add (p q : Nat) :
    productOfCopies x (p + q) = matMul (productOfCopies x p) (productOfCopies x q) := by
  induction q with
  | zero =>
    have hident := matMul_matIdent (productOfCopies_wf hx p)
    rw [productOfCopies_cols hx, ← hx] at hident
    exact hident.symm
  | succ q ih =>
    calc matMul (productOfCopies x (p + q)) x
      _ = matMul (matMul (productOfCopies x p) (productOfCopies x q)) x := by rw [ih]
      _ = matMul (productOfCopies x p) (matMul (productOfCopies x q) x) :=
        matMul_assoc _ (by rw [productOfCopies_cols hx, productOfCopies_rows, hx])

/-- `p * q` copies are `q` copies of `p` copies. -/
theorem productOfCopies_mul (p q : Nat) :
    productOfCopies x (p * q) = productOfCopies (productOfCopies x p) q := by
  induction q with
  | zero => exact congrArg matIdent (productOfCopies_rows x p).symm
  | succ q ih => rw [Nat.mul_succ, productOfCopies_add hx, ih, productOfCopies]

/-- Halving the exponent, the recursion of R192, counts copies while the halvings last. -/
theorem matPowFuel_eq_productOfCopies (fuel : Nat) {e : Nat} (he : e < 2 ^ fuel) :
    matPowFuel x fuel e = productOfCopies x e := by
  induction fuel generalizing e with
  | zero =>
    obtain rfl : e = 0 := by simpa using he
    rfl
  | succ fuel ih =>
    have hhalf : matPowFuel x fuel (e / 2) = productOfCopies x (e / 2) := ih (by omega)
    have hdouble := (productOfCopies_add hx (e / 2) (e / 2)).symm
    simp only [matPowFuel, hhalf, hdouble]
    split_ifs with hzero heven
    · rw [hzero]
      rfl
    · rw [show e / 2 + e / 2 = e by omega]
    · exact congrArg (productOfCopies x) (show e / 2 + e / 2 + 1 = e by omega)

/-- The power is the product of as many copies, below the bound of log 13 (R192). -/
theorem matPow_eq_productOfCopies {e : Nat} (he : e < 2 ^ 64) : matPow x e = productOfCopies x e :=
  matPowFuel_eq_productOfCopies hx 64 he

/-- Applying `p` copies is `p` applications (R200). -/
theorem matApply_productOfCopies {n : Nat} (p : Nat) {v : Matrix} (hv : v.wf n) (hrow : v.rows = 1)
    (hfit : v.cols = x.cols) : matApply (productOfCopies x p) v = (matApply x)^[p] v := by
  induction p generalizing v with
  | zero =>
    have hident := matApply_matIdent hv hrow
    rwa [hfit, ← hx] at hident
  | succ p ih =>
    obtain ⟨hrows, hcols, hempty, -⟩ := hv
    have hstep : (matApply x v).wf n :=
      matrixOf_wf _ (hrow ▸ hrows) (by rwa [hx, ← hfit]) (by rwa [hx, ← hfit, ← hrow])
    calc matApply (matMul (productOfCopies x p) x) v
      _ = matApply (productOfCopies x p) (matApply x v) :=
        matApply_matMul v (by rw [productOfCopies_cols hx, hx])
      _ = (matApply x)^[p] (matApply x v) := ih hstep rfl hx

end

/-- One copy is the matrix itself. -/
theorem productOfCopies_one {n : Nat} {x : Matrix} (hx : x.wf n) : productOfCopies x 1 = x := matIdent_matMul hx

/-- The magnitude of an exponent is within the bound of log 13 (R198). -/
theorem exponentOf_natAbs_lt (b : Block) : (exponentOf b).natAbs < 2 ^ 64 := by
  have hlow := BitVec.le_toInt (laneQ b 0)
  have hhigh := BitVec.toInt_lt (x := laneQ b 0)
  rw [exponentOf]
  omega

/-! ## The checks of the operands -/

section
variable {s : State} {ra rb : MReg} {fit : Bool}

theorem operandFault_left_empty (ha : (s.getM ra).rows = 0) :
    operandFault s ra rb fit = some (.matrixEmpty, emptyInfo ra) :=
  if_pos ha

theorem operandFault_right_empty (ha : (s.getM ra).rows ≠ 0) (hb : (s.getM rb).rows = 0) :
    operandFault s ra rb fit = some (.matrixEmpty, emptyInfo rb) :=
  (if_neg ha).trans (if_pos hb)

theorem operandFault_unfit (ha : (s.getM ra).rows ≠ 0) (hb : (s.getM rb).rows ≠ 0) (hfit : fit = false) :
    operandFault s ra rb fit = some (.dimMismatch, 0) := by
  rw [operandFault, if_neg ha, if_neg hb, hfit]
  rfl

theorem operandFault_fit (ha : (s.getM ra).rows ≠ 0) (hb : (s.getM rb).rows ≠ 0) (hfit : fit = true) :
    operandFault s ra rb fit = none := by
  rw [operandFault, if_neg ha, if_neg hb, hfit]
  rfl

end

end Sys2Proof.Machine

namespace Sys2Proof.Safety

open Sys2Proof.Machine

variable {s : State}

/-! ## The laws of the algebra -/

/-- Settles O52: both laws of the product by exchanging the sums, those of the exponent by counting copies. -/
theorem powersAddAndMultiply : Obligations.PowersAddAndMultiply := by
  refine ⟨fun a b c hab _ => matMul_assoc c hab, fun a b v hab _ _ => matApply_matMul v hab,
    fun x p q hx hp hq => ⟨fun hsum => ?_, fun hprod => ?_⟩⟩
  · rw [matPow_eq_productOfCopies hx hsum, matPow_eq_productOfCopies hx hp, matPow_eq_productOfCopies hx hq]
    exact productOfCopies_add hx p q
  · have hsquare : (productOfCopies x p).rows = (productOfCopies x p).cols := by
      rw [productOfCopies_rows, productOfCopies_cols hx, hx]
    rw [matPow_eq_productOfCopies hx hprod, matPow_eq_productOfCopies hx hp, matPow_eq_productOfCopies hsquare hq]
    exact productOfCopies_mul hx p q

/-- Settles O51: the power is the product of `p` copies, applied one after the other. -/
theorem jumpAheadIsRepeatedSteps : Obligations.JumpAheadIsRepeatedSteps := by
  intro x v n p hp hx hrow hfit hv
  rw [matPow_eq_productOfCopies hx hp]
  exact matApply_productOfCopies hx p hv hrow hfit

/-! ## The commands -/

/-- A matrix result is what its register holds after the command. -/
theorem getM_setM_advance (rd : MReg) (x : Matrix) (s : State) : ((s.setM rd x).advance).getM rd = x :=
  getM_setM_same s rd x

section
variable (rd ra rb : MReg)

theorem exec_gmul_of_fit
    (h : operandFault s ra rb (decide ((s.getM ra).cols = (s.getM rb).rows)) = none) :
    exec (.gmul rd ra rb) s = .next (s.setM rd (matMul (s.getM ra) (s.getM rb))).advance := by
  rw [exec, execGmul, h]
  rfl

theorem exec_gmul_of_fault {c : Cause} {info : DWord}
    (h : operandFault s ra rb (decide ((s.getM ra).cols = (s.getM rb).rows)) = some (c, info)) :
    exec (.gmul rd ra rb) s = .next (s.takeFault c info) := by
  rw [exec, execGmul, h]
  rfl

theorem exec_gapply_of_fit
    (h : operandFault s ra rb (decide ((s.getM rb).rows = 1 ∧ (s.getM rb).cols = (s.getM ra).cols)) = none) :
    exec (.gapply rd ra rb) s = .next (s.setM rd (matApply (s.getM ra) (s.getM rb))).advance := by
  rw [exec, execGapply, h]
  rfl

theorem exec_gapply_of_fault {c : Cause} {info : DWord}
    (h : operandFault s ra rb (decide ((s.getM rb).rows = 1 ∧ (s.getM rb).cols = (s.getM ra).cols)) =
      some (c, info)) :
    exec (.gapply rd ra rb) s = .next (s.takeFault c info) := by
  rw [exec, execGapply, h]
  rfl

end

/-- Settles O46: the entries of the product, each sum by parity. -/
theorem gmulMultiplies : Obligations.GmulMultiplies := by
  intro rd ra rb s ha hb hfit
  refine ⟨_, exec_gmul_of_fit rd ra rb (operandFault_fit ha hb (decide_eq_true hfit)), ?_⟩
  rw [getM_setM_advance]
  refine ⟨writesMatrix_setM_advance .., rfl, rfl, fun r c hr hc => ?_⟩
  rw [matMul_bit, xorSum_eq_oddCount]
  simp [hr, hc]

/-- Settles O47: the entries of the vector, each sum by parity. -/
theorem gapplyApplies : Obligations.GapplyApplies := by
  intro rd ra rb s ha hrow hfit
  have hb : (s.getM rb).rows ≠ 0 := by simp [hrow]
  refine ⟨_, exec_gapply_of_fit rd ra rb (operandFault_fit ha hb (decide_eq_true ⟨hrow, hfit⟩)), ?_⟩
  rw [getM_setM_advance]
  refine ⟨writesMatrix_setM_advance .., rfl, rfl, fun r hr => ?_⟩
  rw [matApply_bit, xorSum_eq_oddCount]
  simp [hr]

section
variable {ra rb src : MReg} {rc : VReg} (rd : MReg)
  (hsrc : src = if 0 ≤ (laneQ (s.getV rc) 0).toInt then ra else rb)
include hsrc

theorem exec_gpow_of_square (hrows : (s.getM src).rows ≠ 0) (hsquare : (s.getM src).rows = (s.getM src).cols) :
    exec (.gpow rd ra rb rc) s =
      .next (s.setM rd (matPow (s.getM src) (exponentOf (s.getV rc)).natAbs)).advance := by
  obtain rfl : src = powSource (exponentOf (s.getV rc)) ra rb := hsrc
  exact (if_neg hrows).trans (if_neg (not_not.2 hsquare))

theorem exec_gpow_of_empty (hrows : (s.getM src).rows = 0) :
    exec (.gpow rd ra rb rc) s = .next (s.takeFault .matrixEmpty (emptyInfo src)) := by
  obtain rfl : src = powSource (exponentOf (s.getV rc)) ra rb := hsrc
  exact if_pos hrows

theorem exec_gpow_of_not_square (hrows : (s.getM src).rows ≠ 0)
    (hsquare : (s.getM src).rows ≠ (s.getM src).cols) :
    exec (.gpow rd ra rb rc) s = .next (s.takeFault .dimMismatch 0) := by
  obtain rfl : src = powSource (exponentOf (s.getV rc)) ra rb := hsrc
  exact (if_neg hrows).trans (if_pos hsquare)

end

/-- Settles O48: the power is the product of `|p|` copies, of none for `p = 0` and of one for `p = 1` and `p = -1`. -/
theorem gpowIsRepeatedProduct : Obligations.GpowIsRepeatedProduct := by
  intro rd ra rb src rc s p hp hsrc hrows hsquare
  subst hp
  refine ⟨_, exec_gpow_of_square rd hsrc hrows hsquare, ?_⟩
  rw [getM_setM_advance, matPow_eq_productOfCopies hsquare (exponentOf_natAbs_lt _)]
  refine ⟨writesMatrix_setM_advance .., fun hzero => ?_, fun hwf hunit => ?_⟩
  · obtain rfl : src = ra := by simpa [hzero] using hsrc
    rw [exponentOf, hzero]
    rfl
  · have hone : (exponentOf (s.getV rc)).natAbs = 1 := Int.natAbs_eq_iff.2 hunit
    rw [hone]
    exact productOfCopies_one hwf

theorem exec_gdim (rd : VReg) (ra : MReg) (s : State) :
    exec (.gdim rd ra) s = .next (s.setV rd (pack 128 [(s.getM ra).rows, (s.getM ra).cols, 0, 0])).advance := rfl

/-- Settles O49: the four lanes of a block packed from four words. -/
theorem gdimReadsShape : Obligations.GdimReadsShape := by
  intro rd ra s
  refine ⟨_, exec_gdim rd ra s, ?_⟩
  rw [getV_setV_advance]
  refine ⟨writesBlock_setV_advance .., ?_, ?_, ?_, ?_⟩ <;> exact laneD_pack _ _ (by decide) (by simp)

/-! ## Faults -/

/-- Where a command with two operands faults, if the checks of its operands decide between fault and result: `ma` before
`mb` before the shapes (R274). -/
theorem operands_faults {ra rb : MReg} {fit : Bool} {i : Instr} {t : State}
    (hfault : ∀ {c info}, operandFault s ra rb fit = some (c, info) → exec i s = .next (s.takeFault c info))
    (hnone : operandFault s ra rb fit = none → exec i s = .next t) :
    ∃ u, exec i s = .next u ∧
      ((s.getM ra).rows = 0 → TakesFault .matrixEmpty (emptyInfo ra) s u) ∧
      ((s.getM ra).rows ≠ 0 → (s.getM rb).rows = 0 → TakesFault .matrixEmpty (emptyInfo rb) s u) ∧
      ((s.getM ra).rows ≠ 0 → (s.getM rb).rows ≠ 0 → fit = false → TakesFault .dimMismatch 0 s u) := by
  by_cases ha : (s.getM ra).rows = 0
  · exact ⟨_, hfault (operandFault_left_empty ha), fun _ => takesFault_takeFault .., fun h => absurd ha h,
      fun h => absurd ha h⟩
  by_cases hb : (s.getM rb).rows = 0
  · exact ⟨_, hfault (operandFault_right_empty ha hb), fun h => absurd h ha, fun _ _ => takesFault_takeFault ..,
      fun _ h => absurd hb h⟩
  cases hfit : fit with
  | false =>
    exact ⟨_, hfault (operandFault_unfit ha hb hfit), fun h => absurd h ha, fun _ h => absurd h hb,
      fun _ _ _ => takesFault_takeFault ..⟩
  | true =>
    exact ⟨_, hnone (operandFault_fit ha hb hfit), fun h => absurd h ha, fun _ h => absurd h hb, nofun⟩

/-- Where `GPOW` faults: the selected source empty, then not square (R199, R274). -/
theorem gpow_faults {ra rb src : MReg} {rc : VReg} (rd : MReg)
    (hsrc : src = if 0 ≤ (laneQ (s.getV rc) 0).toInt then ra else rb) :
    ∃ t, exec (.gpow rd ra rb rc) s = .next t ∧
      ((s.getM src).rows = 0 → TakesFault .matrixEmpty (emptyInfo src) s t) ∧
      ((s.getM src).rows ≠ 0 → (s.getM src).rows ≠ (s.getM src).cols → TakesFault .dimMismatch 0 s t) := by
  by_cases hrows : (s.getM src).rows = 0
  · exact ⟨_, exec_gpow_of_empty rd hsrc hrows, fun _ => takesFault_takeFault .., fun h => absurd hrows h⟩
  by_cases hsquare : (s.getM src).rows = (s.getM src).cols
  · exact ⟨_, exec_gpow_of_square rd hsrc hrows hsquare, fun h => absurd h hrows, fun _ h => absurd hsquare h⟩
  · exact ⟨_, exec_gpow_of_not_square rd hsrc hrows hsquare, fun h => absurd h hrows,
      fun _ _ => takesFault_takeFault ..⟩

/-- Settles O50: `GMUL` and `GAPPLY` by the shared checks of two operands, `GPOW` by those of its source. -/
theorem matrixUnitFaults : Obligations.MatrixUnitFaults := by
  refine ⟨fun rd ra rb s => ?_, fun rd ra rb src rc s hsrc => gpow_faults rd hsrc⟩
  obtain ⟨t, hmul, hleftMul, hrightMul, hunfitMul⟩ :=
    operands_faults (exec_gmul_of_fault rd ra rb) (exec_gmul_of_fit (s := s) rd ra rb)
  obtain ⟨u, happly, hleftApply, hrightApply, hunfitApply⟩ :=
    operands_faults (exec_gapply_of_fault rd ra rb) (exec_gapply_of_fit (s := s) rd ra rb)
  refine ⟨t, u, hmul, happly, fun ha => ⟨hleftMul ha, hleftApply ha⟩,
    fun ha hb => ⟨hrightMul ha hb, hrightApply ha hb⟩,
    fun ha hb hshape => hunfitMul ha hb (decide_eq_false hshape), fun ha hb hshape => ?_⟩
  exact hunfitApply ha hb (decide_eq_false fun ⟨hrow, hcols⟩ => hshape.elim (· hrow) (· hcols))

end Sys2Proof.Safety
end

-- The system commands, and where block accesses fault.
section
/-!
PROOFS. The system commands, each by the equation that says what it comes to (44_memory_system.md R240 to R244), and the
faults of a block access, said once for loads and stores (R246).
-/

namespace Sys2Proof.Machine

/-! ## Flags in a block -/

/-- Flag `k` of a value packed from flags. -/
theorem pack_ofBool_getLsbD {n : Nat} (flags : List Bool) {k : Nat} (hn : k < n) (hk : k < flags.length) :
    (pack n (flags.map BitVec.ofBool)).getLsbD k = flags[k] := by
  have h := pack_getLsbD (n := n) (flags.map BitVec.ofBool) k 0 (by omega) (by omega) (by simpa using hk)
  rw [List.getElem_map] at h
  simpa using h

theorem flagsBlock_eq (s : State) : flagsBlock s = pack 128 ([s.hw, s.cfg.hwcap, s.ksv].map BitVec.ofBool) := rfl

/-- Bits 0, 1 and 2 of what `GETST` reads (R244). -/
theorem flagsBlock_getLsbD (s : State) {k : Nat} (hk : k < 3) :
    (flagsBlock s).getLsbD k = [s.hw, s.cfg.hwcap, s.ksv][k] := by
  rw [flagsBlock_eq]
  exact pack_ofBool_getLsbD _ (by omega) hk

/-- The other bits of what `GETST` reads are 0 (R244). -/
theorem flagsBlock_unused (s : State) {j : Nat} (hj : 3 ≤ j) : (flagsBlock s).getLsbD j = false :=
  pack_getLsbD_of_ge _ (by simpa using hj)

end Sys2Proof.Machine

namespace Sys2Proof.Safety

open Sys2Proof.Machine

variable {s : State}

/-! ## The system commands -/

theorem exec_nop (s : State) : exec .nop s = .next s.advance := rfl

/-- `SETHW` completes where the mode asked for is software, or the instance has the hardware path (R243). -/
theorem exec_sethw_of_capable (rd : VReg) {mode : Bool} (h : mode = true → s.cfg.hwcap = true) :
    exec (.sethw rd mode) s = .next ((s.setV rd ((BitVec.ofBool s.hw).setWidth 128)).setHw mode).advance := by
  have hcheck : ¬(mode && !s.cfg.hwcap) = true := by simpa using h
  exact if_neg hcheck

/-- Asking for a hardware path that the instance lacks faults (R243, R265). -/
theorem exec_sethw_of_incapable (rd : VReg) (h : s.cfg.hwcap = false) :
    exec (.sethw rd true) s = .next (s.takeFault .configurationError 0) := by
  have hcheck : (true && !s.cfg.hwcap) = true := by simpa using h
  exact if_pos hcheck

theorem exec_getst (rd : VReg) (s : State) : exec (.getst rd) s = .next (s.setV rd (flagsBlock s)).advance := rfl

theorem keepsData_advance (s : State) : KeepsData s s.advance :=
  ⟨fun _ => rfl, fun _ => rfl, ⟨rfl, rfl, rfl⟩, rfl, fun _ => rfl, rfl, rfl⟩

theorem keepsData_halt (s : State) : KeepsData s s.halt :=
  ⟨fun _ => rfl, fun _ => rfl, ⟨rfl, rfl, rfl⟩, rfl, fun _ => rfl, rfl, rfl⟩

/-- A halted sequencer raises `done` (R276). -/
theorem doneOutput_halt (s : State) : doneOutput s.halt = true := by simp [doneOutput, State.halt]

/-- Settles O26: the two next states are `s.advance` and `s.halt`. -/
theorem nopAndHalt : Obligations.NopAndHalt := fun s =>
  ⟨⟨_, exec_nop s, rfl, keepsData_advance s, rfl, rfl, rfl, rfl⟩,
    ⟨_, exec_halt s, rfl, rfl, keepsData_halt s, rfl, rfl, rfl, doneOutput_halt s⟩⟩

/-- Settles O27: on the instance's capability and the mode asked for. `SETHW` writes a block register as a block result
does, and the mode on top of it. -/
theorem sethwSetsTheMode : Obligations.SethwSetsTheMode := by
  refine ⟨fun rd mode s hcap => ?completes, fun rd s hcap => ?faults⟩
  case completes =>
    obtain ⟨hv, hcp, hblocks, hmatrices, hkeys, -, hmemory, hrun, hinstance⟩ :=
      writesBlock_setV_advance rd ((BitVec.ofBool s.hw).setWidth 128) s
    exact ⟨_, exec_sethw_of_capable rd hcap, hv, rfl, hcp, hblocks, hmatrices, hkeys, hmemory, hrun, hinstance⟩
  case faults =>
    exact ⟨_, exec_sethw_of_incapable rd hcap, takesFault_takeFault .., rfl⟩

/-- Settles O28: the block written is packed from the three flags. -/
theorem getstReadsTheFlags : Obligations.GetstReadsTheFlags := by
  intro rd s
  refine ⟨_, exec_getst rd s, ?_⟩
  rw [getV_setV_advance]
  exact ⟨writesBlock_setV_advance .., flagsBlock_getLsbD s (k := 0) (by omega),
    flagsBlock_getLsbD s (k := 1) (by omega), flagsBlock_getLsbD s (k := 2) (by omega),
    fun _ => flagsBlock_unused s⟩

/-! ## Faults of block accesses -/

/-- Where a block access faults, if it takes the fault that its checks report and else completes: alignment before
range (R246). -/
theorem blockAccess_faults {ea : DWord} {access : Host.Outcome State Fault Refusal} {t : State}
    (hcases : (∃ c, blockFault s ea = some c ∧ access = .next (s.takeFault c ea)) ∨
      (blockFault s ea = none ∧ access = .next t)) :
    ∃ u, access = .next u ∧ (ea.toNat % 16 ≠ 0 → TakesFault .misaligned ea s u) ∧
      (ea.toNat % 16 = 0 → s.cfg.memsize < ea.toNat + 16 → TakesFault .memAccess ea s u) := by
  rcases hcases with ⟨c, hfault, hnext⟩ | ⟨hnone, hnext⟩
  · rcases blockFault_some.1 hfault with ⟨halign, rfl⟩ | ⟨halign, -, rfl⟩
    · exact ⟨_, hnext, fun _ => takesFault_takeFault .., fun h => absurd h halign⟩
    · exact ⟨_, hnext, fun h => absurd halign h, fun _ _ => takesFault_takeFault ..⟩
  · obtain ⟨halign, hrange⟩ := blockFault_none.1 hnone
    exact ⟨_, hnext, fun h => absurd halign h, fun _ h => absurd hrange (Nat.not_le.2 h)⟩

/-- Settles O56: loads and stores by the shared checks, at an address that an absolute form never misaligns. -/
theorem blockAccessFaults : Obligations.BlockAccessFaults := by
  refine ⟨fun rd imm20 s hrange => ?absolute, fun rd ra imm12 s ea hea => ?indexed⟩
  case absolute =>
    have halign := absoluteEA_aligned imm20
    rw [← absoluteEA_toNat] at hrange
    rw [exec_ldb, exec_stb]
    obtain ⟨t, hload, -, hloadRange⟩ := blockAccess_faults (loadBlock_cases rd (absoluteEA imm20) s)
    obtain ⟨u, hstore, -, hstoreRange⟩ := blockAccess_faults (storeBlock_cases rd (absoluteEA imm20) s)
    exact ⟨t, u, hload, hstore, hloadRange halign hrange, hstoreRange halign hrange⟩
  case indexed =>
    subst hea
    rw [exec_ldbx, exec_stbx]
    obtain ⟨t, hload, hloadAlign, hloadRange⟩ :=
      blockAccess_faults (loadBlock_cases rd (indexedEA (s.getV ra) imm12) s)
    obtain ⟨u, hstore, hstoreAlign, hstoreRange⟩ :=
      blockAccess_faults (storeBlock_cases rd (indexedEA (s.getV ra) imm12) s)
    exact ⟨t, u, hload, hstore, fun halign => ⟨hloadAlign halign, hstoreAlign halign⟩,
      fun halign hrange => ⟨hloadRange halign hrange, hstoreRange halign hrange⟩⟩

end Sys2Proof.Safety
end

-- Which fault a command and a step take, and the restarts after one.
section
/-!
PROOFS. The checks of a command and of a fetch as functions of the state, `commandFault` and `stepFault`: an answer
takes the fault they report, and else raises none. They read none of `STATE`, `CAUSE`, `FCP` and `FINFO`, so a retry
takes the same fault again (60_exceptions.md R262 to R266, R274, R278).
-/

namespace Sys2Proof.Safety

open Sys2Proof.Machine

/-! ## An answer by its checks -/

/-- What an answer from `s` is, given what its checks report: the fault taken, or a state with no new fault. -/
inductive FaultsOrCompletes (s : State) :
    Option (Cause × DWord) → Host.Outcome State Fault Refusal → Prop where
  /-- The checks report a fault (R262). -/
  | faults (c : Cause) (info : DWord) : FaultsOrCompletes s (some (c, info)) (.next (s.takeFault c info))
  /-- The checks pass: `CAUSE` stays, and `FAULTED` is not entered. -/
  | completes {t : State} (hcause : t.cause = s.cause) (hst : t.st = .faulted → s.st = .faulted) :
      FaultsOrCompletes s none (.next t)

section
variable {s t : State} {fault : Option (Cause × DWord)} {answer : Host.Outcome State Fault Refusal}

theorem FaultsOrCompletes.eq_takeFault {c : Cause} {info : DWord} (h : FaultsOrCompletes s fault answer)
    (hfault : fault = some (c, info)) : answer = .next (s.takeFault c info) := by
  subst hfault
  cases h
  rfl

theorem FaultsOrCompletes.cases_next (h : FaultsOrCompletes s fault (.next t)) :
    (∃ c info, fault = some (c, info) ∧ t = s.takeFault c info) ∨
      (t.cause = s.cause ∧ (t.st = .faulted → s.st = .faulted)) := by
  cases h with
  | faults c info => exact .inl ⟨c, info, rfl, rfl⟩
  | completes hcause hst => exact .inr ⟨hcause, hst⟩

/-- A check that comes before the others (R274). -/
theorem FaultsOrCompletes.check_first {p : Prop} [Decidable p] (c : Cause) (info : DWord)
    (h : FaultsOrCompletes s fault answer) :
    FaultsOrCompletes s (if p then some (c, info) else fault) (if p then raise c info s else answer) := by
  split
  · exact .faults c info
  · exact h

/-- An answer that the checks decide: their fault taken, or a result with `STATE` and `CAUSE` kept and `cp` advanced. -/
theorem FaultsOrCompletes.of_checks
    (hfault : ∀ {c info}, fault = some (c, info) → answer = .next (s.takeFault c info))
    (hnone : fault = none → answer = .next t.advance) (hcause : t.cause = s.cause) (hst : t.st = s.st) :
    FaultsOrCompletes s fault answer := by
  cases fault with
  | some p =>
    rw [hfault rfl]
    exact .faults p.1 p.2
  | none =>
    rw [hnone rfl]
    exact .completes hcause hst.symm.trans

/-- Checks of an address: `FINFO` is the address (R261). -/
theorem FaultsOrCompletes.of_address_cases {check : Option Cause} {ea : DWord}
    (hcases : (∃ c, check = some c ∧ answer = .next (s.takeFault c ea)) ∨ (check = none ∧ answer = .next t.advance))
    (hcause : t.cause = s.cause) (hst : t.st = s.st) :
    FaultsOrCompletes s (check.map (·, ea)) answer := by
  rcases hcases with ⟨c, rfl, rfl⟩ | ⟨rfl, rfl⟩
  · exact .faults c ea
  · exact .completes hcause hst.symm.trans

end

/-! ## The checks of the commands -/

/-- The check of a command that needs the key schedule (R266). -/
def scheduleFault (s : State) : Option (Cause × DWord) :=
  if s.ksv then none else some (.keyScheduleInvalid, 0)

/-- The checks of `GPOW`, made on the source it selects (R199). -/
def powFault (s : State) (src : MReg) : Option (Cause × DWord) :=
  if (s.getM src).rows = 0 then some (.matrixEmpty, emptyInfo src)
  else if (s.getM src).rows ≠ (s.getM src).cols then some (.dimMismatch, 0)
  else none

/-- The fault that a command takes, if any, and its `FINFO` (R261, R274). -/
def commandFault (i : Instr) (s : State) : Option (Cause × DWord) :=
  match i with
  | .sethw _ mode => if mode && !s.cfg.hwcap then some (.configurationError, 0) else none
  | .aesgen _ _ => scheduleFault s
  | .getrk rd k =>
    if k.toNat ≤ 10 then scheduleFault s else some (.illegalCommand, (encode (.getrk rd k)).setWidth 64)
  | .arsgen rd ra r => if r = 0 then some (.illegalCommand, (encode (.arsgen rd ra r)).setWidth 64) else none
  | .gmul _ ra rb => operandFault s ra rb (decide ((s.getM ra).cols = (s.getM rb).rows))
  | .gapply _ ra rb =>
    operandFault s ra rb (decide ((s.getM rb).rows = 1 ∧ (s.getM rb).cols = (s.getM ra).cols))
  | .gpow _ ra rb rc => powFault s (powSource (exponentOf (s.getV rc)) ra rb)
  | .ldb _ imm20 | .stb _ imm20 => (blockFault s (absoluteEA imm20)).map (·, absoluteEA imm20)
  | .ldbx _ ra imm12 | .stbx _ ra imm12 =>
    (blockFault s (indexedEA (s.getV ra) imm12)).map (·, indexedEA (s.getV ra) imm12)
  | .gld _ imm20 => (matrixLoadFault s (absoluteEA imm20)).map (·, absoluteEA imm20)
  | .gldx _ ra imm12 => (matrixLoadFault s (indexedEA (s.getV ra) imm12)).map (·, indexedEA (s.getV ra) imm12)
  | .gst rd imm20 => matrixStoreFault s rd (absoluteEA imm20)
  | .gstx rd ra imm12 => matrixStoreFault s rd (indexedEA (s.getV ra) imm12)
  | _ => none

section
variable (s : State)

theorem withSchedule_faultsOrCompletes (rd : VReg) (x : Block) :
    FaultsOrCompletes s (scheduleFault s) (withSchedule rd x s) := by
  rw [scheduleFault, withSchedule]
  split
  · exact .completes rfl id
  · exact .faults _ _

theorem execGetrk_faultsOrCompletes (rd : VReg) (k : BitVec 4) :
    FaultsOrCompletes s (commandFault (.getrk rd k) s) (execGetrk rd k s) := by
  rw [commandFault, execGetrk]
  split
  · exact withSchedule_faultsOrCompletes s rd _
  · exact .faults _ _

theorem loadBlock_faultsOrCompletes (rd : VReg) (ea : DWord) :
    FaultsOrCompletes s ((blockFault s ea).map (·, ea)) (loadBlock rd ea s) :=
  .of_address_cases (loadBlock_cases rd ea s) rfl rfl

theorem storeBlock_faultsOrCompletes (rd : VReg) (ea : DWord) :
    FaultsOrCompletes s ((blockFault s ea).map (·, ea)) (storeBlock rd ea s) :=
  .of_address_cases (storeBlock_cases rd ea s) (setDm_cause ..) (setDm_st ..)

theorem loadMatrix_faultsOrCompletes (rd : MReg) (ea : DWord) :
    FaultsOrCompletes s ((matrixLoadFault s ea).map (·, ea)) (loadMatrix rd ea s) :=
  .of_address_cases (loadMatrix_cases rd ea s) rfl rfl

theorem storeMatrix_faultsOrCompletes (rd : MReg) (ea : DWord) :
    FaultsOrCompletes s (matrixStoreFault s rd ea) (storeMatrix rd ea s) := by
  rcases storeMatrix_cases rd ea s with ⟨c, info, hfault, hnext⟩ | ⟨hnone, hnext⟩
  · rw [hfault, hnext]
    exact .faults c info
  · rw [hnone, hnext]
    exact .completes rfl id

/-- `commandFault` says which fault each command takes. -/
theorem exec_faultsOrCompletes (i : Instr) : FaultsOrCompletes s (commandFault i s) (exec i s) := by
  cases i with
  | halt => exact .completes rfl nofun
  | sethw rd mode => exact .check_first _ _ (.completes rfl id)
  | aesgen rd ra => exact withSchedule_faultsOrCompletes s rd _
  | getrk rd k => exact execGetrk_faultsOrCompletes s rd k
  | arsgen rd ra r => exact .check_first _ _ (.completes rfl id)
  | gmul rd ra rb => exact .of_checks (exec_gmul_of_fault rd ra rb) (exec_gmul_of_fit rd ra rb) rfl rfl
  | gapply rd ra rb => exact .of_checks (exec_gapply_of_fault rd ra rb) (exec_gapply_of_fit rd ra rb) rfl rfl
  | gpow rd ra rb rc => exact .check_first _ _ (.check_first _ _ (.completes rfl id))
  | ldb | ldbx => exact loadBlock_faultsOrCompletes s _ _
  | stb | stbx => exact storeBlock_faultsOrCompletes s _ _
  | gld | gldx => exact loadMatrix_faultsOrCompletes s _ _
  | gst | gstx => exact storeMatrix_faultsOrCompletes s _ _
  | _ => exact .completes rfl id

/-! ## The checks of a step -/

/-- The fault that a fetched word takes: `IllegalCommand`, or that of the command it decodes to (R263, R274). -/
def wordFault (w : Word) : Option (Cause × DWord) :=
  match decode w with
  | .ok i => commandFault i s
  | .error _ => some (.illegalCommand, w.setWidth 64)

/-- The fault that a step of a running sequencer takes: `CommandFetch`, or that of the word fetched (R264, R274). -/
def stepFault : Option (Cause × DWord) :=
  match fetchWord s with
  | some w => wordFault s w
  | none => some (.commandFetch, s.cp.setWidth 64)

theorem executeWord_faultsOrCompletes (w : Word) : FaultsOrCompletes s (wordFault s w) (executeWord w s) := by
  rw [wordFault, executeWord]
  cases decode w with
  | ok i => exact exec_faultsOrCompletes s i
  | error e => exact .faults _ _

/-- `stepFault` says which fault a command of a running sequencer takes. -/
theorem runCommand_faultsOrCompletes : FaultsOrCompletes s (stepFault s) (runCommand s) := by
  rw [stepFault, runCommand]
  cases fetchWord s with
  | some w => exact executeWord_faultsOrCompletes s w
  | none => exact .faults _ _

end

section
variable {s t : State}

theorem step_eq_runCommand (hs : s.st = .run) : step s = runCommand s := by
  rw [step, hs]

theorem stepFault_illegalWord {e : DecodeError} (hcp : s.cp.toNat < s.cfg.cmsize)
    (he : decode (s.cm.read s.cp.toNat) = .error e) :
    stepFault s = some (.illegalCommand, (s.cm.read s.cp.toNat).setWidth 64) := by
  simp only [stepFault, fetchWord, if_pos hcp, wordFault, he]

theorem stepFault_fetchPastEnd (hcp : s.cfg.cmsize ≤ s.cp.toNat) :
    stepFault s = some (.commandFetch, s.cp.setWidth 64) := by
  simp only [stepFault, fetchWord, if_neg (Nat.not_lt.2 hcp)]

/-- A step takes the fault that its checks report. -/
theorem step_of_stepFault {c : Cause} {info : DWord} (hs : s.st = .run) (h : stepFault s = some (c, info)) :
    step s = .next (s.takeFault c info) :=
  (step_eq_runCommand hs).trans ((runCommand_faultsOrCompletes s).eq_takeFault h)

/-- A step that ends in `FAULTED` took the fault that its checks report. -/
theorem stepFault_of_faulted (hs : s.st = .run) (h : step s = .next t) (ht : t.st = .faulted) :
    ∃ c info, stepFault s = some (c, info) ∧ t = s.takeFault c info := by
  have hrun := runCommand_faultsOrCompletes s
  rw [← step_eq_runCommand hs, h] at hrun
  rcases hrun.cases_next with hfault | ⟨-, hst⟩
  · exact hfault
  · exact absurd (hs.symm.trans (hst ht)) (by decide)

/-- Settles O10: only a fault taken leads to `FAULTED`. -/
theorem faultsArePrecise : Obligations.FaultsArePrecise := by
  intro s t hs h ht
  obtain ⟨c, info, -, rfl⟩ := stepFault_of_faulted hs h ht
  exact ⟨c, info, takesFault_takeFault s c info, rfl⟩

/-- Settles O6: the checks report the word that does not decode. -/
theorem illegalWordFaults : Obligations.IllegalWordFaults := fun s _ hs hcp he =>
  ⟨_, step_of_stepFault hs (stepFault_illegalWord hcp he), takesFault_takeFault s _ _, rfl⟩

/-- Settles O7: the checks report the fetch, and `cp` fits `FINFO`. -/
theorem fetchPastEndFaults : Obligations.FetchPastEndFaults := by
  intro s hs hcp
  have hinfo : (s.cp.setWidth 64).toNat = s.cp.toNat := BitVec.toNat_setWidth_of_le (by decide)
  exact ⟨_, step_of_stepFault hs (stepFault_fetchPastEnd hcp), takesFault_takeFault s _ _, hinfo, rfl⟩

/-- Settles O8, by the law that a step without `STATE = RUN` leaves the state as it is. -/
theorem stoppedSequencerDoesNothing : Obligations.StoppedSequencerDoesNothing :=
  fun _ => step_stopped

/-! ## The fault of an invalid key schedule -/

theorem scheduleFault_of_invalid (h : s.ksv = false) : scheduleFault s = some (.keyScheduleInvalid, 0) := by
  simp [scheduleFault, h]

theorem scheduleFault_eq_some {p : Cause × DWord} (h : scheduleFault s = some p) : s.ksv = false := by
  simpa [scheduleFault] using (Option.ite_none_left_eq_some.1 h).1

theorem operandFault_ne_scheduleInvalid (ra rb : MReg) (fit : Bool) (info : DWord) :
    operandFault s ra rb fit ≠ some (.keyScheduleInvalid, info) := by
  unfold operandFault
  split_ifs <;> simp

theorem powFault_ne_scheduleInvalid (src : MReg) (info : DWord) :
    powFault s src ≠ some (.keyScheduleInvalid, info) := by
  unfold powFault
  split_ifs <;> simp

theorem blockFault_ne_scheduleInvalid (ea info : DWord) :
    (blockFault s ea).map (·, ea) ≠ some (.keyScheduleInvalid, info) := by
  simp [blockFault_some]

theorem matrixLoadFault_ne_scheduleInvalid (ea info : DWord) :
    (matrixLoadFault s ea).map (·, ea) ≠ some (.keyScheduleInvalid, info) := by
  simp [matrixLoadFault_some]

theorem matrixStoreFault_ne_scheduleInvalid (rd : MReg) (ea info : DWord) :
    matrixStoreFault s rd ea ≠ some (.keyScheduleInvalid, info) := by
  simp [matrixStoreFault_some]

/-- The checks of `AESGEN` and `GETRK` alone report an invalid key schedule, while `KSV = 0` (R266). -/
theorem commandFault_scheduleInvalid {i : Instr} {info : DWord}
    (h : commandFault i s = some (.keyScheduleInvalid, info)) :
    s.ksv = false ∧ ((∃ rd ra, i = .aesgen rd ra) ∨ ∃ rd k, i = .getrk rd k) := by
  cases i with
  | aesgen rd ra => exact ⟨scheduleFault_eq_some h, .inl ⟨rd, ra, rfl⟩⟩
  | getrk rd k =>
    rw [commandFault] at h
    split at h
    · exact ⟨scheduleFault_eq_some h, .inr ⟨rd, k, rfl⟩⟩
    · cases h
  | sethw | arsgen =>
    rw [commandFault] at h
    split at h <;> cases h
  | gmul | gapply => exact absurd h (operandFault_ne_scheduleInvalid _ _ _ info)
  | gpow => exact absurd h (powFault_ne_scheduleInvalid _ info)
  | ldb | ldbx | stb | stbx => exact absurd h (blockFault_ne_scheduleInvalid _ info)
  | gld | gldx => exact absurd h (matrixLoadFault_ne_scheduleInvalid _ info)
  | gst | gstx => exact absurd h (matrixStoreFault_ne_scheduleInvalid _ _ info)
  | _ => cases h

/-- Settles O42: what the two commands need of `KSV`, and a new cause is one that the command's checks report. -/
theorem keyScheduleInvalidFaults : Obligations.KeyScheduleInvalidFaults := by
  refine ⟨fun rd ra s hksv => ?aesgen, fun rd k s hk hksv => ?getrk, fun i s t hcause h ht => ?only⟩
  case aesgen =>
    exact ⟨_, (exec_faultsOrCompletes s (.aesgen rd ra)).eq_takeFault (scheduleFault_of_invalid hksv),
      takesFault_takeFault s _ _, rfl⟩
  case getrk =>
    have hfault : commandFault (.getrk rd k) s = some (.keyScheduleInvalid, 0) :=
      (if_pos hk).trans (scheduleFault_of_invalid hksv)
    exact ⟨_, (exec_faultsOrCompletes s (.getrk rd k)).eq_takeFault hfault, takesFault_takeFault s _ _, rfl⟩
  case only =>
    have hexec := exec_faultsOrCompletes s i
    rw [h] at hexec
    rcases hexec.cases_next with ⟨c, info, hfault, rfl⟩ | ⟨hkept, -⟩
    · obtain rfl : c = .keyScheduleInvalid := Option.some.inj ht
      exact commandFault_scheduleInvalid hfault
    · exact absurd (hkept.symm.trans ht) hcause

/-! ## Starting the sequencer again -/

theorem keepsData_started (s : State) : KeepsData s s.started :=
  ⟨fun _ => rfl, fun _ => rfl, ⟨rfl, rfl, rfl⟩, rfl, fun _ => rfl, rfl, rfl⟩

theorem keepsData_trans {u : State} (hst : KeepsData s t) (htu : KeepsData t u) : KeepsData s u := by
  obtain ⟨hv, hm, ⟨hkey, hrk, hksv⟩, hhw, hdm, hcfg, hcm⟩ := hst
  obtain ⟨hv', hm', ⟨hkey', hrk', hksv'⟩, hhw', hdm', hcfg', hcm'⟩ := htu
  exact ⟨fun r => (hv' r).trans (hv r), fun j => (hm' j).trans (hm j),
    ⟨hkey'.trans hkey, hrk'.trans hrk, hksv'.trans hksv⟩, hhw'.trans hhw, fun a => (hdm' a).trans (hdm a),
    hcfg'.trans hcfg, hcm'.trans hcm⟩

/-- `START` on a stopped sequencer (R283). -/
theorem hostAct_startAction_stopped (hs : s.st ≠ .run) : hostAct startAction s = .next s.started := by
  rw [startAction, hostAct_writeCtrl]
  simp [writeCtrl, hs]

/-- Settles O22: `s.started` is the state that `START` leads to, and it runs. -/
theorem hostStart : Obligations.HostStart := fun s hs =>
  ⟨s.started, hostAct_startAction_stopped hs, rfl, rfl, rfl, rfl, rfl, keepsData_started s, rfl, rfl,
    step_eq_runCommand rfl⟩

theorem hostActs_nil (s : State) : hostActs [] s = .next s := rfl

theorem hostActs_cons {a : HostAction} {actions : List HostAction} (h : hostAct a s = .next t) :
    hostActs (a :: actions) s = hostActs actions t := by
  rw [hostActs, h]

theorem hostActs_retryActions (hs : s.st ≠ .run) : hostActs retryActions s = .next s.started := by
  rw [retryActions, hostActs_cons (hostAct_startAction_stopped hs), hostActs_nil]

/-- A stopped sequencer set to go on at any command (R278). -/
theorem hostActs_abandonActions (hs : s.st ≠ .run) (w : Word) :
    ∃ u, hostActs (abandonActions w) s = .next u ∧ u.st = .run ∧ KeepsData s u ∧ u.cp = w := by
  obtain ⟨t, hwrite, hcp, hdata, hst, -⟩ := cpAction_stopped hs w
  refine ⟨t.started, ?_, rfl, keepsData_trans hdata (keepsData_started t), hcp⟩
  rw [abandonActions, hostActs_cons hwrite, hostActs_cons (hostAct_startAction_stopped (hst ▸ hs)), hostActs_nil]

/-- A skip abandons the program for the command after the one that faulted (R278). -/
theorem skipActions_eq (s : State) : skipActions s = abandonActions (s.fcp + 1) := rfl

/-! ## A fault taken again -/

section
variable (c : Cause) (info : DWord)

/-- The state in which a command that faulted is fetched again: as before but for `CAUSE`, `FCP` and `FINFO` (R278). -/
def retried (s : State) : State := (s.takeFault c info).started

/-- No check of a command reads a register that taking a fault or `START` writes. -/
theorem commandFault_retried (i : Instr) (s : State) : commandFault i (retried c info s) = commandFault i s := by
  cases i <;> rfl

theorem wordFault_retried (s : State) (w : Word) : wordFault (retried c info s) w = wordFault s w := by
  simp only [wordFault, commandFault_retried]

/-- The word fetched again is the same, so the step takes the same fault. -/
theorem stepFault_retried (s : State) : stepFault (retried c info s) = stepFault s := by
  have hfetch : fetchWord (retried c info s) = fetchWord s := rfl
  have hcp : (retried c info s).cp = s.cp := rfl
  simp only [stepFault, hfetch, hcp, wordFault_retried]

theorem takeFault_retried (s : State) : (retried c info s).takeFault c info = s.takeFault c info := rfl

/-- A retry takes the same fault, to the very same state (R278). -/
theorem step_retried {c : Cause} {info : DWord} (h : stepFault s = some (c, info)) :
    step (retried c info s) = .next (s.takeFault c info) := by
  rw [← takeFault_retried]
  exact step_of_stepFault rfl ((stepFault_retried c info s).trans h)

end

/-- Settles O25: the fault leaves all that the checks read, and the host's `CP` and `START` leave all the data. -/
theorem restartsAfterAFault : Obligations.RestartsAfterAFault := by
  intro s t hs h ht
  obtain ⟨c, info, hfault, rfl⟩ := stepFault_of_faulted hs h ht
  have hstopped : (s.takeFault c info).st ≠ .run := by simp
  have hdata := keepsData_takeFault s c info
  have habandon : ∀ w, ∃ u, hostActs (abandonActions w) (s.takeFault c info) = .next u ∧ u.st = .run ∧
      KeepsData s u ∧ u.cp = w := fun w => by
    obtain ⟨u, hacts, hrun, hkeeps, hcp⟩ := hostActs_abandonActions hstopped w
    exact ⟨u, hacts, hrun, keepsData_trans hdata hkeeps, hcp⟩
  refine ⟨⟨retried c info s, hostActs_retryActions hstopped, rfl, keepsData_trans hdata (keepsData_started _),
    step_retried hfault⟩, ?_, habandon⟩
  rw [skipActions_eq]
  exact habandon _

end

end Sys2Proof.Safety
end

-- Every step and every run, and a command cut by a reset.
section
/-!
PROOFS. A step of a running sequencer is its command, and always has a next state; it stops the sequencer or moves `cp`
on below `CMSIZE`, so a run ends (70_reset_and_hazards.md R310, R312). What a reset in the middle of a command leaves
in the data memory (R301).
-/

namespace Sys2Proof.Safety

open Sys2Proof.Machine

variable {i : Instr} {s t : State}

/-! ## A step with a command at `cp` -/

theorem fetchWord_of_lt (hcp : s.cp.toNat < s.cfg.cmsize) : fetchWord s = some (s.cm.read s.cp.toNat) :=
  if_pos hcp

/-- Settles O5: the word fetched is the one at `cp`, and the command it decodes to is executed. -/
theorem stepRunsDecodedCommand : Obligations.StepRunsDecodedCommand := by
  intro s i hs hcp hi
  rw [step_eq_runCommand hs]
  simp only [runCommand, fetchWord_of_lt hcp, executeWord, hi]

/-! ## Every step answers -/

/-- The fault taken and the completed state are both next states. -/
theorem FaultsOrCompletes.exists_next {fault : Option (Cause × DWord)}
    {answer : Host.Outcome State Fault Refusal} (h : FaultsOrCompletes s fault answer) : ∃ t, answer = .next t := by
  cases h with
  | faults c info => exact ⟨_, rfl⟩
  | completes _ _ => exact ⟨_, rfl⟩

theorem exec_exists_next (i : Instr) (s : State) : ∃ t, exec i s = .next t :=
  (exec_faultsOrCompletes s i).exists_next

theorem step_exists_next (s : State) : ∃ t, step s = .next t := by
  by_cases hs : s.st = .run
  · rw [step_eq_runCommand hs]
    exact (runCommand_faultsOrCompletes s).exists_next
  · exact ⟨s, step_stopped hs⟩

theorem run_zero (s : State) : core.run 0 s = .next s := rfl

theorem run_succ (k : Nat) (h : step s = .next t) : core.run (k + 1) s = core.run k t := by
  have hstep : core.step s = .next t := h
  simp only [Host.Core.run, hstep]

theorem run_exists_next (k : Nat) (s : State) : ∃ t, core.run k s = .next t := by
  induction k generalizing s with
  | zero => exact ⟨s, run_zero s⟩
  | succ k ih =>
    obtain ⟨t, ht⟩ := step_exists_next s
    rw [run_succ k ht]
    exact ih t

/-- Settles O9: a command and a step answer by their checks, and a run is steps. -/
theorem everyStepAnswers : Obligations.EveryStepAnswers :=
  ⟨exec_exists_next, step_exists_next, run_exists_next⟩

/-! ## Every run ends -/

/-- A step of a running sequencer stops it, or was of a command at `cp` and moves `cp` on by one (R28, R264). -/
theorem step_stops_or_advances (hs : s.st = .run) (h : step s = .next t) :
    (t.st = .halted ∨ t.st = .faulted) ∨
      (s.cp.toNat < s.cfg.cmsize ∧ t.st = .run ∧ t.cp = s.cp + 1 ∧ t.cfg = s.cfg) := by
  rcases step_run h hs with ⟨c, info, rfl⟩ | ⟨i, hcp, -, hexec⟩
  · exact .inl (.inr rfl)
  · rcases commandPointerAdvances i s t hs hexec with ⟨-, hrun, hnext⟩ | ⟨-, hhalted, -⟩ | ⟨-, hfaulted, -⟩
    · exact .inr ⟨hcp, hrun, hnext, (keepsInstance_of_effect (exec_effect hexec)).1⟩
    · exact .inl (.inl hhalted)
    · exact .inl (.inr hfaulted)

/-- A `cp` within the command memory does not wrap when it moves on (R9). -/
theorem toNat_cp_succ (hsize : s.cfg.cmsize ≤ 2 ^ 31) (hcp : s.cp.toNat < s.cfg.cmsize) :
    (s.cp + 1).toNat = s.cp.toNat + 1 := by
  bv_omega

/-- With fewer than `n` command words from `cp` on, a run stops within `n` steps: each step that does not stop the
sequencer leaves one word less. -/
theorem run_stops (n : Nat) (hsize : s.cfg.cmsize ≤ 2 ^ 31) (hs : s.st = .run)
    (hleft : s.cfg.cmsize - s.cp.toNat < n) :
    ∃ k t, k ≤ n ∧ core.run k s = .next t ∧ (t.st = .halted ∨ t.st = .faulted) := by
  induction n generalizing s with
  | zero => exact absurd hleft (Nat.not_lt_zero _)
  | succ n ih =>
    obtain ⟨t, ht⟩ := step_exists_next s
    rcases step_stops_or_advances hs ht with hstop | ⟨hcp, hrun, hnext, hcfg⟩
    · exact ⟨1, t, by omega, (run_succ 0 ht).trans (run_zero t), hstop⟩
    · have hpointer : t.cp.toNat = s.cp.toNat + 1 := by rw [hnext, toNat_cp_succ hsize hcp]
      obtain ⟨k, u, hk, hu, hstop⟩ := ih (s := t) (by rwa [hcfg]) hrun (by rw [hcfg, hpointer]; omega)
      exact ⟨k + 1, u, by omega, (run_succ k ht).trans hu, hstop⟩

/-- Settles O14: at most `CMSIZE` words lie from `cp` on. -/
theorem everyRunEnds : Obligations.EveryRunEnds := by
  intro s hwf hs
  obtain ⟨⟨-, hsize⟩, -, -⟩ := hwf
  exact run_stops (s.cfg.cmsize + 1) hsize hs (by omega)

/-! ## A command cut by a reset -/

/-- The bytes that the write set of a cut command ends with: those of `bytes`, and past them the bytes as they were
(R301; log 4). -/
def cutBytes (bytes : List Byte) (i : Instr) (s : State) : List Byte :=
  (List.range (writeSet i s).2).map fun k => bytes.getD k (s.dm.read ((writeSet i s).1 + k))

theorem cutBytes_length (bytes : List Byte) (i : Instr) (s : State) :
    (cutBytes bytes i s).length = (writeSet i s).2 := by
  simp [cutBytes]

theorem cutBytes_getElem {bytes : List Byte} {k : Nat} (hk : k < bytes.length)
    (hset : k < (cutBytes bytes i s).length) : (cutBytes bytes i s)[k] = bytes[k] := by
  simp [cutBytes, hk]

/-- A cut command loses the bytes of its write set (R301). -/
theorem cutMemory_of_decode (bytes : List Byte) (hcp : s.cp.toNat < s.cfg.cmsize)
    (hi : decode (s.cm.read s.cp.toNat) = .ok i) :
    cutMemory bytes s = writeBytes s.dm (writeSet i s).1 (cutBytes bytes i s) := by
  simp only [cutMemory, fetchWord_of_lt hcp, hi, cutBytes]

/-- A reset in the middle of a command is a reset with the memory that the cut command leaves (R300, R301). -/
theorem hostAct_resetMidCommand_run (bytes : List Byte) (hs : s.st = .run) :
    hostAct (.resetMidCommand bytes) s = .next (State.afterReset s.cfg (cutMemory bytes s) s.cm) := by
  rw [hostAct, resetCutting, if_pos hs]

/-- Settles O21: the memory after the cut is the one before with bytes stored in the write set alone. -/
theorem resetMidCommandLosesOnlyTheWriteSet : Obligations.ResetMidCommandLosesOnlyTheWriteSet := by
  intro s i bytes hs hcp hi hwf
  have hcut := cutMemory_of_decode bytes hcp hi
  refine ⟨_, hostAct_resetMidCommand_run bytes hs, rfl, fun a ha => ?outside, fun k hk hset => ?inside⟩
  case outside =>
    show (cutMemory bytes s).read a = s.dm.read a
    rw [hcut]
    exact read_writeBytes_outside s.dm _ _ (by rwa [cutBytes_length])
  case inside =>
    show (cutMemory bytes s).read ((writeSet i s).1 + k) = bytes[k]
    have hlen : k < (cutBytes bytes i s).length := by rwa [cutBytes_length]
    rw [hcut, read_writeBytes_inside hwf _ _ hlen, cutBytes_getElem hk]

end Sys2Proof.Safety
end
